-- ==== Sys2Proof/Word.lean ====
section
/-! DEFINITION. The word type of the core: a byte. -/

namespace Sys2Proof

/-- One byte of the input stream, the history or the output stream (R60). -/
abbrev Byte := BitVec 8

end Sys2Proof
end

