-- ==== Sys2Proof/Config.lean ====
section
/-! DEFINITION. What is fixed for the core (00_scope.md R8, R9) and the values the spec leaves open. -/

namespace Sys2Proof

/-- The longest literal/length codeword (R8). -/
def Config.maxBitsLL : Nat := 15

/-- The longest distance codeword (R8). -/
def Config.maxBitsD : Nat := 15

/-- The longest code-length codeword (R8). -/
def Config.maxBitsCL : Nat := 7

/-- Slots of the literal/length table (R9). -/
def Config.nLitLen : Nat := 288

/-- Slots of the distance table (R9). -/
def Config.nDist : Nat := 32

/-- Symbols of the code-length alphabet (R9). -/
def Config.nCodeLen : Nat := 19

/-- Entries of the combined code-length array (R9). -/
def Config.nLens : Nat := 320

/-! The free values: R51 leaves the elements below "unspecified" after a `start`; the n-th value each of
them takes is `free… n` (log 5). Nothing in Lean can evaluate them. -/

/-- `hlit` after a `start`. -/
opaque Config.freeHlit : Nat → BitVec 9
/-- `hdist` after a `start`. -/
opaque Config.freeHdist : Nat → BitVec 6
/-- `hclen` after a `start`. -/
opaque Config.freeHclen : Nat → BitVec 5
/-- One entry of `cl_len` after a `start`: the use, then the index. -/
opaque Config.freeClLen : Nat → Nat → BitVec 3
/-- One entry of `lens` after a `start`. -/
opaque Config.freeLens : Nat → Nat → BitVec 4
/-- One entry of `ll_len` after a `start`. -/
opaque Config.freeLlLen : Nat → Nat → BitVec 4
/-- One entry of `d_len` after a `start`. -/
opaque Config.freeDLen : Nat → Nat → BitVec 4

end Sys2Proof
end

