-- ==== Sys2Proof/Syntax.lean ====
section
/-! DEFINITION. The instructions: one constructor per row of spec/opcode_table.json, and the five word formats. -/

namespace Sys2Proof

/-- The format a word is read in. The opcode table selects a row "by the decoded symbol value or field value":
which format is in force is a matter of where the Block Decoder stands, so it is no part of the word. -/
inductive Format where
  /-- Block header `{BTYPE[1:0], BFINAL}`, 3 bits (R91). -/
  | blockHdr
  /-- Literal/length symbol, 9 bits (R99). -/
  | litLenSym
  /-- Distance symbol, 5 bits (R101). -/
  | distSym
  /-- Code-length symbol, 5 bits (R102). -/
  | clSym
  /-- Internal op word, 25 bits (R107). -/
  | windowOp
  deriving DecidableEq, Repr

/-- How many bits a word of the format has. -/
def Format.width : Format → Nat
  | .blockHdr => 3
  | .litLenSym => 9
  | .distSym => 5
  | .clSym => 5
  | .windowOp => 25

/-- The instructions. The extra bits that follow a symbol in the stream are read by the instruction while it runs
(R233, R265, R193 to R195), so they are no operand of the syntax. -/
inductive Instr where
  /-- BLOCK_STORED, with BFINAL (R344). -/
  | blockStored (final : Bool)
  /-- BLOCK_FIXED, with BFINAL (R345). -/
  | blockFixed (final : Bool)
  /-- BLOCK_DYNAMIC, with BFINAL (R346). -/
  | blockDynamic (final : Bool)
  /-- BLOCK_RESERVED, with BFINAL (R347). -/
  | blockReserved (final : Bool)
  /-- LIT: literal/length symbols 0..255 (R231). -/
  | lit (b : Byte)
  /-- EOB: literal/length symbol 256 (R232). -/
  | eob
  -- LEN_257 .. LEN_287 (R234 to R264)
  | len257
  | len258
  | len259
  | len260
  | len261
  | len262
  | len263
  | len264
  | len265
  | len266
  | len267
  | len268
  | len269
  | len270
  | len271
  | len272
  | len273
  | len274
  | len275
  | len276
  | len277
  | len278
  | len279
  | len280
  | len281
  | len282
  | len283
  | len284
  | len285
  | len286
  | len287
  -- DIST_0 .. DIST_31 (R266 to R297)
  | dist0
  | dist1
  | dist2
  | dist3
  | dist4
  | dist5
  | dist6
  | dist7
  | dist8
  | dist9
  | dist10
  | dist11
  | dist12
  | dist13
  | dist14
  | dist15
  | dist16
  | dist17
  | dist18
  | dist19
  | dist20
  | dist21
  | dist22
  | dist23
  | dist24
  | dist25
  | dist26
  | dist27
  | dist28
  | dist29
  | dist30
  | dist31
  /-- CL_LEN: code-length symbols 0..15, a verbatim length (R192). -/
  | clLen (v : BitVec 4)
  /-- CL_REP16: repeat the previous length (R193). -/
  | clRep16
  /-- CL_ZERO17: short zero run (R194). -/
  | clZero17
  /-- CL_ZERO18: long zero run (R195). -/
  | clZero18
  /-- OP_LITERAL: `Literal(b)` (R320). -/
  | opLiteral (b : Byte)
  /-- OP_END_OF_BLOCK: `EndOfBlock` (R321). -/
  | opEndOfBlock
  /-- OP_BACKREF: `BackReference` of a length and a distance (R322). -/
  | opBackref (length distance : Nat)
  deriving DecidableEq, Repr

end Sys2Proof
end

