-- ==== Sys2Proof/WellFormed.lean ====
section
/-! DEFINITION. Which instruction terms stand for an instruction of the spec. -/

namespace Sys2Proof

/-- "`BackReference` of length 3..258 and distance 1..32768" (R107, R299). Every other operand has exactly its range by
its type: BFINAL a bit, a literal a byte, a verbatim code length 0..15. -/
def Instr.wellFormed : Instr → Bool
  | .opBackref length distance => decide (3 ≤ length ∧ length ≤ 258 ∧ 1 ≤ distance ∧ distance ≤ 32768)
  | _ => true

end Sys2Proof
end

