-- ==== Sys2Proof/Decode.lean ====
section
/-! DEFINITION. Decoding a word of a format into an instruction, total, rejecting by name; and the encoder. -/

namespace Sys2Proof

/-- Why a word is no instruction. -/
inductive DecodeError where
  /-- Op tag `11`: "never produced" (R107). -/
  | reservedOpTag
  /-- A literal/length symbol above 287: the alphabet has 288 slots (R99). -/
  | noSuchLitLenSymbol
  /-- A code-length symbol above 18: "can only return 0..18" (R102). -/
  | noSuchCodeLenSymbol
  deriving DecidableEq, Repr

/-- A block header `{BTYPE[1:0], BFINAL}` (R91, R92). -/
def decodeBlockHdr (w : BitVec 3) : Except DecodeError Instr :=
  match (w.extractLsb' 1 2).toNat with
  | 0 => .ok (.blockStored (w.getLsbD 0))
  | 1 => .ok (.blockFixed (w.getLsbD 0))
  | 2 => .ok (.blockDynamic (w.getLsbD 0))
  | _ => .ok (.blockReserved (w.getLsbD 0))

/-- A literal/length symbol (R99). -/
def decodeLitLen (w : BitVec 9) : Except DecodeError Instr :=
  if w.getLsbD 8 = false then .ok (.lit (w.setWidth 8))
  else match w.toNat with
    | 256 => .ok .eob
    | 257 => .ok .len257
    | 258 => .ok .len258
    | 259 => .ok .len259
    | 260 => .ok .len260
    | 261 => .ok .len261
    | 262 => .ok .len262
    | 263 => .ok .len263
    | 264 => .ok .len264
    | 265 => .ok .len265
    | 266 => .ok .len266
    | 267 => .ok .len267
    | 268 => .ok .len268
    | 269 => .ok .len269
    | 270 => .ok .len270
    | 271 => .ok .len271
    | 272 => .ok .len272
    | 273 => .ok .len273
    | 274 => .ok .len274
    | 275 => .ok .len275
    | 276 => .ok .len276
    | 277 => .ok .len277
    | 278 => .ok .len278
    | 279 => .ok .len279
    | 280 => .ok .len280
    | 281 => .ok .len281
    | 282 => .ok .len282
    | 283 => .ok .len283
    | 284 => .ok .len284
    | 285 => .ok .len285
    | 286 => .ok .len286
    | 287 => .ok .len287
    | _ => .error .noSuchLitLenSymbol

/-- A distance symbol (R101). -/
def decodeDist (w : BitVec 5) : Except DecodeError Instr :=
  match w.toNat with
  | 0 => .ok .dist0
  | 1 => .ok .dist1
  | 2 => .ok .dist2
  | 3 => .ok .dist3
  | 4 => .ok .dist4
  | 5 => .ok .dist5
  | 6 => .ok .dist6
  | 7 => .ok .dist7
  | 8 => .ok .dist8
  | 9 => .ok .dist9
  | 10 => .ok .dist10
  | 11 => .ok .dist11
  | 12 => .ok .dist12
  | 13 => .ok .dist13
  | 14 => .ok .dist14
  | 15 => .ok .dist15
  | 16 => .ok .dist16
  | 17 => .ok .dist17
  | 18 => .ok .dist18
  | 19 => .ok .dist19
  | 20 => .ok .dist20
  | 21 => .ok .dist21
  | 22 => .ok .dist22
  | 23 => .ok .dist23
  | 24 => .ok .dist24
  | 25 => .ok .dist25
  | 26 => .ok .dist26
  | 27 => .ok .dist27
  | 28 => .ok .dist28
  | 29 => .ok .dist29
  | 30 => .ok .dist30
  | 31 => .ok .dist31
  | _ => .ok .dist31

/-- A code-length symbol (R102). -/
def decodeCodeLen (w : BitVec 5) : Except DecodeError Instr :=
  if w.getLsbD 4 = false then .ok (.clLen (w.setWidth 4))
  else match w.toNat with
    | 16 => .ok .clRep16
    | 17 => .ok .clZero17
    | 18 => .ok .clZero18
    | _ => .error .noSuchCodeLenSymbol

/-- An internal op word (R107): tag `op[1:0]`, `op[9:2]` the byte or the length less 3, `op[24:10]` the distance
less 1. The bits a tag does not use are not looked at: the table's mask is the tag's two bits (log 10). -/
def decodeOp (w : BitVec 25) : Except DecodeError Instr :=
  match (w.extractLsb' 0 2).toNat with
  | 0 => .ok (.opLiteral (w.extractLsb' 2 8))
  | 1 => .ok .opEndOfBlock
  | 2 => .ok (.opBackref ((w.extractLsb' 2 8).toNat + 3) ((w.extractLsb' 10 15).toNat + 1))
  | _ => .error .reservedOpTag

/-- The instruction a word of a format stands for; bits of `w` above the format's width are not looked at. -/
def decode (f : Format) (w : BitVec 25) : Except DecodeError Instr :=
  match f with
  | .blockHdr => decodeBlockHdr (w.setWidth 3)
  | .litLenSym => decodeLitLen (w.setWidth 9)
  | .distSym => decodeDist (w.setWidth 5)
  | .clSym => decodeCodeLen (w.setWidth 5)
  | .windowOp => decodeOp w

/-! ## The encoder, written from the same tables -/

/-- A block header word from BTYPE and BFINAL (R91): `hdr[0]` is BFINAL, `hdr[2:1]` is BTYPE. -/
def blockHdrWord (btype : BitVec 2) (final : Bool) : BitVec 3 := btype ++ BitVec.ofBool final

/-- The op word of `Literal(b)` (R107). -/
def opLiteralWord (b : Byte) : BitVec 25 := (0#15 ++ b : BitVec 23) ++ 0#2

/-- The op word of `EndOfBlock` (R107). -/
def opEndOfBlockWord : BitVec 25 := 1#25

/-- The op word of `BackReference` of length `l` and distance `d` (R107). R107 gives it for 3..258 and 1..32768; what other
values give is the model's choice (log 26). -/
def opBackrefWord (l d : Nat) : BitVec 25 :=
  (BitVec.ofNat 15 (d - 1) ++ BitVec.ofNat 8 (l - 3) : BitVec 23) ++ 2#2

/-- The format and the word of an instruction. -/
def encode : Instr → Format × BitVec 25
  | .blockStored f => (.blockHdr, (blockHdrWord 0 f).setWidth 25)
  | .blockFixed f => (.blockHdr, (blockHdrWord 1 f).setWidth 25)
  | .blockDynamic f => (.blockHdr, (blockHdrWord 2 f).setWidth 25)
  | .blockReserved f => (.blockHdr, (blockHdrWord 3 f).setWidth 25)
  | .lit b => (.litLenSym, b.setWidth 25)
  | .eob => (.litLenSym, 256)
  | .len257 => (.litLenSym, 257)
  | .len258 => (.litLenSym, 258)
  | .len259 => (.litLenSym, 259)
  | .len260 => (.litLenSym, 260)
  | .len261 => (.litLenSym, 261)
  | .len262 => (.litLenSym, 262)
  | .len263 => (.litLenSym, 263)
  | .len264 => (.litLenSym, 264)
  | .len265 => (.litLenSym, 265)
  | .len266 => (.litLenSym, 266)
  | .len267 => (.litLenSym, 267)
  | .len268 => (.litLenSym, 268)
  | .len269 => (.litLenSym, 269)
  | .len270 => (.litLenSym, 270)
  | .len271 => (.litLenSym, 271)
  | .len272 => (.litLenSym, 272)
  | .len273 => (.litLenSym, 273)
  | .len274 => (.litLenSym, 274)
  | .len275 => (.litLenSym, 275)
  | .len276 => (.litLenSym, 276)
  | .len277 => (.litLenSym, 277)
  | .len278 => (.litLenSym, 278)
  | .len279 => (.litLenSym, 279)
  | .len280 => (.litLenSym, 280)
  | .len281 => (.litLenSym, 281)
  | .len282 => (.litLenSym, 282)
  | .len283 => (.litLenSym, 283)
  | .len284 => (.litLenSym, 284)
  | .len285 => (.litLenSym, 285)
  | .len286 => (.litLenSym, 286)
  | .len287 => (.litLenSym, 287)
  | .dist0 => (.distSym, 0)
  | .dist1 => (.distSym, 1)
  | .dist2 => (.distSym, 2)
  | .dist3 => (.distSym, 3)
  | .dist4 => (.distSym, 4)
  | .dist5 => (.distSym, 5)
  | .dist6 => (.distSym, 6)
  | .dist7 => (.distSym, 7)
  | .dist8 => (.distSym, 8)
  | .dist9 => (.distSym, 9)
  | .dist10 => (.distSym, 10)
  | .dist11 => (.distSym, 11)
  | .dist12 => (.distSym, 12)
  | .dist13 => (.distSym, 13)
  | .dist14 => (.distSym, 14)
  | .dist15 => (.distSym, 15)
  | .dist16 => (.distSym, 16)
  | .dist17 => (.distSym, 17)
  | .dist18 => (.distSym, 18)
  | .dist19 => (.distSym, 19)
  | .dist20 => (.distSym, 20)
  | .dist21 => (.distSym, 21)
  | .dist22 => (.distSym, 22)
  | .dist23 => (.distSym, 23)
  | .dist24 => (.distSym, 24)
  | .dist25 => (.distSym, 25)
  | .dist26 => (.distSym, 26)
  | .dist27 => (.distSym, 27)
  | .dist28 => (.distSym, 28)
  | .dist29 => (.distSym, 29)
  | .dist30 => (.distSym, 30)
  | .dist31 => (.distSym, 31)
  | .clLen v => (.clSym, v.setWidth 25)
  | .clRep16 => (.clSym, 16)
  | .clZero17 => (.clSym, 17)
  | .clZero18 => (.clSym, 18)
  | .opLiteral b => (.windowOp, opLiteralWord b)
  | .opEndOfBlock => (.windowOp, opEndOfBlockWord)
  | .opBackref l d => (.windowOp, opBackrefWord l d)

/-! ## Words of the opcode table

A row of the table has no bits that name its format, and rows of different formats share words (0 is BLOCK_STORED,
LIT 0, DIST_0, CL_LEN 0 and OP_LITERAL 0). `tableFormat` settles which format a bare number is read in (log 9). -/

/-- The format a table word of `nbits` bits is read in (log 9). -/
def tableFormat (nbits w : Nat) : Format :=
  if nbits ≤ 8 then
    if w = 0 ∨ w = 2 ∨ w = 4 ∨ w = 6 then .blockHdr
    else if w = 1 then .windowOp
    else if w = 16 ∨ w = 17 ∨ w % 32 = 18 then .clSym
    else .distSym
  else if nbits ≤ 16 then
    if w < 512 ∧ ¬ (18 ≤ w ∧ w ≤ 29) then .litLenSym else .distSym
  else .windowOp

/-- The instruction the decoder reads from an opcode-table word. -/
def decodeTableWord (nbits w : Nat) : Option Instr :=
  match decode (tableFormat nbits w) (BitVec.ofNat 25 w) with
  | .ok i => some i
  | .error _ => none

end Sys2Proof
end

