-- ==== Sys2Proof/Machine/State.lean ====
section
/-! DEFINITION. The state of the core: every element of 10_state.md, the host's side of the ports, and reset. -/

namespace Sys2Proof.Machine

/-! ## The block state machine (R26, R340)

`fsm_state` has nine values. A busy one carries the position inside its work where the core goes on ("the core
resumes at the same primitive", R14), with the locals of the pseudocode that are live there (log 1). -/

/-- Positions in `BLOCK_HDR` (R343). -/
inductive HdrPos where
  /-- `bfinal <- read_bit()` -/
  | final
  /-- `btype <- read_bits(2)` -/
  | type
  /-- `case btype of`: the BLOCK_ instruction in `{btype, bfinal}` -/
  | dispatch
  deriving DecidableEq, Repr

/-- Positions in `STORED` (R181). -/
inductive StoredPos where
  /-- `align()` -/
  | align
  /-- the low byte of LEN -/
  | lenLo
  /-- the high byte of LEN; the low byte is read -/
  | lenHi (lo : Byte)
  /-- the low byte of NLEN -/
  | nlenLo
  /-- the high byte of NLEN; the low byte is read -/
  | nlenHi (lo : Byte)
  /-- the complement check -/
  | check
  /-- `while stored_rem > 0`: end, or read the next data byte -/
  | data
  /-- the op word `Literal(b)` of the data byte, handed to the Window Reconstructor -/
  | op (w : BitVec 25)
  deriving DecidableEq, Repr

/-- Positions in `DYN_HDR` (R188 to R198). -/
inductive DynPos where
  /-- `hlit <- read_bits(5) + 257` -/
  | hlit
  /-- `hdist <- read_bits(5) + 1` -/
  | hdist
  /-- `hclen <- read_bits(4) + 4` -/
  | hclen
  /-- the loop over the code-length code lengths, at index `i` (R189) -/
  | clLen (i : Nat)
  /-- the loop over the coded lengths: end, or decode the next code-length symbol (R191) -/
  | symbol
  /-- "execute CL symbol c" (R191) -/
  | execCl (c : BitVec 5)
  /-- the split (R197) and the selection of the tables (R198) -/
  | split
  deriving DecidableEq, Repr

/-- Positions in `HUFF_SYM` (R230, R265, R298). -/
inductive HuffPos where
  /-- `cur_sym <- decode(LL, 15, 0)` -/
  | symbol
  /-- the literal/length instruction in `cur_sym` -/
  | execSym
  /-- `cur_dsym <- decode(D, 15, 1)` -/
  | dist
  /-- the distance instruction in `cur_dsym` -/
  | execDist
  /-- an op word handed to the Window Reconstructor -/
  | op (w : BitVec 25)
  deriving DecidableEq, Repr

/-- `fsm_state` (R26). -/
inductive Fsm where
  | idle
  | blockHdr (p : HdrPos)
  | stored (p : StoredPos)
  | dynHdr (p : DynPos)
  | huffSym (p : HuffPos)
  | copy
  | blockEnd
  | done
  | error
  deriving DecidableEq, Repr

/-- The nine names of `fsm_state` (R340), without the position. -/
inductive FsmName where
  | idle | blockHdr | stored | dynHdr | huffSym | copy | blockEnd | done | error
  deriving DecidableEq, Repr

/-- The name of a value of `fsm_state`. -/
def Fsm.name : Fsm → FsmName
  | .idle => .idle
  | .blockHdr _ => .blockHdr
  | .stored _ => .stored
  | .dynHdr _ => .dynHdr
  | .huffSym _ => .huffSym
  | .copy => .copy
  | .blockEnd => .blockEnd
  | .done => .done
  | .error => .error

/-! ## The history memory (R41, R60)

A list of (index, byte) with strictly rising indices. An index that is not listed holds no value: R51 lets a model
"hold it as absent (reading it would be a modelling fault)" (log 4). -/

/-- The history memory. -/
abbrev Memory := List Host.Cell

/-- The canonical form: indices strictly rising. No entry can equal what an unlisted index reads as, since that is no
byte at all. -/
def Memory.wf : Memory → Bool
  | [] => true
  | [_] => true
  | c :: d :: m => decide (c.1 < d.1) && Memory.wf (d :: m)

/-! ## Errors -/

/-- The eight error kinds (R371). -/
inductive ErrKind where
  | ioFailure
  | reservedBlockType
  | lengthComplementMismatch
  | invalidLengthSymbol
  | invalidDistanceSymbol
  | malformedDynamicCodeTable
  | invalidCode
  | distanceTooFar
  deriving DecidableEq, Repr

/-- Why the machine stops with a fault. The spec's own errors are no faults: they enter the state ERROR. -/
inductive Fault where
  /-- Raised by COPY when the history index it reads holds no byte (R51 "reading it would be a modelling fault"). Safe:
  the machine stops where the hardware would go on with some byte. No run from reset reaches it (R331). -/
  | historyUnwritten (index : Nat)
  /-- Raised by PUT when `wp` is not below `WINDOW_SIZE`, an index the history does not have (R66). Safe. No run from
  reset reaches it (R353). -/
  | historyIndex (index : Nat)
  deriving DecidableEq, Repr

/-- Why a step is refused. -/
inductive Refusal where
  /-- Raised by `exec` for an instruction that has no meaning yet. Safe. No arm of `exec` raises it now. -/
  | notModelled (mnemonic : String)
  /-- Raised by `step` when the word to execute is no instruction (R107 "never produced", R99, R102). Safe: no rule
  produces such a word, so no run from reset reaches it. -/
  | undecodable (e : DecodeError)
  deriving DecidableEq, Repr

/-- A step's answer. -/
abbrev Result (σ : Type) := Host.Outcome σ Fault Refusal

/-! ## The state -/

/-- The state: 10_state.md sections 3 to 7, the ports, the two streams, and the model's counter of free values. -/
structure State where
  /-- `fsm_state` (R26). -/
  fsm : Fsm
  /-- `WLOG2` of the current stream (R25). -/
  wlog2 : BitVec 4
  /-- BFINAL of the current block (R27). -/
  bfinal : Bool
  /-- BTYPE of the current block (R28). -/
  btype : BitVec 2
  /-- The unread bits of the last byte taken, next bit lowest (R29). -/
  bitbuf : Byte
  /-- How many bits of `bitbuf` are unread (R30). -/
  bitcnt : BitVec 4
  /-- The bits of a field collected so far (R31). -/
  fldAcc : BitVec 16
  /-- How many (R31). -/
  fldCnt : BitVec 5
  /-- The codeword bits read so far (R32). -/
  walkBits : BitVec 15
  /-- How many (R32). -/
  walkLen : BitVec 4
  /-- LEN of the current stored block (R33). -/
  storedLen : BitVec 16
  /-- NLEN of the current stored block (R33). -/
  storedNlen : BitVec 16
  /-- Its bytes not yet emitted (R33). -/
  storedRem : BitVec 16
  /-- HLIT + 257 (R34). -/
  hlit : BitVec 9
  /-- HDIST + 1 (R34). -/
  hdist : BitVec 6
  /-- HCLEN + 4 (R34). -/
  hclen : BitVec 5
  /-- `cl_len[0..18]` (R35). -/
  clLen : List (BitVec 3)
  /-- `lens[0..319]` (R36). -/
  lens : List (BitVec 4)
  /-- `len_idx` (R36). -/
  lenIdx : BitVec 9
  /-- `ll_len[0..287]` (R37). -/
  llLen : List (BitVec 4)
  /-- `d_len[0..31]` (R37). -/
  dLen : List (BitVec 4)
  /-- `tsel`: false the fixed tables, true the dynamic ones (R37). -/
  tsel : Bool
  /-- The last literal/length symbol (R39). -/
  curSym : BitVec 9
  /-- The last distance symbol (R39). -/
  curDsym : BitVec 5
  /-- The length of the back-reference being formed or copied (R39). -/
  curLen : BitVec 9
  /-- Its distance (R39). -/
  curDist : BitVec 16
  /-- Its bytes not yet copied (R40). -/
  copyRem : BitVec 9
  /-- The history memory (R41). -/
  hist : Memory
  /-- The history write index (R42). -/
  wp : BitVec 15
  /-- The logical length of the history (R44). -/
  filled : BitVec 16
  /-- `err_code` (R46). -/
  errCode : BitVec 4
  /-- `err_info` (R47). -/
  errInfo : BitVec 32
  /-- `in_ready` (R21): between steps, the core is held inside `ReadByte()`. -/
  inReady : Bool
  /-- `out_valid` (R23): between steps, the core is held inside `Emit(b)`. -/
  outValid : Bool
  /-- `out_data` (R23). -/
  outData : Byte
  /-- The bytes the host presents on the input port, next first (log 2). -/
  input : List Byte
  /-- `in_end` (R21). -/
  inEnd : Bool
  /-- `out_ready` (R23). -/
  outReady : Bool
  /-- `cfg_window_log2` (R22). -/
  cfgWlog2 : BitVec 4
  /-- The event `start` (R22), taken by the next step. -/
  start : Bool
  /-- The event `rst` (R22), taken by the next step. -/
  rst : Bool
  /-- The bytes the host has accepted in this stream, oldest first (R60, R64). -/
  output : List Byte
  /-- How many input bytes the core has taken in this stream (R48). -/
  cursor : Nat
  /-- The model's own: the next free value (log 5). -/
  freeCtr : Nat
  deriving DecidableEq, Repr

/-- The state after reset (R51, R400). Where R51 says unspecified: log 3, log 4; the host's side: log 6. -/
def State.reset : State where
  fsm := .idle
  wlog2 := 0
  bfinal := false
  btype := 0
  bitbuf := 0
  bitcnt := 0
  fldAcc := 0
  fldCnt := 0
  walkBits := 0
  walkLen := 0
  storedLen := 0
  storedNlen := 0
  storedRem := 0
  hlit := 0
  hdist := 0
  hclen := 0
  clLen := List.replicate 19 0
  lens := List.replicate 320 0
  lenIdx := 0
  llLen := List.replicate 288 0
  dLen := List.replicate 32 0
  tsel := false
  curSym := 0
  curDsym := 0
  curLen := 0
  curDist := 0
  copyRem := 0
  hist := []
  wp := 0
  filled := 0
  errCode := 0
  errInfo := 0
  inReady := false
  outValid := false
  outData := 0
  input := []
  inEnd := false
  outReady := true
  cfgWlog2 := 0
  start := false
  rst := false
  output := []
  cursor := 0
  freeCtr := 0

end Sys2Proof.Machine
end

