-- ==== Sys2Proof/Machine/Flags.lean ====
section
/-! DEFINITION. The status flags (R45) and the numeric error codes (R371). No instruction of this hardware sets a
condition code (R49). -/

namespace Sys2Proof.Machine

/-- The stream is in progress: `fsm_state` is neither IDLE, DONE nor ERROR (R45). -/
def State.busy (s : State) : Bool :=
  match s.fsm with
  | .idle => false
  | .done => false
  | .error => false
  | _ => true

/-- The stream is complete (R45). -/
def State.isDone (s : State) : Bool := decide (s.fsm = .done)

/-- The stream has failed (R45). -/
def State.isError (s : State) : Bool := decide (s.fsm = .error)

/-- `err_code` of an error kind (R371). -/
def ErrKind.code : ErrKind → BitVec 4
  | .ioFailure => 1
  | .reservedBlockType => 2
  | .lengthComplementMismatch => 3
  | .invalidLengthSymbol => 4
  | .invalidDistanceSymbol => 5
  | .malformedDynamicCodeTable => 6
  | .invalidCode => 7
  | .distanceTooFar => 8

/-- The alphabet ids of INVALID_CODE's `err_info` (R162, R378). -/
def alphLitLen : BitVec 32 := 0
def alphDist : BitVec 32 := 1
def alphCodeLen : BitVec 32 := 2

end Sys2Proof.Machine
end

