-- ==== Sys2Proof/Machine/Huffman.lean ====
section
/-! DEFINITION. The Canonical Huffman Table: BUILD_TABLE (41_huffman_table.md R150 to R155) and the constant tables. -/

namespace Sys2Proof.Machine

/-- The order in which the code-length code lengths come (R96). -/
def clOrder : List Nat := [16, 17, 18, 0, 8, 7, 9, 6, 10, 5, 11, 4, 12, 3, 13, 2, 14, 1, 15]

/-- `FIXED_LL_LEN` (R158). -/
def fixedLLLen : List Nat :=
  List.replicate 144 8 ++ List.replicate 112 9 ++ List.replicate 24 7 ++ List.replicate 8 8

/-- `FIXED_D_LEN` (R159). -/
def fixedDLen : List Nat := List.replicate 32 5

/-- One row of a table: a symbol, its codeword's value and its codeword's length. -/
structure TableEntry where
  sym : Nat
  bits : Nat
  len : Nat
  deriving DecidableEq, Repr

/-- A table: the symbols that have a codeword, in increasing order. It is `fwd` and `inv` of R150 at once. -/
abbrev Table := List TableEntry

/-- `count[L]` (R151); `count[0]` is 0 (R152). -/
def lenCount (lens : List Nat) (l : Nat) : Nat := if l = 0 then 0 else lens.count l

/-- `next[L]` as R153 leaves it: the smallest codeword of length `L`. At `L = 0` it is the seed 0. -/
def firstCode (lens : List Nat) : Nat → Nat
  | 0 => 0
  | l + 1 => (firstCode lens l + lenCount lens l) * 2

/-- The walk of R154 over the symbols from `sym` on, `next[L]` for each length being held in `next`. -/
def assignCodes : List Nat → Nat → List Nat → Table
  | [], _, _ => []
  | l :: lens, sym, next =>
    if l = 0 then assignCodes lens (sym + 1) next
    else
      { sym := sym, bits := next.getD l 0, len := l } ::
        assignCodes lens (sym + 1) (next.set l (next.getD l 0 + 1))

/-- `BUILD_TABLE(len, MAXBITS)` (R150). It checks nothing (R157) and truncates nothing (R156). -/
def buildTable (lens : List Nat) (maxBits : Nat) : Table :=
  assignCodes lens 0 ((List.range (maxBits + 1)).map (firstCode lens))

/-- `T.inv[(bits, length)]` (R155). -/
def Table.inv (t : Table) (bits len : Nat) : Option Nat :=
  (t.find? fun e => e.bits == bits && e.len == len).map (·.sym)

/-- `T.fwd[sym]` (R150): the codeword's value and length. -/
def Table.fwd (t : Table) (sym : Nat) : Option (Nat × Nat) :=
  (t.find? fun e => e.sym == sym).map fun e => (e.bits, e.len)

/-- `FIXED_LL_T` (R158). -/
def fixedLLTable : Table := buildTable fixedLLLen Config.maxBitsLL

/-- `FIXED_D_T` (R159). -/
def fixedDTable : Table := buildTable fixedDLen Config.maxBitsD

end Sys2Proof.Machine
end

