-- ==== Sys2Proof/Machine/Operands.lean ====
section
/-! DEFINITION. The operand values the stream's fields and symbols stand for: header counts (R104), lengths (R233),
distances (R265), repeat counts (R102), and the `err_info` words (R371). -/

namespace Sys2Proof.Machine

/-! ## Header counts (R104) -/

/-- `hlit` from HLIT. -/
def hlitOf (field : Nat) : BitVec 9 := BitVec.ofNat 9 (field + 257)

/-- `hdist` from HDIST. -/
def hdistOf (field : Nat) : BitVec 6 := BitVec.ofNat 6 (field + 1)

/-- `hclen` from HCLEN. -/
def hclenOf (field : Nat) : BitVec 5 := BitVec.ofNat 5 (field + 4)

/-! ## The formulas of R233 and R265

The meanings use the numbers of the per-symbol rules R234 to R262 and R266 to R295; these are the formulas those numbers
evaluate. -/

/-- The extra-bit count of length symbol `s` (R233, R100). -/
def lenExtra (s : Nat) : Nat := if s ≤ 264 ∨ s = 285 then 0 else (s - 261) / 4

/-- The base length of length symbol `s` (R233, R100). -/
def lenBase (s : Nat) : Nat :=
  if s ≤ 264 then s - 254
  else if s = 285 then 258
  else 3 + ((s - 265) % 4 + 4) * 2 ^ lenExtra s

/-- The extra-bit count of distance symbol `d` (R265, R101, C1). -/
def distExtra (d : Nat) : Nat := if d ≤ 3 then 0 else d / 2 - 1

/-- The base distance of distance symbol `d` (R265, R101). -/
def distBase (d : Nat) : Nat := if d ≤ 3 then d + 1 else 1 + (d % 2 + 2) * 2 ^ distExtra d

/-! ## Diagnostic values (R371) -/

/-- `{subcode, len_idx}` of MALFORMED_DYNAMIC_CODE_TABLE (R377). -/
def malformedInfo (subcode : BitVec 16) (lenIdx : BitVec 9) : BitVec 32 := subcode ++ lenIdx.setWidth 16

/-- `{length, distance}` of DISTANCE_TOO_FAR (R379). -/
def distanceInfo (length distance : Nat) : BitVec 32 := BitVec.ofNat 16 length ++ BitVec.ofNat 16 distance

/-- `{NLEN, LEN}` of LENGTH_COMPLEMENT_MISMATCH (R374). -/
def complementInfo (nlen len : BitVec 16) : BitVec 32 := nlen ++ len

end Sys2Proof.Machine
end

