-- ==== Sys2Proof/Machine/Ops.lean ====
section
/-! DEFINITION. The shared operations: the ports, the error state, the Bit Source, the symbol walk, the history. -/

namespace Sys2Proof.Machine

/-! ## An operation that reads input

It is done with a value, or holds for want of an input byte, or has failed (the error state is entered). -/

/-- What an operation that reads input comes to. -/
inductive Flow (α : Type) where
  /-- It is complete. -/
  | done (a : α) (s : State)
  /-- It waits inside `ReadByte()`; the state keeps what it has read (R14). -/
  | hold (s : State)
  /-- It has raised an error; the state is in ERROR. -/
  | failed (s : State)

/-- Go on with `k` when the operation is done; a hold and an error end the step where they stand. -/
def Flow.finish {α : Type} (f : Flow α) (k : α → State → Result State) : Result State :=
  match f with
  | .done a s => k a s
  | .hold s => .next s
  | .failed s => .next s

/-! ## The error state (60_exceptions.md) -/

/-- `raise E(info)` (R380): the core's one exception entry. Nothing is saved for a return, and there is no return (R383):
the state is left by `start` or `rst` alone. -/
def raise (e : ErrKind) (info : BitVec 32) (s : State) : State :=
  { s with errCode := e.code, errInfo := info, inReady := false, outValid := false, fsm := .error }

/-! ## The input port and the Bit Source (20_memory.md R61 to R63, 40_bit_source.md) -/

/-- `ReadByte()` (R61): take the byte the host presents; with none, IO_FAILURE if `in_end` (R63), else hold (R62). -/
def readByte (s : State) : Flow Byte :=
  match s.input with
  | b :: rest => .done b { s with input := rest, cursor := s.cursor + 1, inReady := false }
  | [] => if s.inEnd then .failed (raise .ioFailure 0 s) else .hold { s with inReady := true }

/-- The last three lines of `read_bit()` (R131): deliver `bitbuf[0]`. -/
def takeBit (s : State) : Flow Bool :=
  .done (s.bitbuf.getLsbD 0)
    { s with bitbuf := s.bitbuf >>> 1, bitcnt := s.bitcnt - 1, inReady := false }

/-- The byte just taken is the bit buffer (R131). -/
def loadByte (b : Byte) (s : State) : State := { s with bitbuf := b, bitcnt := 8 }

/-- `read_bit()` (R131): a byte is fetched only when no bit is buffered (R132). -/
def readBit (s : State) : Flow Bool :=
  if s.bitcnt = 0 then
    match readByte s with
    | .done b s' => takeBit (loadByte b s')
    | .hold s' => .hold s'
    | .failed s' => .failed s'
  else takeBit s

/-- `fld_acc <- fld_acc | (bit << fld_cnt); fld_cnt <- fld_cnt + 1` (R133). -/
def pushFieldBit (b : Bool) (s : State) : State :=
  { s with
    fldAcc := s.fldAcc ||| ((BitVec.ofBool b).setWidth 16 <<< s.fldCnt.toNat)
    fldCnt := s.fldCnt + 1 }

/-- The first line of `read_bits` (R133), unless the core is held inside it: then it goes on from the bits it has (R31,
log 24). -/
def beginField (s : State) : State := if s.inReady then s else { s with fldAcc := 0, fldCnt := 0 }

/-- The loop of `read_bits` (R133), `k` bits being still to come. -/
def collectBits : Nat → State → Flow Unit
  | 0, s => .done () { s with inReady := false }
  | k + 1, s =>
    match readBit s with
    | .done b s' => collectBits k (pushFieldBit b s')
    | .hold s' => .hold s'
    | .failed s' => .failed s'

/-- `read_bits(n)` (R133). -/
def readBits (n : Nat) (s : State) : Flow Nat :=
  match collectBits (n - (beginField s).fldCnt.toNat) (beginField s) with
  | .done _ s' => .done (s'.fldAcc.toNat % 2 ^ n) s'
  | .hold s' => .hold s'
  | .failed s' => .failed s'

/-- `align()` (R135). -/
def align (s : State) : State := { s with bitbuf := 0, bitcnt := 0 }

/-- `read_raw_byte()` (R136). -/
def readRawByte (s : State) : Flow Byte := readByte s

/-! ## The symbol walk (41_huffman_table.md R162, R163) -/

/-- `walk_bits <- (walk_bits << 1) | bit; walk_len <- walk_len + 1` (R162). -/
def pushWalkBit (b : Bool) (s : State) : State :=
  { s with
    walkBits := (s.walkBits <<< 1) ||| (BitVec.ofBool b).setWidth 15
    walkLen := s.walkLen + 1 }

/-- The first line of `decode` (R162), unless the core is held inside it: then it goes on from the bits it has (R32,
log 24). -/
def beginWalk (s : State) : State := if s.inReady then s else { s with walkBits := 0, walkLen := 0 }

/-- The loop of `decode`, `k` bits being still allowed. -/
def walk (t : Table) (alph : BitVec 32) : Nat → State → Flow Nat
  | 0, s => .failed (raise .invalidCode alph s)
  | k + 1, s =>
    match readBit s with
    | .done b s' =>
      match t.inv (pushWalkBit b s').walkBits.toNat (pushWalkBit b s').walkLen.toNat with
      | some sym => .done sym (pushWalkBit b s')
      | none => walk t alph k (pushWalkBit b s')
    | .hold s' => .hold s'
    | .failed s' => .failed s'

/-- `decode(T, MAXBITS, alph)` (R162). -/
def decodeSymbol (t : Table) (maxBits : Nat) (alph : BitVec 32) (s : State) : Flow Nat :=
  walk t alph (maxBits - (beginWalk s).walkLen.toNat) (beginWalk s)

/-- The active literal/length table (R37, R38). -/
def State.llTable (s : State) : Table :=
  if s.tsel then buildTable (s.llLen.map BitVec.toNat) Config.maxBitsLL else fixedLLTable

/-- The active distance table (R37, R38). -/
def State.dTable (s : State) : Table :=
  if s.tsel then buildTable (s.dLen.map BitVec.toNat) Config.maxBitsD else fixedDTable

/-- `CL_T` (R38, R190). -/
def State.clTable (s : State) : Table := buildTable (s.clLen.map BitVec.toNat) Config.maxBitsCL

/-! ## The history and the output port (20_memory.md R64 to R67, 44_window.md R324) -/

/-- `WINDOW_SIZE` (R7, R25). -/
def State.windowSize (s : State) : Nat := 2 ^ s.wlog2.toNat

/-- The byte at an index of the history; none where nothing was written (log 4). -/
def Memory.read : Memory → Nat → Option Byte
  | [], _ => none
  | (i, b) :: m, a => if i = a then some b else Memory.read m a

/-- Write a byte at an index, keeping the indices rising. -/
def Memory.write : Memory → Nat → Byte → Memory
  | [], a, v => [(a, v)]
  | (i, b) :: m, a, v =>
    if a < i then (a, v) :: (i, b) :: m
    else if a = i then (a, v) :: m
    else (i, b) :: Memory.write m a v

/-- `MemWrite(a, 1, v)` (R66). -/
def memWrite (a : Nat) (v : Byte) (s : State) : State := { s with hist := s.hist.write a v }

/-- The index of the byte `k` bytes before the next one (R67). -/
def State.histIndex (s : State) (k : Nat) : Nat := (s.wp.toNat + s.windowSize - k) % s.windowSize

/-- The last two lines of PUT (R324, R325). -/
def advance (s : State) : State :=
  { s with
    wp := BitVec.ofNat 15 ((s.wp.toNat + 1) % s.windowSize)
    filled := BitVec.ofNat 16 (min (s.filled.toNat + 1) s.windowSize) }

/-- `Emit(b)` when the host accepts (R64): the byte joins the output and `out_valid` is low again. -/
def emit (b : Byte) (s : State) : State :=
  { s with output := s.output ++ [b], outData := b, outValid := false }

/-- `Emit(b)` while the host does not accept (R65). -/
def holdEmit (b : Byte) (s : State) : State := { s with outData := b, outValid := true }

/-- `PUT(b)`, then `k` (R324): MemWrite, Emit, and `wp` and `filled` once Emit is complete. A held PUT is run again from
its first line when the host accepts; MemWrite then writes the same byte at the same index (log 17). -/
def put (b : Byte) (k : State → State) (s : State) : Result State :=
  if s.wp.toNat < s.windowSize then
    if s.outReady then .next (k (advance (emit b (memWrite s.wp.toNat b s))))
    else .next (holdEmit b (memWrite s.wp.toNat b s))
  else .fault (.historyIndex s.wp.toNat)

end Sys2Proof.Machine
end

