-- ==== Sys2Proof/Machine/BlockHeader.lean ====
section
/-! DEFINITION. The four block headers (45_block_fsm.md R343 to R347). Each writes `bfinal` and `btype` as the header
read does (log 16) and dispatches. -/

namespace Sys2Proof.Machine

/-- The registers a block header writes (R343). -/
def headerFlags (final : Bool) (btype : BitVec 2) (s : State) : State := { s with bfinal := final, btype := btype }

/-- BLOCK_STORED (R344): `goto STORED`. -/
def execBlockStored (final : Bool) (s : State) : Result State :=
  .next { headerFlags final 0 s with fsm := .stored .align }

/-- BLOCK_FIXED (R345, R187): select the fixed tables, `goto HUFF_SYM`. -/
def execBlockFixed (final : Bool) (s : State) : Result State :=
  .next { headerFlags final 1 s with tsel := false, fsm := .huffSym .symbol }

/-- BLOCK_DYNAMIC (R346): `goto DYN_HDR`. -/
def execBlockDynamic (final : Bool) (s : State) : Result State :=
  .next { headerFlags final 2 s with fsm := .dynHdr .hlit }

/-- BLOCK_RESERVED (R347): RESERVED_BLOCK_TYPE(3). -/
def execBlockReserved (final : Bool) (s : State) : Result State :=
  .next (raise .reservedBlockType 3 (headerFlags final 3 s))

end Sys2Proof.Machine
end

