-- ==== Sys2Proof/Machine/CodeLength.lean ====
section
/-! DEFINITION. The code-length symbols (42_block_decoder.md R191 to R196). -/

namespace Sys2Proof.Machine

/-- `n = hlit + hdist`, the number of coded lengths (R191). -/
def State.nCoded (s : State) : Nat := s.hlit.toNat + s.hdist.toNat

/-- `for k in 0..r-1: lens[idx + k] <- v`. -/
def fillLens : Nat → Nat → BitVec 4 → List (BitVec 4) → List (BitVec 4)
  | 0, _, _, lens => lens
  | r + 1, idx, v, lens => fillLens r (idx + 1) v (lens.set idx v)

/-- Write a run of `r` lengths `v` at `len_idx`, and go on with the next code-length symbol. -/
def writeRun (r : Nat) (v : BitVec 4) (s : State) : State :=
  { s with
    lens := fillLens r s.lenIdx.toNat v s.lens
    lenIdx := s.lenIdx + BitVec.ofNat 9 r
    fsm := .dynHdr .symbol }

/-- A repeat: the run's extra bits are read, then the overflow check is made, then the run is written (R196). -/
def repeatRun (base n : Nat) (v : BitVec 4) (s : State) : Result State :=
  (readBits n s).finish fun x s' =>
    if s'.lenIdx.toNat + (base + x) > s'.nCoded then
      .next (raise .malformedDynamicCodeTable (malformedInfo 2 s'.lenIdx) s')
    else .next (writeRun (base + x) v s')

/-- CL_LEN (R192). -/
def execClLen (v : BitVec 4) (s : State) : Result State := .next (writeRun 1 v s)

/-- CL_REP16 (R193): "checked before the extra bits". The previous length is `lens[len_idx - 1]` (R199). -/
def execClRep16 (s : State) : Result State :=
  if s.lenIdx = 0 then .next (raise .malformedDynamicCodeTable (malformedInfo 1 s.lenIdx) s)
  else repeatRun 3 2 (s.lens.getD (s.lenIdx.toNat - 1) 0) s

/-- CL_ZERO17 (R194). -/
def execClZero17 (s : State) : Result State := repeatRun 3 3 0 s

/-- CL_ZERO18 (R195). -/
def execClZero18 (s : State) : Result State := repeatRun 11 7 0 s

end Sys2Proof.Machine
end

