-- ==== Sys2Proof/Machine/WindowOp.lean ====
section
/-! DEFINITION. The Window Reconstructor's instructions (44_window.md R320 to R323). -/

namespace Sys2Proof.Machine

/-- `WINDOW(Literal(b))` (R320), then `k`, what its caller does next. -/
def windowLiteral (b : Byte) (k : State → State) (s : State) : Result State := put b k s

/-- `WINDOW(EndOfBlock)` (R321): no effect on the history or the output. -/
def windowEndOfBlock (s : State) : State := s

/-- `copy_rem <- L`, `goto COPY` (R322); `cur_len` and `cur_dist` hold the length and distance being copied (R39,
log 15). -/
def beginCopy (l d : Nat) (s : State) : State :=
  { s with
    curLen := BitVec.ofNat 9 l
    curDist := BitVec.ofNat 16 d
    copyRem := BitVec.ofNat 9 l
    fsm := .copy }

/-- `WINDOW(BackReference)` of length `l` and distance `d`, part 1 (R322): the distance check. -/
def windowBackref (l d : Nat) (s : State) : State :=
  if d > s.filled.toNat then raise .distanceTooFar (distanceInfo l d) s else beginCopy l d s

/-- Where the Block Decoder goes on after a `Literal` op: in a stored block its loop counts the byte (R181), else it
decodes the next data symbol (R231). -/
def literalReturn (s : State) : State :=
  match s.fsm with
  | .stored _ => { s with storedRem := s.storedRem - 1, fsm := .stored .data }
  | _ => { s with fsm := .huffSym .symbol }

/-- OP_LITERAL (R320). -/
def execOpLiteral (b : Byte) (s : State) : Result State := windowLiteral b literalReturn s

/-- OP_END_OF_BLOCK (R321): "it only ends the block, which the Block Decoder does by `goto BLOCK_END`". -/
def execOpEndOfBlock (s : State) : Result State :=
  .next { windowEndOfBlock s with fsm := .blockEnd }

/-- OP_BACKREF (R322). -/
def execOpBackref (l d : Nat) (s : State) : Result State := .next (windowBackref l d s)

end Sys2Proof.Machine
end

