-- ==== Sys2Proof/Machine/Distance.lean ====
section
/-! DEFINITION. The distance symbols (43_symbols.md R265 to R298). -/

namespace Sys2Proof.Machine

/-- `cur_dist <- distance`, then `BackReference` of `cur_len` and `cur_dist` is handed to the Window Reconstructor as an
op word (R298, R107, log 11). DESIGN CHOICE, unsafe: with `cur_len` outside 3..258, which R39 and R299 exclude, the word
holds `cur_len` less 3, not below 0 and modulo 256 (log 26). -/
def setDistance (distance : Nat) (s : State) : State :=
  let d := BitVec.ofNat 16 distance
  { s with curDist := d, fsm := .huffSym (.op (opBackrefWord s.curLen.toNat d.toNat)) }

/-- A distance symbol without extra bits: nothing is read (R134). -/
def distanceExact (distance : Nat) (s : State) : Result State := .next (setDistance distance s)

/-- A distance symbol with `n` extra bits: `cur_dist <- base + read_bits(n)`, then the back-reference (R265). -/
def distanceExtra (base n : Nat) (s : State) : Result State :=
  (readBits n s).finish fun x s' => .next (setDistance (base + x) s')

/-- The invalid distance symbols: raised with the symbol, before anything more is read (R376, log 14). -/
def invalidDistance (sym : BitVec 32) (s : State) : Result State := .next (raise .invalidDistanceSymbol sym s)

/-- DIST_0 (R266). -/
def execDist0 (s : State) : Result State := distanceExact 1 s

/-- DIST_1 (R267). -/
def execDist1 (s : State) : Result State := distanceExact 2 s

/-- DIST_2 (R268). -/
def execDist2 (s : State) : Result State := distanceExact 3 s

/-- DIST_3 (R269). -/
def execDist3 (s : State) : Result State := distanceExact 4 s

/-- DIST_4 (R270). -/
def execDist4 (s : State) : Result State := distanceExtra 5 1 s

/-- DIST_5 (R271). -/
def execDist5 (s : State) : Result State := distanceExtra 7 1 s

/-- DIST_6 (R272). -/
def execDist6 (s : State) : Result State := distanceExtra 9 2 s

/-- DIST_7 (R273). -/
def execDist7 (s : State) : Result State := distanceExtra 13 2 s

/-- DIST_8 (R274). -/
def execDist8 (s : State) : Result State := distanceExtra 17 3 s

/-- DIST_9 (R275). -/
def execDist9 (s : State) : Result State := distanceExtra 25 3 s

/-- DIST_10 (R276). -/
def execDist10 (s : State) : Result State := distanceExtra 33 4 s

/-- DIST_11 (R277). -/
def execDist11 (s : State) : Result State := distanceExtra 49 4 s

/-- DIST_12 (R278). -/
def execDist12 (s : State) : Result State := distanceExtra 65 5 s

/-- DIST_13 (R279). -/
def execDist13 (s : State) : Result State := distanceExtra 97 5 s

/-- DIST_14 (R280). -/
def execDist14 (s : State) : Result State := distanceExtra 129 6 s

/-- DIST_15 (R281). -/
def execDist15 (s : State) : Result State := distanceExtra 193 6 s

/-- DIST_16 (R282). -/
def execDist16 (s : State) : Result State := distanceExtra 257 7 s

/-- DIST_17 (R283). -/
def execDist17 (s : State) : Result State := distanceExtra 385 7 s

/-- DIST_18 (R284). -/
def execDist18 (s : State) : Result State := distanceExtra 513 8 s

/-- DIST_19 (R285). -/
def execDist19 (s : State) : Result State := distanceExtra 769 8 s

/-- DIST_20 (R286). -/
def execDist20 (s : State) : Result State := distanceExtra 1025 9 s

/-- DIST_21 (R287). -/
def execDist21 (s : State) : Result State := distanceExtra 1537 9 s

/-- DIST_22 (R288). -/
def execDist22 (s : State) : Result State := distanceExtra 2049 10 s

/-- DIST_23 (R289). -/
def execDist23 (s : State) : Result State := distanceExtra 3073 10 s

/-- DIST_24 (R290). -/
def execDist24 (s : State) : Result State := distanceExtra 4097 11 s

/-- DIST_25 (R291). -/
def execDist25 (s : State) : Result State := distanceExtra 6145 11 s

/-- DIST_26 (R292). -/
def execDist26 (s : State) : Result State := distanceExtra 8193 12 s

/-- DIST_27 (R293). -/
def execDist27 (s : State) : Result State := distanceExtra 12289 12 s

/-- DIST_28 (R294). -/
def execDist28 (s : State) : Result State := distanceExtra 16385 13 s

/-- DIST_29 (R295). -/
def execDist29 (s : State) : Result State := distanceExtra 24577 13 s

/-- DIST_30 (R296). -/
def execDist30 (s : State) : Result State := invalidDistance 30 s

/-- DIST_31 (R297). -/
def execDist31 (s : State) : Result State := invalidDistance 31 s

end Sys2Proof.Machine
end

