-- ==== Sys2Proof/Machine/LitLen.lean ====
section
/-! DEFINITION. The literal/length symbols (43_symbols.md R231 to R264). -/

namespace Sys2Proof.Machine

/-- LIT (R231): `WINDOW(Literal(b))`, then `goto HUFF_SYM`. -/
def execLit (b : Byte) (s : State) : Result State :=
  windowLiteral b (fun s => { s with fsm := .huffSym .symbol }) s

/-- EOB (R232): `WINDOW(EndOfBlock)`, then `goto BLOCK_END`. -/
def execEob (s : State) : Result State :=
  .next { windowEndOfBlock s with fsm := .blockEnd }

/-- `cur_len <- length`, then the distance (R233). -/
def setLength (length : Nat) (s : State) : State :=
  { s with curLen := BitVec.ofNat 9 length, fsm := .huffSym .dist }

/-- A length symbol without extra bits: nothing is read (R134). -/
def lengthExact (length : Nat) (s : State) : Result State := .next (setLength length s)

/-- A length symbol with `n` extra bits: `cur_len <- base + read_bits(n)`, then the distance (R233). -/
def lengthExtra (base n : Nat) (s : State) : Result State :=
  (readBits n s).finish fun x s' => .next (setLength (base + x) s')

/-- The invalid length symbols: raised with the symbol, before anything more is read (R375, log 14). -/
def invalidLength (sym : BitVec 32) (s : State) : Result State := .next (raise .invalidLengthSymbol sym s)

/-- LEN_257 (R234). -/
def execLen257 (s : State) : Result State := lengthExact 3 s

/-- LEN_258 (R235). -/
def execLen258 (s : State) : Result State := lengthExact 4 s

/-- LEN_259 (R236). -/
def execLen259 (s : State) : Result State := lengthExact 5 s

/-- LEN_260 (R237). -/
def execLen260 (s : State) : Result State := lengthExact 6 s

/-- LEN_261 (R238). -/
def execLen261 (s : State) : Result State := lengthExact 7 s

/-- LEN_262 (R239). -/
def execLen262 (s : State) : Result State := lengthExact 8 s

/-- LEN_263 (R240). -/
def execLen263 (s : State) : Result State := lengthExact 9 s

/-- LEN_264 (R241). -/
def execLen264 (s : State) : Result State := lengthExact 10 s

/-- LEN_265 (R242). -/
def execLen265 (s : State) : Result State := lengthExtra 11 1 s

/-- LEN_266 (R243). -/
def execLen266 (s : State) : Result State := lengthExtra 13 1 s

/-- LEN_267 (R244). -/
def execLen267 (s : State) : Result State := lengthExtra 15 1 s

/-- LEN_268 (R245). -/
def execLen268 (s : State) : Result State := lengthExtra 17 1 s

/-- LEN_269 (R246). -/
def execLen269 (s : State) : Result State := lengthExtra 19 2 s

/-- LEN_270 (R247). -/
def execLen270 (s : State) : Result State := lengthExtra 23 2 s

/-- LEN_271 (R248). -/
def execLen271 (s : State) : Result State := lengthExtra 27 2 s

/-- LEN_272 (R249). -/
def execLen272 (s : State) : Result State := lengthExtra 31 2 s

/-- LEN_273 (R250). -/
def execLen273 (s : State) : Result State := lengthExtra 35 3 s

/-- LEN_274 (R251). -/
def execLen274 (s : State) : Result State := lengthExtra 43 3 s

/-- LEN_275 (R252). -/
def execLen275 (s : State) : Result State := lengthExtra 51 3 s

/-- LEN_276 (R253). -/
def execLen276 (s : State) : Result State := lengthExtra 59 3 s

/-- LEN_277 (R254). -/
def execLen277 (s : State) : Result State := lengthExtra 67 4 s

/-- LEN_278 (R255). -/
def execLen278 (s : State) : Result State := lengthExtra 83 4 s

/-- LEN_279 (R256). -/
def execLen279 (s : State) : Result State := lengthExtra 99 4 s

/-- LEN_280 (R257). -/
def execLen280 (s : State) : Result State := lengthExtra 115 4 s

/-- LEN_281 (R258). -/
def execLen281 (s : State) : Result State := lengthExtra 131 5 s

/-- LEN_282 (R259). -/
def execLen282 (s : State) : Result State := lengthExtra 163 5 s

/-- LEN_283 (R260). -/
def execLen283 (s : State) : Result State := lengthExtra 195 5 s

/-- LEN_284 (R261). -/
def execLen284 (s : State) : Result State := lengthExtra 227 5 s

/-- LEN_285 (R262). -/
def execLen285 (s : State) : Result State := lengthExact 258 s

/-- LEN_286 (R263). -/
def execLen286 (s : State) : Result State := invalidLength 286 s

/-- LEN_287 (R264). -/
def execLen287 (s : State) : Result State := invalidLength 287 s

end Sys2Proof.Machine
end

