-- ==== Sys2Proof/Machine/Work.lean ====
section
/-! DEFINITION. What the core does between instructions: fetching the next instruction's word, the reads and loops of the
block state machine, the copy, `start` and `rst`. -/

namespace Sys2Proof.Machine

/-! ## Fetch -/

/-- The word of the instruction the core executes next, with its format; none where the core is at other work. -/
def fetch (s : State) : Option (Format × BitVec 25) :=
  match s.fsm with
  | .blockHdr .dispatch => some (.blockHdr, (blockHdrWord s.btype s.bfinal).setWidth 25)
  | .stored (.op w) => some (.windowOp, w)
  | .dynHdr (.execCl c) => some (.clSym, c.setWidth 25)
  | .huffSym .execSym => some (.litLenSym, s.curSym.setWidth 25)
  | .huffSym .execDist => some (.distSym, s.curDsym.setWidth 25)
  | .huffSym (.op w) => some (.windowOp, w)
  | _ => none

/-- Put an instruction's word where `fetch` reads it, the core being at no other work: no event pending, no read held. -/
def placeWord (f : Format) (w : BitVec 25) (s : State) : State :=
  let s := { s with start := false, rst := false, inReady := false, outValid := false }
  match f with
  | .blockHdr =>
    { s with bfinal := w.getLsbD 0, btype := w.extractLsb' 1 2, fsm := .blockHdr .dispatch }
  | .litLenSym => { s with curSym := w.setWidth 9, fsm := .huffSym .execSym }
  | .distSym => { s with curDsym := w.setWidth 5, fsm := .huffSym .execDist }
  | .clSym => { s with fsm := .dynHdr (.execCl (w.setWidth 5)) }
  | .windowOp => { s with fsm := .huffSym (.op w) }

/-! ## The work of each state, one line of its pseudocode a step -/

/-- `BLOCK_HDR` (R343), up to its dispatch. -/
def workBlockHdr (p : HdrPos) (s : State) : Result State :=
  match p with
  | .final => (readBit s).finish fun b s => .next { s with bfinal := b, fsm := .blockHdr .type }
  | .type =>
    (readBits 2 s).finish fun x s => .next { s with btype := BitVec.ofNat 2 x, fsm := .blockHdr .dispatch }
  | .dispatch => .next s

/-- `STORED_BLOCK` (R181), up to the op word of each data byte. -/
def workStored (p : StoredPos) (s : State) : Result State :=
  match p with
  | .align => .next { align s with fsm := .stored .lenLo }
  | .lenLo => (readRawByte s).finish fun lo s => .next { s with fsm := .stored (.lenHi lo) }
  | .lenHi lo =>
    (readRawByte s).finish fun hi s => .next { s with storedLen := hi ++ lo, fsm := .stored .nlenLo }
  | .nlenLo => (readRawByte s).finish fun lo s => .next { s with fsm := .stored (.nlenHi lo) }
  | .nlenHi lo =>
    (readRawByte s).finish fun hi s => .next { s with storedNlen := hi ++ lo, fsm := .stored .check }
  | .check =>
    if s.storedNlen ≠ s.storedLen ^^^ 0xFFFF then
      .next (raise .lengthComplementMismatch (complementInfo s.storedNlen s.storedLen) s)
    else .next { s with storedRem := s.storedLen, fsm := .stored .data }
  | .data =>
    if s.storedRem = 0 then .next { s with fsm := .blockEnd }
    else (readRawByte s).finish fun b s => .next { s with fsm := .stored (.op (opLiteralWord b)) }
  | .op _ => .next s

/-- The i-th code-length code length goes to code-length symbol `CL_ORDER[i]` (R189, R96). -/
def setClLen (i x : Nat) (s : State) : State :=
  { s with
    clLen := s.clLen.set (clOrder.getD i 0) (BitVec.ofNat 3 x)
    fsm := .dynHdr (.clLen (i + 1)) }

/-- The split (R197), a slot beyond the transmitted ones being 0. -/
def splitLens (s : State) : State :=
  { s with
    llLen := (List.range Config.nLitLen).map fun i => if i < s.hlit.toNat then s.lens.getD i 0 else 0
    dLen := (List.range Config.nDist).map fun i =>
      if i < s.hdist.toNat then s.lens.getD (s.hlit.toNat + i) 0 else 0 }

/-- `DYNAMIC_BLOCK` (R188 to R191, R197, R198), up to the execution of each code-length symbol. -/
def workDynHdr (p : DynPos) (s : State) : Result State :=
  match p with
  | .hlit => (readBits 5 s).finish fun x s => .next { s with hlit := hlitOf x, fsm := .dynHdr .hdist }
  | .hdist => (readBits 5 s).finish fun x s => .next { s with hdist := hdistOf x, fsm := .dynHdr .hclen }
  | .hclen =>
    (readBits 4 s).finish fun x s =>
      .next
        { s with
          hclen := hclenOf x
          clLen := List.replicate Config.nCodeLen 0
          fsm := .dynHdr (.clLen 0) }
  | .clLen i =>
    if i < s.hclen.toNat then (readBits 3 s).finish fun x s => .next (setClLen i x s)
    else .next { s with lenIdx := 0, fsm := .dynHdr .symbol }
  | .symbol =>
    if s.lenIdx.toNat < s.nCoded then
      (decodeSymbol s.clTable Config.maxBitsCL alphCodeLen s).finish fun c s =>
        .next { s with fsm := .dynHdr (.execCl (BitVec.ofNat 5 c)) }
    else .next { s with fsm := .dynHdr .split }
  | .execCl _ => .next s
  | .split => .next { splitLens s with tsel := true, fsm := .huffSym .symbol }

/-- `HUFF_SYM` (R230, R265), up to the execution of each symbol. -/
def workHuffSym (p : HuffPos) (s : State) : Result State :=
  match p with
  | .symbol =>
    (decodeSymbol s.llTable Config.maxBitsLL alphLitLen s).finish fun sym s =>
      .next { s with curSym := BitVec.ofNat 9 sym, fsm := .huffSym .execSym }
  | .execSym => .next s
  | .dist =>
    (decodeSymbol s.dTable Config.maxBitsD alphDist s).finish fun d s =>
      .next { s with curDsym := BitVec.ofNat 5 d, fsm := .huffSym .execDist }
  | .execDist => .next s
  | .op _ => .next s

/-- The last line of the copy loop, and `goto HUFF_SYM` when it was the last byte (R323). -/
def copyReturn (s : State) : State :=
  { s with
    copyRem := s.copyRem - 1
    fsm := if s.copyRem = 1 then .huffSym .symbol else .copy }

/-- One byte of `COPY` (R323). -/
def workCopy (s : State) : Result State :=
  if s.copyRem = 0 then .next { s with fsm := .huffSym .symbol }
  else
    match s.hist.read (s.histIndex s.curDist.toNat) with
    | some b => put b copyReturn s
    | none => .fault (.historyUnwritten (s.histIndex s.curDist.toNat))

/-- `BLOCK_END` (R349). -/
def workBlockEnd (s : State) : Result State :=
  .next { s with fsm := if s.bfinal then .done else .blockHdr .final }

/-- The work of a state at a position where no instruction is fetched. IDLE, DONE and ERROR wait (R341, R350, R383). -/
def work (s : State) : Result State :=
  match s.fsm with
  | .idle => .next s
  | .blockHdr p => workBlockHdr p s
  | .stored p => workStored p s
  | .dynHdr p => workDynHdr p s
  | .huffSym p => workHuffSym p s
  | .copy => workCopy s
  | .blockEnd => workBlockEnd s
  | .done => .next s
  | .error => .next s

/-! ## `start` and `rst` -/

/-- `START` (R342): every element takes its "start" value of R51; those R51 leaves unspecified take free values (log 5);
`hist` is unchanged. The host's pins keep their levels, the event is taken, and the output and the input cursor are those
of the new stream (log 8). -/
def startStream (s : State) : State :=
  { State.reset with
    fsm := .blockHdr .final
    wlog2 := s.cfgWlog2
    hlit := Config.freeHlit s.freeCtr
    hdist := Config.freeHdist s.freeCtr
    hclen := Config.freeHclen s.freeCtr
    clLen := (List.range Config.nCodeLen).map (Config.freeClLen s.freeCtr)
    lens := (List.range Config.nLens).map (Config.freeLens s.freeCtr)
    llLen := (List.range Config.nLitLen).map (Config.freeLlLen s.freeCtr)
    dLen := (List.range Config.nDist).map (Config.freeDLen s.freeCtr)
    freeCtr := s.freeCtr + 1
    hist := s.hist
    input := s.input
    inEnd := s.inEnd
    outReady := s.outReady
    cfgWlog2 := s.cfgWlog2 }

/-- `rst` (R400, R401): every element takes its reset value. The host's pins keep their levels, the presented byte is not
taken, and the bytes already accepted stay with the host. A `start` at the same moment is lost (log 7). A byte on `out_data`
is withdrawn even if `out_ready` is 1 at that moment (log 25). -/
def resetCore (s : State) : State :=
  { State.reset with
    input := s.input
    inEnd := s.inEnd
    outReady := s.outReady
    cfgWlog2 := s.cfgWlog2
    output := s.output
    freeCtr := s.freeCtr }

/-- Take the event `start` without acting on it (R354). -/
def dropStart (s : State) : State := { s with start := false }

end Sys2Proof.Machine
end

