-- ==== Sys2Proof/Machine/Step.lean ====
section
/-! DEFINITION. One step of the core. -/

namespace Sys2Proof.Machine

/-- Run the instruction at hand, or the work between instructions. -/
def run (s : State) : Host.Outcome State Fault Refusal :=
  match fetch s with
  | some (f, w) =>
    match decode f w with
    | .ok i => exec i s
    | .error e => .refused (.undecodable e)
  | none => work s

/-- One step: `rst` in any state (R400); `start` in IDLE, DONE and ERROR (R342), ignored while busy (R354); else the core
runs. DESIGN CHOICE, unsafe: with `rst` pending a `start` at the same moment is lost (log 7), and a byte that would transfer
at the same moment, in or out, does not (log 25). -/
def step (s : State) : Host.Outcome State Fault Refusal :=
  if s.rst then .next (resetCore s)
  else if s.start then
    if s.busy then run (dropStart s) else .next (startStream s)
  else run s

/-- `s` with an opcode-table word where `fetch` finds it, so that the very next step runs it (log 6). A number the decoder
rejects is placed too, and the next step refuses it. -/
def State.withFetchWord (s : State) (nbits w : Nat) : State :=
  placeWord (tableFormat nbits w) (BitVec.ofNat 25 w) s

end Sys2Proof.Machine
end

