-- ==== Sys2Proof/Machine/Stream.lean ====
section
/-! DEFINITION. The stream as bits, the vocabulary of statements: what is still unread, the value of a field, the value of
a codeword, and the shortest codeword that begins a bit sequence. -/

namespace Sys2Proof.Machine

/-- The bits of a byte in the order they are delivered, least significant first (R68). -/
def byteBits (b : Byte) : List Bool := (List.range 8).map b.getLsbD

/-- The bits of `bitbuf` still to be delivered, next first (R29, R30). -/
def State.bufferedBits (s : State) : List Bool := (List.range s.bitcnt.toNat).map s.bitbuf.getLsbD

/-- Every bit the core can still read before the host presents more, next first. -/
def State.unread (s : State) : List Bool := s.bufferedBits ++ s.input.flatMap byteBits

/-- The value of a field: the first bit read is the least significant (R69). -/
def fieldValue : List Bool → Nat
  | [] => 0
  | b :: bs => b.toNat + 2 * fieldValue bs

/-- The value of codeword bits after `v`: the first bit read is the most significant (R70). -/
def codeValue (v : Nat) (bits : List Bool) : Nat := bits.foldl (fun v b => 2 * v + b.toNat) v

/-- The bits of a codeword of `len` bits in stream order (R70). -/
def codeBits (v len : Nat) : List Bool := (List.range len).map fun i => v.testBit (len - 1 - i)

/-- The codeword of `n` bits that begins `bits`, if the table has it. -/
def Table.matchAt (t : Table) (bits : List Bool) (n : Nat) : Option Nat := t.inv (codeValue 0 (bits.take n)) n

/-- No shorter codeword than one of `n` bits begins `bits`. -/
def Table.noMatchBelow (t : Table) (bits : List Bool) (n : Nat) : Prop :=
  ∀ m, 1 ≤ m → m < n → t.matchAt bits m = none

/-- A code-length array that is not over-subscribed: it holds no "more codewords than a prefix code of those lengths can
hold" (R157), every length being at most `maxBits`. -/
def legalLengths (lens : List Nat) (maxBits : Nat) : Prop :=
  (∀ l ∈ lens, l ≤ maxBits) ∧
    ((List.range (maxBits + 1)).map fun l => lenCount lens l * 2 ^ (maxBits - l)).sum ≤ 2 ^ maxBits

/-- The host presents more bytes after those it already presents. -/
def State.offer (s : State) (bytes : List Byte) : State := { s with input := s.input ++ bytes }

/-- The host accepts output bytes. -/
def State.accept (s : State) : State := { s with outReady := true }

end Sys2Proof.Machine
end

