-- ==== Sys2Proof/Safety.lean ====
section
/-! DEFINITION. What a safe run is: the invariant of the machine (R139, R325, R326, R353), and the transitions R340 allows. -/

namespace Sys2Proof.Machine

/-- The core stands where it reads input, so `ReadByte()` may be what it is held in. -/
def State.reading (s : State) : Bool :=
  match s.fsm with
  | .blockHdr .final => true
  | .blockHdr .type => true
  | .stored .lenLo => true
  | .stored (.lenHi _) => true
  | .stored .nlenLo => true
  | .stored (.nlenHi _) => true
  | .stored .data => decide (s.storedRem ≠ 0)
  | .dynHdr .hlit => true
  | .dynHdr .hdist => true
  | .dynHdr .hclen => true
  | .dynHdr (.clLen i) => decide (i < s.hclen.toNat)
  | .dynHdr .symbol => decide (s.lenIdx.toNat < s.nCoded)
  | .dynHdr (.execCl c) => decide (17 ≤ c.toNat ∨ c.toNat = 16 ∧ s.lenIdx ≠ 0)
  | .huffSym .symbol => true
  | .huffSym .execSym => decide (265 ≤ s.curSym.toNat ∧ s.curSym.toNat ≤ 284)
  | .huffSym .dist => true
  | .huffSym .execDist => decide (4 ≤ s.curDsym.toNat ∧ s.curDsym.toNat ≤ 29)
  | _ => false

/-- The core stands where it emits a byte, so `Emit(b)` may be what it is held in. -/
def State.emitting (s : State) : Bool :=
  match s.fsm with
  | .stored (.op w) => decide (w.extractLsb' 0 2 = 0)
  | .huffSym .execSym => decide (s.curSym.toNat < 256)
  | .huffSym (.op w) => decide (w.extractLsb' 0 2 = 0)
  | .copy => decide (s.copyRem ≠ 0)
  | _ => false

/-- What holds at each position: the ranges of R34, R36 and R39, the words that can stand for execution, and the
invariants (2) and (3) of R353. -/
def State.positionOk (s : State) : Prop :=
  match s.fsm with
  | .stored .data => s.storedRem.toNat ≤ s.storedLen.toNat
  | .stored (.op w) => w.extractLsb' 0 2 = 0 ∧ s.storedRem ≠ 0 ∧ s.storedRem.toNat ≤ s.storedLen.toNat
  | .dynHdr .hdist => 257 ≤ s.hlit.toNat ∧ s.hlit.toNat ≤ 288
  | .dynHdr .hclen => 257 ≤ s.hlit.toNat ∧ s.hlit.toNat ≤ 288 ∧ 1 ≤ s.hdist.toNat ∧ s.hdist.toNat ≤ 32
  | .dynHdr (.clLen i) =>
    257 ≤ s.hlit.toNat ∧ s.hlit.toNat ≤ 288 ∧ 1 ≤ s.hdist.toNat ∧ s.hdist.toNat ≤ 32 ∧
      4 ≤ s.hclen.toNat ∧ s.hclen.toNat ≤ 19 ∧ i ≤ s.hclen.toNat
  | .dynHdr .symbol =>
    257 ≤ s.hlit.toNat ∧ s.hlit.toNat ≤ 288 ∧ 1 ≤ s.hdist.toNat ∧ s.hdist.toNat ≤ 32 ∧ s.lenIdx.toNat ≤ s.nCoded
  | .dynHdr (.execCl c) =>
    257 ≤ s.hlit.toNat ∧ s.hlit.toNat ≤ 288 ∧ 1 ≤ s.hdist.toNat ∧ s.hdist.toNat ≤ 32 ∧
      s.lenIdx.toNat < s.nCoded ∧ c.toNat ≤ 18
  | .dynHdr .split => 257 ≤ s.hlit.toNat ∧ s.hlit.toNat ≤ 288 ∧ 1 ≤ s.hdist.toNat ∧ s.hdist.toNat ≤ 32
  | .huffSym .execSym => s.curSym.toNat ≤ 287
  | .huffSym .dist => 3 ≤ s.curLen.toNat ∧ s.curLen.toNat ≤ 258
  | .huffSym .execDist => 3 ≤ s.curLen.toNat ∧ s.curLen.toNat ≤ 258
  | .huffSym (.op w) => w.extractLsb' 0 2 ≠ 3
  | .copy =>
    1 ≤ s.curDist.toNat ∧ s.curDist.toNat ≤ s.filled.toNat ∧ 1 ≤ s.copyRem.toNat ∧ s.copyRem.toNat ≤ 258
  | _ => True

/-- The invariant of the machine. -/
structure State.Inv (s : State) : Prop where
  /-- The history keeps its canonical form. -/
  histWf : s.hist.wf = true
  /-- The arrays have their sizes (R35 to R37). -/
  sizes : s.clLen.length = 19 ∧ s.lens.length = 320 ∧ s.llLen.length = 288 ∧ s.dLen.length = 32
  /-- `bitcnt` and `bitbuf` (R139). -/
  bits : s.bitcnt.toNat ≤ 8 ∧ s.bitbuf.toNat < 2 ^ s.bitcnt.toNat
  /-- `wp` and `filled` (R353 (5)). -/
  window : s.wp.toNat < s.windowSize ∧ s.filled.toNat ≤ s.windowSize
  /-- `filled` counts the emitted bytes, saturating (R325); in IDLE nothing is kept. -/
  filledIs : s.filled.toNat = if s.fsm = .idle then 0 else min s.output.length s.windowSize
  /-- The byte `k` back in the history is the byte `k` back in the output (R326, R329). While an `Emit` is held and the
  window is full, the oldest byte is the one being replaced. -/
  history : ∀ k, 1 ≤ k → k ≤ s.filled.toNat → (s.outValid = true → k < s.windowSize) →
    s.hist.read (s.histIndex k) = s.output[s.output.length - k]?
  /-- `in_ready` and `out_valid` are high only inside their primitives (R21, R23), never together (R417); a byte whose
  `Emit` is held is in the history at `wp` (R324), and in a copy it is the byte `cur_dist` back in the output (R323). -/
  ports : (s.inReady = true → s.reading = true) ∧ (s.outValid = true → s.emitting = true) ∧
    (s.outValid = true → s.hist.read s.wp.toNat = some s.outData) ∧
    (s.outValid = true → s.fsm = .copy → s.output[s.output.length - s.curDist.toNat]? = some s.outData)
  /-- `err_code` is 0..8, and 0 exactly outside ERROR (R46, R371). -/
  status : s.errCode.toNat ≤ 8 ∧ (s.errCode ≠ 0 ↔ s.fsm = .error)
  /-- The position. -/
  position : s.positionOk

/-- A safe run: the machine neither faults nor is refused. -/
def State.safeStep (s : State) : Prop := ∃ t, step s = .next t

/-- The transitions of R340 that the core makes on its own, without `start` and `rst`. A step may also stay in its
state. -/
def allowedTransition : FsmName → FsmName → Bool
  | .blockHdr, .stored => true
  | .blockHdr, .huffSym => true
  | .blockHdr, .dynHdr => true
  | .blockHdr, .error => true
  | .stored, .blockEnd => true
  | .stored, .error => true
  | .dynHdr, .huffSym => true
  | .dynHdr, .error => true
  | .huffSym, .blockEnd => true
  | .huffSym, .copy => true
  | .huffSym, .error => true
  | .copy, .huffSym => true
  | .blockEnd, .blockHdr => true
  | .blockEnd, .done => true
  | _, _ => false

end Sys2Proof.Machine
end

