-- ==== Sys2Proof/Certificates/Slice0/Obligations.lean ====
section
/-! DEFINITION. The statements for the provers. -/

open Sys2Proof Sys2Proof.Machine

/-! ## Encoding -/

/-- Words written out from the tables of 30_encoding.md decode to the instructions they stand for: header bits `1 1 0`
(BFINAL 1, BTYPE 1) and `1 1 1`, symbols 0x61, 256, 285, 286 and 300, distance symbols 29 and 30, code-length symbols
8, 16 and 19, and the op words of 95_test_vectors.md section 2.5. That BTYPE 1 is the fixed kind is general knowledge by
R92's own words (log 12, PRESUMED); that a word which is no instruction is rejected by name is the model's choice (log 20). -/
def Obligations.SpecWordsDecode : Prop :=
  decode .blockHdr 0b011 = .ok (.blockFixed true) ∧ decode .blockHdr 0b111 = .ok (.blockReserved true) ∧
  decode .litLenSym 0x61 = .ok (.lit 0x61) ∧ decode .litLenSym 256 = .ok .eob ∧
  decode .litLenSym 285 = .ok .len285 ∧ decode .litLenSym 286 = .ok .len286 ∧
  decode .litLenSym 300 = .error .noSuchLitLenSymbol ∧
  decode .distSym 29 = .ok .dist29 ∧ decode .distSym 30 = .ok .dist30 ∧
  decode .clSym 8 = .ok (.clLen 8) ∧ decode .clSym 16 = .ok .clRep16 ∧
  decode .clSym 19 = .error .noSuchCodeLenSymbol ∧
  decode .windowOp 0x184 = .ok (.opLiteral 0x61) ∧ decode .windowOp 0x1 = .ok .opEndOfBlock ∧
  decode .windowOp 0x2 = .ok (.opBackref 3 1) ∧ decode .windowOp 0x16 = .ok (.opBackref 8 1) ∧
  decode .windowOp 0x1FFFFFE = .ok (.opBackref 258 32768) ∧ decode .windowOp 0x3 = .error .reservedOpTag

/-- Every well-formed instruction is decoded from its own word, with every operand at every value. -/
def Obligations.DecodeOfEncode : Prop :=
  ∀ i : Instr, i.wellFormed = true → decode (encode i).1 (encode i).2 = .ok i

/-- In the four formats of the stream each word has one meaning: an instruction decoded from a word encodes to it. -/
def Obligations.EncodeOfDecode : Prop :=
  ∀ (f : Format) (w : BitVec 25) (i : Instr), f ≠ .windowOp → w.toNat < 2 ^ f.width → decode f w = .ok i →
    encode i = (f, w)

/-- The words no instruction has are exactly the literal/length symbols above 287, the code-length symbols above 18, and
the op words with tag `11`; and whatever decodes is well formed. That an op word with nonzero bits its tag does not use is
not rejected is the model's choice (log 10), and so is rejecting by name (log 20). -/
def Obligations.RejectedWords : Prop :=
  ∀ (f : Format) (w : BitVec 25), w.toNat < 2 ^ f.width →
    ((∃ e, decode f w = .error e) ↔
      (f = .litLenSym ∧ 287 < w.toNat) ∨ (f = .clSym ∧ 18 < w.toNat) ∨ (f = .windowOp ∧ w.toNat % 4 = 3)) ∧
    (∀ i, decode f w = .ok i → i.wellFormed = true)

/-! ## Step and exec -/

/-- When no event is pending, a step at a position where an instruction stands runs exactly that instruction: the block
header in `btype` and `bfinal`, the literal/length symbol in `cur_sym`, the distance symbol in `cur_dsym`, the code-length
symbol just decoded, and the op word handed to the Window Reconstructor from a stored block or from a symbol. -/
def Obligations.StepRunsDecoded : Prop :=
  ∀ (s : State) (i : Instr), s.rst = false → s.start = false →
    (s.fsm = .blockHdr .dispatch → decodeBlockHdr (s.btype ++ BitVec.ofBool s.bfinal) = .ok i → step s = exec i s) ∧
    (s.fsm = .huffSym .execSym → decodeLitLen s.curSym = .ok i → step s = exec i s) ∧
    (s.fsm = .huffSym .execDist → decodeDist s.curDsym = .ok i → step s = exec i s) ∧
    (∀ c, s.fsm = .dynHdr (.execCl c) → decodeCodeLen c = .ok i → step s = exec i s) ∧
    (∀ w, s.fsm = .stored (.op w) → decodeOp w = .ok i → step s = exec i s) ∧
    (∀ w, s.fsm = .huffSym (.op w) → decodeOp w = .ok i → step s = exec i s)

/-- A word of the opcode table placed for the fetch is what the very next step runs, whatever the state was. -/
def Obligations.PlacedWordRuns : Prop :=
  ∀ (s : State) (nbits w : Nat) (i : Instr), decodeTableWord nbits w = some i →
    step (s.withFetchWord nbits w) = exec i (s.withFetchWord nbits w)

/-! ## The Canonical Huffman Table -/

/-- A symbol of nonzero length `l` has the codeword that `next[l]` starts with, counted on by the earlier symbols of the
same length; a symbol of length 0 has none. -/
def Obligations.CanonicalCodewords : Prop :=
  ∀ (lens : List Nat) (maxBits s : Nat), (∀ l ∈ lens, l ≤ maxBits) → s < lens.length →
    (buildTable lens maxBits).fwd s =
      if lens.getD s 0 = 0 then none
      else some (firstCode lens (lens.getD s 0) + (lens.take s).count (lens.getD s 0), lens.getD s 0)

/-- The inverse mapping takes exactly the codeword of a symbol to that symbol: no key is assigned twice. -/
def Obligations.InverseOfForward : Prop :=
  ∀ (lens : List Nat) (maxBits s bits n : Nat), (∀ l ∈ lens, l ≤ maxBits) →
    ((buildTable lens maxBits).inv bits n = some s ↔ (buildTable lens maxBits).fwd s = some (bits, n))

/-- For a legal length array every codeword fits its length, no codeword is a prefix of another's, and codes of equal length
increase strictly in assigned order; and the source's example `[3,3,3,3,3,2,4,4]` has exactly its codewords. -/
def Obligations.LegalTablesPrefixFree : Prop :=
  (∀ (lens : List Nat) (maxBits : Nat), legalLengths lens maxBits →
    (∀ e ∈ buildTable lens maxBits, e.bits < 2 ^ e.len) ∧
    (∀ e ∈ buildTable lens maxBits, ∀ e' ∈ buildTable lens maxBits,
      codeBits e.bits e.len <+: codeBits e'.bits e'.len → e = e') ∧
    (∀ e ∈ buildTable lens maxBits, ∀ e' ∈ buildTable lens maxBits,
      e.len = e'.len → e.sym < e'.sym → e.bits < e'.bits)) ∧
  (List.range 8).map (buildTable [3, 3, 3, 3, 3, 2, 4, 4] 15).fwd =
    [some (0b010, 3), some (0b011, 3), some (0b100, 3), some (0b101, 3), some (0b110, 3), some (0b00, 2),
      some (0b1110, 4), some (0b1111, 4)]

/-- For every MAXBITS up to 15 and at most 288 lengths of at most MAXBITS (so for all three alphabets), every `next[L]`, as
it starts and as it ends, and every codeword is at most `288 << 14`, so below 2^23, and every count is at most 288;
`288 << 14` is reached when all 288 lengths are 1. -/
def Obligations.CodewordWidths : Prop :=
  (∀ (lens : List Nat) (maxBits : Nat), maxBits ≤ 15 → lens.length ≤ 288 → (∀ l ∈ lens, l ≤ maxBits) →
    (∀ l ≤ maxBits, lenCount lens l ≤ 288 ∧ firstCode lens l + lenCount lens l ≤ 288 <<< 14) ∧
    (∀ e ∈ buildTable lens maxBits, e.bits < 288 <<< 14)) ∧
  288 <<< 14 < 2 ^ 23 ∧ firstCode (List.replicate 288 1) 15 = 288 <<< 14

/-- The fixed codewords, literal/length and distance, by their formulas, which the spec derives from BUILD_TABLE. -/
def Obligations.FixedCodewords : Prop :=
  (∀ s < 144, fixedLLTable.fwd s = some (0x30 + s, 8)) ∧
  (∀ s < 112, fixedLLTable.fwd (144 + s) = some (0x190 + s, 9)) ∧
  (∀ s < 24, fixedLLTable.fwd (256 + s) = some (s, 7)) ∧
  (∀ s < 8, fixedLLTable.fwd (280 + s) = some (0xC0 + s, 8)) ∧
  (∀ d < 32, fixedDTable.fwd d = some (d, 5))

/-- In a fixed block a decode that has its bits always succeeds: the literal/length decode within 9 bits, the distance
decode in exactly 5, and the distance symbol is the value of those 5 bits. -/
def Obligations.FixedTablesComplete : Prop :=
  ∀ s : State, s.rst = false → s.start = false → s.inReady = false → s.tsel = false →
    (s.fsm = .huffSym .symbol → 9 ≤ s.unread.length →
      ∃ t n, step s = .next t ∧ t.fsm = .huffSym .execSym ∧ t.curSym.toNat < 288 ∧ 7 ≤ n ∧ n ≤ 9 ∧
        t.unread = s.unread.drop n) ∧
    (s.fsm = .huffSym .dist → 5 ≤ s.unread.length →
      ∃ t, step s = .next t ∧ t.fsm = .huffSym .execDist ∧ t.curDsym.toNat = codeValue 0 (s.unread.take 5) ∧
        t.unread = s.unread.drop 5)

/-! ## Decoding a symbol -/

/-- A decode from its beginning whose bits begin with a codeword of `n` bits, and with no shorter one, delivers that
codeword's symbol, consumes exactly the `n` bits, and changes nothing but the symbol register, the position, the walk
registers and the Bit Source. Stated of the three decodes: literal/length, distance, code length. -/
def Obligations.DecodeConsumesCodeword : Prop :=
  ∀ (s : State) (n sym : Nat), s.rst = false → s.start = false → s.inReady = false → 1 ≤ n → n ≤ s.unread.length →
    (s.fsm = .huffSym .symbol → n ≤ 15 → s.llTable.noMatchBelow s.unread n → s.llTable.matchAt s.unread n = some sym →
      ∃ t, step s = .next t ∧ t.curSym = BitVec.ofNat 9 sym ∧ t.fsm = .huffSym .execSym ∧
        t.unread = s.unread.drop n ∧
        t = { s with curSym := t.curSym, fsm := t.fsm, walkBits := t.walkBits, walkLen := t.walkLen
                     bitbuf := t.bitbuf, bitcnt := t.bitcnt, input := t.input, cursor := t.cursor }) ∧
    (s.fsm = .huffSym .dist → n ≤ 15 → s.dTable.noMatchBelow s.unread n → s.dTable.matchAt s.unread n = some sym →
      ∃ t, step s = .next t ∧ t.curDsym = BitVec.ofNat 5 sym ∧ t.fsm = .huffSym .execDist ∧
        t.unread = s.unread.drop n ∧
        t = { s with curDsym := t.curDsym, fsm := t.fsm, walkBits := t.walkBits, walkLen := t.walkLen
                     bitbuf := t.bitbuf, bitcnt := t.bitcnt, input := t.input, cursor := t.cursor }) ∧
    (s.fsm = .dynHdr .symbol → s.lenIdx.toNat < s.nCoded → n ≤ 7 → s.clTable.noMatchBelow s.unread n →
      s.clTable.matchAt s.unread n = some sym →
      ∃ t, step s = .next t ∧ t.fsm = .dynHdr (.execCl (BitVec.ofNat 5 sym)) ∧ t.unread = s.unread.drop n ∧
        t = { s with fsm := t.fsm, walkBits := t.walkBits, walkLen := t.walkLen
                     bitbuf := t.bitbuf, bitcnt := t.bitcnt, input := t.input, cursor := t.cursor })

/-- A decode from its beginning that finds no codeword within the alphabet's longest length raises INVALID_CODE with the
alphabet's id, having consumed exactly that many bits. -/
def Obligations.DecodeWithoutCodeword : Prop :=
  ∀ s : State, s.rst = false → s.start = false → s.inReady = false →
    (s.fsm = .huffSym .symbol → 15 ≤ s.unread.length → s.llTable.noMatchBelow s.unread 16 →
      ∃ t, step s = .next t ∧ t.fsm = .error ∧ t.errCode = 7 ∧ t.errInfo = 0 ∧ t.unread = s.unread.drop 15) ∧
    (s.fsm = .huffSym .dist → 15 ≤ s.unread.length → s.dTable.noMatchBelow s.unread 16 →
      ∃ t, step s = .next t ∧ t.fsm = .error ∧ t.errCode = 7 ∧ t.errInfo = 1 ∧ t.unread = s.unread.drop 15) ∧
    (s.fsm = .dynHdr .symbol → s.lenIdx.toNat < s.nCoded → 7 ≤ s.unread.length → s.clTable.noMatchBelow s.unread 8 →
      ∃ t, step s = .next t ∧ t.fsm = .error ∧ t.errCode = 7 ∧ t.errInfo = 2 ∧ t.unread = s.unread.drop 7)

/-- Encode and decode agree on the bits of the stream, in each of the three alphabets: where the lengths of a dynamic block's
literal/length, distance or code-length table are legal, the codeword of any symbol of the table, whatever follows it, is
decoded to that symbol, and exactly its bits are consumed. -/
def Obligations.LegalTableRoundTrip : Prop :=
  ∀ (s : State) (sym v n : Nat) (rest : List Bool), s.rst = false → s.start = false → s.inReady = false →
    s.unread = codeBits v n ++ rest →
    (s.fsm = .huffSym .symbol → s.tsel = true → s.llLen.length = 288 → legalLengths (s.llLen.map BitVec.toNat) 15 →
      s.llTable.fwd sym = some (v, n) →
      ∃ t, step s = .next t ∧ t.curSym.toNat = sym ∧ t.fsm = .huffSym .execSym ∧ t.unread = rest) ∧
    (s.fsm = .huffSym .dist → s.tsel = true → s.dLen.length = 32 → legalLengths (s.dLen.map BitVec.toNat) 15 →
      s.dTable.fwd sym = some (v, n) →
      ∃ t, step s = .next t ∧ t.curDsym.toNat = sym ∧ t.fsm = .huffSym .execDist ∧ t.unread = rest) ∧
    (s.fsm = .dynHdr .symbol → s.lenIdx.toNat < s.nCoded → s.clLen.length = 19 →
      legalLengths (s.clLen.map BitVec.toNat) 7 → s.clTable.fwd sym = some (v, n) →
      ∃ t c, step s = .next t ∧ t.fsm = .dynHdr (.execCl c) ∧ c.toNat = sym ∧ t.unread = rest)

/-- A dynamic distance table with no codeword at all: its first decode reads 15 bits and raises INVALID_CODE(1). -/
def Obligations.EmptyDistanceTable : Prop :=
  ∀ s : State, s.rst = false → s.start = false → s.inReady = false → s.fsm = .huffSym .dist → s.tsel = true →
    s.dLen = List.replicate 32 0 → 15 ≤ s.unread.length →
    ∃ t, step s = .next t ∧ t.fsm = .error ∧ t.errCode = 7 ∧ t.errInfo = 1 ∧ t.unread = s.unread.drop 15

/-! ## Block headers -/

/-- The header's bits: BFINAL is the next bit; BTYPE is the next two, the first of them BTYPE[0]. Nothing else changes but
the position, the field registers and the Bit Source. -/
def Obligations.HeaderBits : Prop :=
  ∀ (s : State) (b b' : Bool) (rest : List Bool), s.rst = false → s.start = false → s.inReady = false →
    (s.fsm = .blockHdr .final → s.unread = b :: rest →
      ∃ t, step s = .next t ∧ t.bfinal = b ∧ t.fsm = .blockHdr .type ∧ t.unread = rest ∧
        t = { s with bfinal := b, fsm := t.fsm
                     bitbuf := t.bitbuf, bitcnt := t.bitcnt, input := t.input, cursor := t.cursor }) ∧
    (s.fsm = .blockHdr .type → s.unread = b :: b' :: rest →
      ∃ t, step s = .next t ∧ t.btype = BitVec.ofBool b' ++ BitVec.ofBool b ∧ t.fsm = .blockHdr .dispatch ∧
        t.unread = rest ∧
        t = { s with btype := t.btype, fsm := t.fsm, fldAcc := t.fldAcc, fldCnt := t.fldCnt
                     bitbuf := t.bitbuf, bitcnt := t.bitcnt, input := t.input, cursor := t.cursor })

/-- BLOCK_STORED, BLOCK_FIXED, BLOCK_DYNAMIC and BLOCK_RESERVED: each writes `bfinal` and `btype` and goes where the kind
says; the fixed block selects the fixed tables; the reserved one raises RESERVED_BLOCK_TYPE(3). The whole next state is
given, so nothing else changes. The BTYPE values 0, 1 and 2 of the first three kinds are general knowledge by R92's own
words (log 12, PRESUMED); that the instruction writes `bfinal` and `btype` is log 16. -/
def Obligations.BlockHeaders : Prop :=
  ∀ (s : State) (final : Bool),
    exec (.blockStored final) s = .next { s with bfinal := final, btype := 0, fsm := .stored .align } ∧
    exec (.blockFixed final) s =
      .next { s with bfinal := final, btype := 1, tsel := false, fsm := .huffSym .symbol } ∧
    exec (.blockDynamic final) s = .next { s with bfinal := final, btype := 2, fsm := .dynHdr .hlit } ∧
    exec (.blockReserved final) s =
      .next { s with bfinal := final, btype := 3, errCode := 2, errInfo := 3, inReady := false, outValid := false
                     fsm := .error }

/-- BLOCK_END tests BFINAL: DONE after the last block, else the next header. Nothing else changes. -/
def Obligations.BlockEndTestsFinal : Prop :=
  ∀ s : State, s.rst = false → s.start = false → s.fsm = .blockEnd →
    (s.bfinal = true → step s = .next { s with fsm := .done }) ∧
    (s.bfinal = false → step s = .next { s with fsm := .blockHdr .final })

/-! ## Stored blocks -/

/-- Entering a stored block discards the partial byte; LEN and then NLEN are read as whole bytes, low byte first. -/
def Obligations.StoredLengthBytes : Prop :=
  ∀ (s : State) (lo b : Byte) (rest : List Byte), s.rst = false → s.start = false →
    (s.fsm = .stored .align → step s = .next { s with bitbuf := 0, bitcnt := 0, fsm := .stored .lenLo }) ∧
    (s.fsm = .stored .lenLo → s.input = b :: rest →
      step s = .next { s with input := rest, cursor := s.cursor + 1, inReady := false, fsm := .stored (.lenHi b) }) ∧
    (s.fsm = .stored (.lenHi lo) → s.input = b :: rest →
      step s = .next { s with input := rest, cursor := s.cursor + 1, inReady := false
                              storedLen := b ++ lo, fsm := .stored .nlenLo }) ∧
    (s.fsm = .stored .nlenLo → s.input = b :: rest →
      step s = .next { s with input := rest, cursor := s.cursor + 1, inReady := false, fsm := .stored (.nlenHi b) }) ∧
    (s.fsm = .stored (.nlenHi lo) → s.input = b :: rest →
      step s = .next { s with input := rest, cursor := s.cursor + 1, inReady := false
                              storedNlen := b ++ lo, fsm := .stored .check })

/-- The complement check: LENGTH_COMPLEMENT_MISMATCH with `{NLEN, LEN}` unless NLEN is the 16-bit complement of LEN; it
reads and emits nothing. -/
def Obligations.StoredComplementCheck : Prop :=
  ∀ s : State, s.rst = false → s.start = false → s.fsm = .stored .check →
    (s.storedNlen = ~~~s.storedLen → step s = .next { s with storedRem := s.storedLen, fsm := .stored .data }) ∧
    (s.storedNlen ≠ ~~~s.storedLen →
      step s = .next { s with errCode := 3, errInfo := s.storedNlen ++ s.storedLen, inReady := false, outValid := false
                              fsm := .error })

/-- The data loop: with none left (so at once when LEN is 0) the block ends; else the next input byte, whole, becomes the
op word `Literal(b)`. -/
def Obligations.StoredDataLoop : Prop :=
  ∀ (s : State) (b : Byte) (rest : List Byte), s.rst = false → s.start = false → s.fsm = .stored .data →
    (s.storedRem = 0 → step s = .next { s with fsm := .blockEnd }) ∧
    (s.storedRem ≠ 0 → s.input = b :: rest →
      ∃ w, decodeOp w = .ok (.opLiteral b) ∧
        step s = .next { s with input := rest, cursor := s.cursor + 1, inReady := false, fsm := .stored (.op w) })

/-- A step in STORED changes no table, no table array and no table selection. -/
def Obligations.StoredKeepsTables : Prop :=
  ∀ s t : State, s.rst = false → s.fsm.name = .stored → step s = .next t →
    t.tsel = s.tsel ∧ t.llLen = s.llLen ∧ t.dLen = s.dLen ∧ t.clLen = s.clLen ∧ t.lens = s.lens ∧ t.lenIdx = s.lenIdx

/-! ## Dynamic headers -/

/-- HLIT, HDIST and HCLEN: five, five and four bits, first bit least significant, with the biases 257, 1 and 4; the read of
HCLEN also clears `cl_len`. Nothing else changes but the position, the field registers and the Bit Source: each read leaves
the other two counts, the header flags and the tables alone. -/
def Obligations.HeaderCounts : Prop :=
  ∀ s : State, s.rst = false → s.start = false → s.inReady = false →
    (s.fsm = .dynHdr .hlit → 5 ≤ s.unread.length →
      ∃ t, step s = .next t ∧ t.hlit.toNat = fieldValue (s.unread.take 5) + 257 ∧ t.fsm = .dynHdr .hdist ∧
        t.unread = s.unread.drop 5 ∧
        t = { s with hlit := t.hlit, fsm := t.fsm, fldAcc := t.fldAcc, fldCnt := t.fldCnt
                     bitbuf := t.bitbuf, bitcnt := t.bitcnt, input := t.input, cursor := t.cursor }) ∧
    (s.fsm = .dynHdr .hdist → 5 ≤ s.unread.length →
      ∃ t, step s = .next t ∧ t.hdist.toNat = fieldValue (s.unread.take 5) + 1 ∧ t.fsm = .dynHdr .hclen ∧
        t.unread = s.unread.drop 5 ∧
        t = { s with hdist := t.hdist, fsm := t.fsm, fldAcc := t.fldAcc, fldCnt := t.fldCnt
                     bitbuf := t.bitbuf, bitcnt := t.bitcnt, input := t.input, cursor := t.cursor }) ∧
    (s.fsm = .dynHdr .hclen → 4 ≤ s.unread.length →
      ∃ t, step s = .next t ∧ t.hclen.toNat = fieldValue (s.unread.take 4) + 4 ∧ t.fsm = .dynHdr (.clLen 0) ∧
        t.clLen = List.replicate 19 0 ∧ t.unread = s.unread.drop 4 ∧
        t = { s with hclen := t.hclen, clLen := t.clLen, fsm := t.fsm, fldAcc := t.fldAcc, fldCnt := t.fldCnt
                     bitbuf := t.bitbuf, bitcnt := t.bitcnt, input := t.input, cursor := t.cursor })

/-- The i-th code-length code length is the next three bits and goes to code-length symbol `CL_ORDER[i]`; after `hclen`
of them the coded lengths begin at entry 0. Nothing else changes but the position, the field registers and the Bit Source. -/
def Obligations.CodeLengthLengths : Prop :=
  ∀ (s : State) (i : Nat), s.rst = false → s.start = false → s.inReady = false → s.fsm = .dynHdr (.clLen i) →
    (i < s.hclen.toNat → i < 19 → 3 ≤ s.unread.length →
      ∃ t, step s = .next t ∧ t.fsm = .dynHdr (.clLen (i + 1)) ∧ t.unread = s.unread.drop 3 ∧
        t.clLen = s.clLen.set
          ([16, 17, 18, 0, 8, 7, 9, 6, 10, 5, 11, 4, 12, 3, 13, 2, 14, 1, 15].getD i 0)
          (BitVec.ofNat 3 (fieldValue (s.unread.take 3))) ∧
        t = { s with clLen := t.clLen, fsm := t.fsm, fldAcc := t.fldAcc, fldCnt := t.fldCnt
                     bitbuf := t.bitbuf, bitcnt := t.bitcnt, input := t.input, cursor := t.cursor }) ∧
    (s.hclen.toNat ≤ i → step s = .next { s with lenIdx := 0, fsm := .dynHdr .symbol })

/-- CL_LEN, and the runs CL_REP16, CL_ZERO17 and CL_ZERO18 when their extra bits are there and the run fits: the entries
of the run, and only they, take the length; `len_idx` goes on by the run; nothing else changes but the position, the
field registers and the Bit Source. CL_REP16 repeats the entry before `len_idx`. -/
def Obligations.CodeLengthSymbols : Prop :=
  ∀ s : State, s.lens.length = 320 → s.nCoded ≤ 320 →
    (∀ v, s.lenIdx.toNat < s.nCoded →
      exec (.clLen v) s =
        .next { s with lens := s.lens.set s.lenIdx.toNat v, lenIdx := s.lenIdx + 1, fsm := .dynHdr .symbol }) ∧
    (∀ (i : Instr) (base n : Nat) (v : BitVec 4),
      (i, base, n, v) ∈ ([(.clRep16, 3, 2, s.lens.getD (s.lenIdx.toNat - 1) 0), (.clZero17, 3, 3, 0),
        (.clZero18, 11, 7, 0)] : List (Instr × Nat × Nat × BitVec 4)) →
      (i = .clRep16 → s.lenIdx ≠ 0) → s.inReady = false → n ≤ s.unread.length →
      s.lenIdx.toNat + (base + fieldValue (s.unread.take n)) ≤ s.nCoded →
      ∃ t, exec i s = .next t ∧ t.unread = s.unread.drop n ∧ t.fsm = .dynHdr .symbol ∧
        t.lenIdx.toNat = s.lenIdx.toNat + (base + fieldValue (s.unread.take n)) ∧
        (∀ k, t.lens.getD k 0 =
          if s.lenIdx.toNat ≤ k ∧ k < t.lenIdx.toNat then v else s.lens.getD k 0) ∧
        t = { s with lens := t.lens, lenIdx := t.lenIdx, fsm := t.fsm, fldAcc := t.fldAcc, fldCnt := t.fldCnt
                     bitbuf := t.bitbuf, bitcnt := t.bitcnt, input := t.input, cursor := t.cursor })

/-- CL_REP16 as the first symbol of the sequence raises MALFORMED_DYNAMIC_CODE_TABLE, subcode 1, and reads no extra
bit. -/
def Obligations.RepeatWithoutPrevious : Prop :=
  ∀ s : State, s.lenIdx = 0 →
    exec .clRep16 s =
      .next { s with errCode := 6, errInfo := 0x00010000, inReady := false, outValid := false, fsm := .error }

/-- A repeat past entry `hlit + hdist - 1` raises MALFORMED_DYNAMIC_CODE_TABLE with `{2, len_idx}`, after its extra bits
are read and with no entry written. R196 marks this as the spec's own choice (D8). -/
def Obligations.RepeatOverflow : Prop :=
  ∀ (s : State) (i : Instr) (base n : Nat),
    (i, base, n) ∈ ([(.clRep16, 3, 2), (.clZero17, 3, 3), (.clZero18, 11, 7)] : List (Instr × Nat × Nat)) →
    (i = .clRep16 → s.lenIdx ≠ 0) → s.inReady = false → n ≤ s.unread.length →
    s.nCoded < s.lenIdx.toNat + (base + fieldValue (s.unread.take n)) →
    ∃ t, exec i s = .next t ∧ t.fsm = .error ∧ t.errCode = 6 ∧
      t.errInfo = BitVec.ofNat 32 (2 * 2 ^ 16 + s.lenIdx.toNat) ∧ t.unread = s.unread.drop n ∧
      t.lens = s.lens ∧ t.lenIdx = s.lenIdx

/-- The end of the loop over the coded lengths, and the split: once `len_idx` has come to `hlit + hdist` no further symbol is
decoded; then the first `hlit` entries are the literal/length lengths and the next `hdist` the distance lengths, every
further slot being 0, the dynamic tables are selected and the data symbols begin. Nothing else changes. -/
def Obligations.SplitSelectsTables : Prop :=
  ∀ s : State, s.rst = false → s.start = false →
    (s.fsm = .dynHdr .symbol → s.nCoded ≤ s.lenIdx.toNat → step s = .next { s with fsm := .dynHdr .split }) ∧
    (s.fsm = .dynHdr .split →
      ∃ t, step s = .next t ∧ t.tsel = true ∧ t.fsm = .huffSym .symbol ∧
        t.llLen.length = 288 ∧ t.dLen.length = 32 ∧
        (∀ k < 288, t.llLen.getD k 0 = if k < s.hlit.toNat then s.lens.getD k 0 else 0) ∧
        (∀ k < 32, t.dLen.getD k 0 = if k < s.hdist.toNat then s.lens.getD (s.hlit.toNat + k) 0 else 0) ∧
        t = { s with llLen := t.llLen, dLen := t.dLen, tsel := true, fsm := t.fsm })

/-! ## Literals and the end of a block -/

/-- LIT when the host accepts: the byte is written at `wp`, emitted, and the window advances; then the next symbol. The
whole next state is given. -/
def Obligations.LiteralEmits : Prop :=
  ∀ (s : State) (b : Byte), s.wp.toNat < s.windowSize → s.outReady = true →
    exec (.lit b) s =
      .next { s with hist := s.hist.write s.wp.toNat b, output := s.output ++ [b], outData := b, outValid := false
                     wp := BitVec.ofNat 15 ((s.wp.toNat + 1) % s.windowSize)
                     filled := BitVec.ofNat 16 (min (s.filled.toNat + 1) s.windowSize)
                     fsm := .huffSym .symbol }

/-- OP_LITERAL when the host accepts: the byte is written at `wp`, emitted, and the window advances; a stored block's loop
then counts its byte, and anywhere else the next symbol follows. -/
def Obligations.OpLiteralEmits : Prop :=
  ∀ (s : State) (b : Byte), s.wp.toNat < s.windowSize → s.outReady = true →
    ∃ t, exec (.opLiteral b) s = .next t ∧
      (s.fsm.name = .stored → t.storedRem = s.storedRem - 1 ∧ t.fsm = .stored .data) ∧
      (s.fsm.name ≠ .stored → t.storedRem = s.storedRem ∧ t.fsm = .huffSym .symbol) ∧
      t = { s with hist := s.hist.write s.wp.toNat b, output := s.output ++ [b], outData := b, outValid := false
                   wp := BitVec.ofNat 15 ((s.wp.toNat + 1) % s.windowSize)
                   filled := BitVec.ofNat 16 (min (s.filled.toNat + 1) s.windowSize)
                   storedRem := t.storedRem, fsm := t.fsm }

/-- LIT and OP_LITERAL while the host does not accept: `Emit` holds, the byte standing on the output port; no output, no
change of the window, and the position stays. -/
def Obligations.LiteralHolds : Prop :=
  ∀ (s : State) (b : Byte), s.wp.toNat < s.windowSize → s.outReady = false →
    exec (.lit b) s =
      .next { s with hist := s.hist.write s.wp.toNat b, outData := b, outValid := true } ∧
    exec (.opLiteral b) s =
      .next { s with hist := s.hist.write s.wp.toNat b, outData := b, outValid := true }

/-- The bytes of the history under LIT and OP_LITERAL: index `wp` reads as the byte, every other index as before, and
the canonical form is kept. -/
def Obligations.LiteralHistoryBytes : Prop :=
  ∀ (s t : State) (b : Byte), exec (.lit b) s = .next t ∨ exec (.opLiteral b) s = .next t →
    t.hist.read s.wp.toNat = some b ∧ (∀ a, a ≠ s.wp.toNat → t.hist.read a = s.hist.read a) ∧
    (s.hist.wf = true → t.hist.wf = true)

/-- EOB and OP_END_OF_BLOCK: no effect on the history or the output; the block ends. The whole next state is given. -/
def Obligations.EndOfBlock : Prop :=
  ∀ s : State, exec .eob s = .next { s with fsm := .blockEnd } ∧
    exec .opEndOfBlock s = .next { s with fsm := .blockEnd }

/-! ## Length symbols -/

/-- LEN_257 to LEN_264 and LEN_285: the length, and nothing is read; then the distance. The whole next state is given. -/
def Obligations.LengthsWithoutExtraBits : Prop :=
  ∀ (i : Instr) (length : Nat), (i, length) ∈ ([
      (.len257, 3), (.len258, 4), (.len259, 5), (.len260, 6), (.len261, 7), (.len262, 8), (.len263, 9),
      (.len264, 10), (.len285, 258)] :
      List (Instr × Nat)) →
    ∀ s : State, exec i s = .next { s with curLen := BitVec.ofNat 9 length, fsm := .huffSym .dist }

/-- LEN_265 to LEN_284, each with its base and its number of extra bits: `cur_len` is the base plus the value of the next
bits, first bit least significant; exactly they are consumed; then the distance. Nothing else changes but the field
registers and the Bit Source. -/
def Obligations.LengthsWithExtraBits : Prop :=
  ∀ (i : Instr) (base n : Nat), (i, base, n) ∈ ([
      (.len265, 11, 1), (.len266, 13, 1), (.len267, 15, 1), (.len268, 17, 1), (.len269, 19, 2),
      (.len270, 23, 2), (.len271, 27, 2), (.len272, 31, 2), (.len273, 35, 3), (.len274, 43, 3),
      (.len275, 51, 3), (.len276, 59, 3), (.len277, 67, 4), (.len278, 83, 4), (.len279, 99, 4),
      (.len280, 115, 4), (.len281, 131, 5), (.len282, 163, 5), (.len283, 195, 5), (.len284, 227, 5)] :
      List (Instr × Nat × Nat)) →
    ∀ s : State, s.inReady = false → n ≤ s.unread.length →
    ∃ t, exec i s = .next t ∧ t.curLen.toNat = base + fieldValue (s.unread.take n) ∧ t.fsm = .huffSym .dist ∧
      t.unread = s.unread.drop n ∧
      t = { s with curLen := t.curLen, fsm := t.fsm, fldAcc := t.fldAcc, fldCnt := t.fldCnt
                   bitbuf := t.bitbuf, bitcnt := t.bitcnt, input := t.input, cursor := t.cursor }

/-! ## Distance symbols -/

/-- DIST_0 to DIST_3: the distance, and nothing is read; then `BackReference` of `cur_len` and it goes to the Window
Reconstructor. The whole next state is given. For a `cur_len` outside 3..258 the length field of the op word is the model's
choice (log 26). -/
def Obligations.DistancesWithoutExtraBits : Prop :=
  ∀ (i : Instr) (distance : Nat), (i, distance) ∈ ([
      (.dist0, 1), (.dist1, 2), (.dist2, 3), (.dist3, 4)] : List (Instr × Nat)) →
    ∀ s : State, exec i s =
      .next { s with curDist := BitVec.ofNat 16 distance, fsm := .huffSym (.op (opBackrefWord s.curLen.toNat distance)) }

/-- DIST_4 to DIST_29, each with its base and its number of extra bits: `cur_dist` is the base plus the value of the next
bits; exactly they are consumed; the op word handed on decodes to the back-reference of `cur_len` and it. Nothing else
changes but the field registers and the Bit Source. -/
def Obligations.DistancesWithExtraBits : Prop :=
  ∀ (i : Instr) (base n : Nat), (i, base, n) ∈ ([
      (.dist4, 5, 1), (.dist5, 7, 1), (.dist6, 9, 2), (.dist7, 13, 2), (.dist8, 17, 3), (.dist9, 25, 3),
      (.dist10, 33, 4), (.dist11, 49, 4), (.dist12, 65, 5), (.dist13, 97, 5), (.dist14, 129, 6),
      (.dist15, 193, 6), (.dist16, 257, 7), (.dist17, 385, 7), (.dist18, 513, 8), (.dist19, 769, 8),
      (.dist20, 1025, 9), (.dist21, 1537, 9), (.dist22, 2049, 10), (.dist23, 3073, 10), (.dist24, 4097, 11),
      (.dist25, 6145, 11), (.dist26, 8193, 12), (.dist27, 12289, 12), (.dist28, 16385, 13), (.dist29, 24577, 13)] :
      List (Instr × Nat × Nat)) →
    ∀ s : State, s.inReady = false → n ≤ s.unread.length → 3 ≤ s.curLen.toNat → s.curLen.toNat ≤ 258 →
    ∃ t w, exec i s = .next t ∧ t.curDist.toNat = base + fieldValue (s.unread.take n) ∧
      t.fsm = .huffSym (.op w) ∧ decodeOp w = .ok (.opBackref s.curLen.toNat t.curDist.toNat) ∧
      t.unread = s.unread.drop n ∧
      t = { s with curDist := t.curDist, fsm := t.fsm, fldAcc := t.fldAcc, fldCnt := t.fldCnt
                   bitbuf := t.bitbuf, bitcnt := t.bitcnt, input := t.input, cursor := t.cursor }

/-- LEN_286 and LEN_287 raise INVALID_LENGTH_SYMBOL with the symbol, DIST_30 and DIST_31 INVALID_DISTANCE_SYMBOL, and
nothing is read. The whole next state is given. -/
def Obligations.InvalidSymbols : Prop :=
  ∀ s : State,
    exec .len286 s =
      .next { s with errCode := 4, errInfo := 0x11E, inReady := false, outValid := false, fsm := .error } ∧
    exec .len287 s =
      .next { s with errCode := 4, errInfo := 0x11F, inReady := false, outValid := false, fsm := .error } ∧
    exec .dist30 s =
      .next { s with errCode := 5, errInfo := 0x1E, inReady := false, outValid := false, fsm := .error } ∧
    exec .dist31 s =
      .next { s with errCode := 5, errInfo := 0x1F, inReady := false, outValid := false, fsm := .error }

/-- The formulas of the format: the meaning of every length symbol 257 to 285 and of every distance symbol 0 to 29 has the
formula's base, and its extra-bit count where there are extra bits; each symbol's range ends one below the next one's start
(but for the symbols 284 and 285, which share 258), and the ranges are 3..258 and 1..32768. -/
def Obligations.SymbolFormulas : Prop :=
  lenBase 257 = 3 ∧ distBase 0 = 1 ∧
  (∀ s, 257 ≤ s → s ≤ 283 → lenBase (s + 1) = lenBase s + 2 ^ lenExtra s) ∧
  lenBase 284 + 2 ^ lenExtra 284 - 1 = 258 ∧ lenBase 285 = 258 ∧ lenExtra 285 = 0 ∧
  (∀ d ≤ 28, distBase (d + 1) = distBase d + 2 ^ distExtra d) ∧ distBase 29 + 2 ^ distExtra 29 - 1 = 32768 ∧
  (∀ s, 257 ≤ s → s ≤ 264 ∨ s = 285 → ∀ i, decode .litLenSym (BitVec.ofNat 25 s) = .ok i →
    ∀ st, exec i st = lengthExact (lenBase s) st) ∧
  (∀ s, 265 ≤ s → s ≤ 284 → ∀ i, decode .litLenSym (BitVec.ofNat 25 s) = .ok i →
    ∀ st, exec i st = lengthExtra (lenBase s) (lenExtra s) st) ∧
  (∀ d, d ≤ 3 → ∀ i, decode .distSym (BitVec.ofNat 25 d) = .ok i →
    ∀ st, exec i st = distanceExact (distBase d) st) ∧
  (∀ d, 4 ≤ d → d ≤ 29 → ∀ i, decode .distSym (BitVec.ofNat 25 d) = .ok i →
    ∀ st, exec i st = distanceExtra (distBase d) (distExtra d) st)

/-! ## Back-references -/

/-- OP_BACKREF: a distance within `filled` starts the copy with `copy_rem` the length; a greater one raises
DISTANCE_TOO_FAR with `{length, distance}`, and no byte is read, written or emitted. The whole next state is given. -/
def Obligations.BackReferenceCheck : Prop :=
  ∀ (s : State) (l d : Nat), 3 ≤ l → l ≤ 258 → 1 ≤ d → d ≤ 32768 →
    (d ≤ s.filled.toNat → exec (.opBackref l d) s =
      .next { s with curLen := BitVec.ofNat 9 l, curDist := BitVec.ofNat 16 d, copyRem := BitVec.ofNat 9 l, fsm := .copy }) ∧
    (s.filled.toNat < d → exec (.opBackref l d) s =
      .next { s with errCode := 8, errInfo := BitVec.ofNat 32 (l * 2 ^ 16 + d), inReady := false, outValid := false
                     fsm := .error })

/-- One byte of the copy: the byte `cur_dist` back. When the host accepts it is written at `wp` and emitted, the window
advances, `copy_rem` counts down, and the last byte ends the copy. While the host does not accept, `Emit` holds with the byte
on the output port: no output, and `wp`, `filled`, `copy_rem` and the position stay (that the byte already stands at `wp` is
log 17). The whole next state is given. -/
def Obligations.CopyOneByte : Prop :=
  ∀ (s : State) (b : Byte), s.rst = false → s.start = false → s.fsm = .copy → s.copyRem ≠ 0 →
    s.wp.toNat < s.windowSize →
    s.hist.read ((s.wp.toNat + s.windowSize - s.curDist.toNat) % s.windowSize) = some b →
    (s.outReady = true → step s =
      .next { s with hist := s.hist.write s.wp.toNat b, output := s.output ++ [b], outData := b, outValid := false
                     wp := BitVec.ofNat 15 ((s.wp.toNat + 1) % s.windowSize)
                     filled := BitVec.ofNat 16 (min (s.filled.toNat + 1) s.windowSize)
                     copyRem := s.copyRem - 1
                     fsm := if s.copyRem = 1 then .huffSym .symbol else .copy }) ∧
    (s.outReady = false → step s =
      .next { s with hist := s.hist.write s.wp.toNat b, outData := b, outValid := true })

/-- The whole copy, overlapping or not: it ends after `copy_rem` bytes in HUFF_SYM, and its byte `i` is byte `i mod D` of
the `D` output bytes before it. -/
def Obligations.CopyRepeatsLastBytes : Prop :=
  ∀ s : State, s.Inv → s.rst = false → s.start = false → s.fsm = .copy → s.outReady = true →
    ∃ t, Sys2Proof.core.run s.copyRem.toNat s = .next t ∧ t.fsm = .huffSym .symbol ∧
      t.output = s.output ++ (List.range s.copyRem.toNat).map fun i =>
        s.output.getD (s.output.length - s.curDist.toNat + i % s.curDist.toNat) 0

/-! ## Events -/

/-- `start` in IDLE, DONE or ERROR: the window size is sampled, every element with a start value takes it, the history is
unchanged, and the host's pins keep their levels (log 22). The state is the one that `rst` and then `start` lead to, but for
the history: that this holds of the elements R51 leaves unspecified too, because `rst` keeps the counter of free values, and
of the input cursor and the output record, is the model's choice (log 5, log 8). -/
def Obligations.StartBeginsStream : Prop :=
  ∀ s : State, s.rst = false → s.start = true → s.fsm = .idle ∨ s.fsm = .done ∨ s.fsm = .error →
    ∃ t, step s = .next t ∧
      (∃ r u, step { s with start := false, rst := true } = .next r ∧ step { r with start := true } = .next u ∧
        t = { u with hist := s.hist }) ∧
      t.fsm = .blockHdr .final ∧ t.wlog2 = s.cfgWlog2 ∧ t.bfinal = false ∧ t.btype = 0 ∧
      t.bitbuf = 0 ∧ t.bitcnt = 0 ∧ t.fldAcc = 0 ∧ t.fldCnt = 0 ∧ t.walkBits = 0 ∧ t.walkLen = 0 ∧
      t.storedLen = 0 ∧ t.storedNlen = 0 ∧ t.storedRem = 0 ∧ t.lenIdx = 0 ∧ t.tsel = false ∧ t.curSym = 0 ∧
      t.curDsym = 0 ∧ t.curLen = 0 ∧ t.curDist = 0 ∧ t.copyRem = 0 ∧ t.hist = s.hist ∧ t.wp = 0 ∧ t.filled = 0 ∧
      t.errCode = 0 ∧ t.errInfo = 0 ∧ t.inReady = false ∧ t.outValid = false ∧ t.outData = 0 ∧
      t.input = s.input ∧ t.inEnd = s.inEnd ∧ t.outReady = s.outReady ∧ t.cfgWlog2 = s.cfgWlog2 ∧ t.start = false

/-- `start` while busy is ignored: the step is the one without it. -/
def Obligations.StartIgnoredWhileBusy : Prop :=
  ∀ s : State, s.rst = false → s.start = true → s.busy = true → step s = step { s with start := false }

/-- `rst` in any state: IDLE, every element with a reset value takes it, no byte is taken, and the bytes already accepted
stay. The event is taken, and a `start` at the same moment is lost, which is the model's choice (log 7); so is that `rst`
comes before a transfer at the same moment (log 25). The elements the spec leaves unspecified are not mentioned. -/
def Obligations.ResetFromAnyState : Prop :=
  ∀ s : State, s.rst = true →
    ∃ t, step s = .next t ∧ t.fsm = .idle ∧ t.busy = false ∧ t.isDone = false ∧ t.isError = false ∧ t.wlog2 = 0 ∧
      t.bfinal = false ∧ t.btype = 0 ∧ t.bitbuf = 0 ∧ t.bitcnt = 0 ∧ t.fldAcc = 0 ∧ t.fldCnt = 0 ∧ t.walkBits = 0 ∧
      t.walkLen = 0 ∧ t.storedLen = 0 ∧ t.storedNlen = 0 ∧ t.storedRem = 0 ∧ t.lenIdx = 0 ∧ t.tsel = false ∧
      t.curSym = 0 ∧ t.curDsym = 0 ∧ t.curLen = 0 ∧ t.curDist = 0 ∧ t.copyRem = 0 ∧ t.wp = 0 ∧ t.filled = 0 ∧
      t.errCode = 0 ∧ t.errInfo = 0 ∧ t.inReady = false ∧ t.outValid = false ∧ t.outData = 0 ∧
      t.output = s.output ∧ t.input = s.input ∧ t.start = false ∧ t.rst = false

/-- IDLE, DONE and ERROR change nothing until `start` or `rst`. -/
def Obligations.WaitingStates : Prop :=
  ∀ s : State, s.rst = false → s.start = false → s.fsm = .idle ∨ s.fsm = .done ∨ s.fsm = .error → step s = .next s

/-! ## Errors -/

/-- Entering ERROR: the code is one of the eight, `in_ready` and `out_valid` are low, and nothing changes but the error
registers, the Bit Source, field and walk registers, and the event taken: in particular nothing is emitted and the header
flags, the history, the window and the tables keep their values. Only IO_FAILURE, MALFORMED_DYNAMIC_CODE_TABLE and
INVALID_CODE come after reads of the same step; for the other five kinds the Bit Source, field and walk registers keep their
values too. That a pending `start` is taken is log 21. -/
def Obligations.ErrorEntry : Prop :=
  ∀ s t : State, step s = .next t → s.fsm ≠ .error → t.fsm = .error →
    1 ≤ t.errCode.toNat ∧ t.errCode.toNat ≤ 8 ∧ t.inReady = false ∧ t.outValid = false ∧
    t = { s with errCode := t.errCode, errInfo := t.errInfo, inReady := false, outValid := false, fsm := .error
                 bitbuf := t.bitbuf, bitcnt := t.bitcnt, input := t.input, cursor := t.cursor
                 fldAcc := t.fldAcc, fldCnt := t.fldCnt, walkBits := t.walkBits, walkLen := t.walkLen
                 start := false } ∧
    (t.errCode ≠ 1 → t.errCode ≠ 6 → t.errCode ≠ 7 →
      t = { s with errCode := t.errCode, errInfo := t.errInfo, inReady := false, outValid := false, fsm := .error
                   start := false })

/-- A read whose bits are not all there. First: at every position that reads, with no bit buffered and no byte presented,
the core holds with `in_ready` high while the input has not ended, and raises IO_FAILURE(0) once it has. Second: where the
reads between instructions (a header field, a 3-bit code length, a codeword that none of the bits there completes, a raw
byte) find fewer bits than they need, every bit there is taken; the core then holds, changing nothing but the field, walk
and Bit Source registers and `in_ready`, or raises IO_FAILURE(0) once the input has ended. -/
def Obligations.ReadWithoutByte : Prop :=
  (∀ s : State, s.Inv → s.rst = false → s.start = false → s.inReady = false → s.reading = true → s.bitcnt = 0 →
    s.input = [] →
    (s.inEnd = false → ∃ t, step s = .next t ∧ t.inReady = true ∧ t.fsm = s.fsm ∧ t.unread = [] ∧
      t.output = s.output ∧ t.hist = s.hist) ∧
    (s.inEnd = true → ∃ t, step s = .next t ∧ t.fsm = .error ∧ t.errCode = 1 ∧ t.errInfo = 0 ∧
      t.cursor = s.cursor)) ∧
  (∀ s : State, s.rst = false → s.start = false → s.inReady = false →
    (s.fsm = .blockHdr .final ∧ s.unread.length < 1) ∨ (s.fsm = .blockHdr .type ∧ s.unread.length < 2) ∨
    (s.fsm = .dynHdr .hlit ∧ s.unread.length < 5) ∨ (s.fsm = .dynHdr .hdist ∧ s.unread.length < 5) ∨
    (s.fsm = .dynHdr .hclen ∧ s.unread.length < 4) ∨
    (∃ i, s.fsm = .dynHdr (.clLen i) ∧ i < s.hclen.toNat ∧ s.unread.length < 3) ∨
    (s.fsm = .huffSym .symbol ∧ s.unread.length < 15 ∧ s.llTable.noMatchBelow s.unread (s.unread.length + 1)) ∨
    (s.fsm = .huffSym .dist ∧ s.unread.length < 15 ∧ s.dTable.noMatchBelow s.unread (s.unread.length + 1)) ∨
    (s.fsm = .dynHdr .symbol ∧ s.lenIdx.toNat < s.nCoded ∧ s.unread.length < 7 ∧
      s.clTable.noMatchBelow s.unread (s.unread.length + 1)) ∨
    ((s.fsm = .stored .lenLo ∨ (∃ lo, s.fsm = .stored (.lenHi lo)) ∨ s.fsm = .stored .nlenLo ∨
      (∃ lo, s.fsm = .stored (.nlenHi lo)) ∨ s.fsm = .stored .data ∧ s.storedRem ≠ 0) ∧ s.unread = []) →
    (s.inEnd = false → ∃ t, step s = .next t ∧ t.unread = [] ∧
      t = { s with inReady := true, fldAcc := t.fldAcc, fldCnt := t.fldCnt, walkBits := t.walkBits, walkLen := t.walkLen
                   bitbuf := t.bitbuf, bitcnt := t.bitcnt, input := t.input, cursor := t.cursor }) ∧
    (s.inEnd = true → ∃ t, step s = .next t ∧ t.fsm = .error ∧ t.errCode = 1 ∧ t.errInfo = 0 ∧ t.unread = []))

/-- An instruction whose extra bits are not all there, of every form that has any: it takes every bit there is; while the
input has not ended it holds at its position, changing nothing but the field registers, the Bit Source and `in_ready`; once
it has ended it raises IO_FAILURE(0). CL_REP16 is among them when it has a previous length. -/
def Obligations.ExtraBitsCutShort : Prop :=
  ∀ (s : State) (i : Instr) (n : Nat),
    (∃ v, 265 ≤ v ∧ v ≤ 284 ∧ decode .litLenSym (BitVec.ofNat 25 v) = .ok i ∧ n = lenExtra v) ∨
    (∃ d, 4 ≤ d ∧ d ≤ 29 ∧ decode .distSym (BitVec.ofNat 25 d) = .ok i ∧ n = distExtra d) ∨
    (i = .clRep16 ∧ n = 2 ∧ s.lenIdx ≠ 0) ∨ (i = .clZero17 ∧ n = 3) ∨ (i = .clZero18 ∧ n = 7) →
    s.inReady = false → s.unread.length < n →
    (s.inEnd = false → ∃ t, exec i s = .next t ∧ t.unread = [] ∧
      t = { s with inReady := true, fldAcc := t.fldAcc, fldCnt := t.fldCnt
                   bitbuf := t.bitbuf, bitcnt := t.bitcnt, input := t.input, cursor := t.cursor }) ∧
    (s.inEnd = true → ∃ t, exec i s = .next t ∧ t.fsm = .error ∧ t.errCode = 1 ∧ t.errInfo = 0 ∧ t.unread = [])

/-! ## Whole-machine rules -/

/-- The invariant holds at reset. -/
def Obligations.InvariantAtReset : Prop := State.reset.Inv

/-- The invariant is kept by every step: the history mirrors the output, `filled` counts it, the bit buffer, the arrays,
the ports, the error code and every position keep their form. -/
def Obligations.InvariantKept : Prop :=
  ∀ s t : State, s.Inv → step s = .next t → t.Inv

/-- The machine never stops: from every state that meets the invariant a step gives a next state, never a fault and never
a refusal. In particular every read of the history is of an index written before. -/
def Obligations.NeverStops : Prop :=
  ∀ s : State, s.Inv → s.safeStep

/-- The core makes only the transitions of the table, or stays in its state; `start` and `rst` apart. -/
def Obligations.OnlyListedTransitions : Prop :=
  ∀ s t : State, s.Inv → s.rst = false → (s.start = true → s.busy = true) → step s = .next t →
    t.fsm.name = s.fsm.name ∨ allowedTransition s.fsm.name t.fsm.name = true

/-- An accepted byte is never retracted: no step but the `start` of a new stream takes a byte from the output, and a step
adds at most one. -/
def Obligations.OutputOnlyGrows : Prop :=
  ∀ s t : State, (s.rst = false → s.start = true → s.busy = true) → step s = .next t →
    t.output = s.output ∨ ∃ b, t.output = s.output ++ [b]

/-- Input bytes are taken strictly in order, each once, and the cursor counts them; `start` and `rst` apart. -/
def Obligations.InputInOrder : Prop :=
  ∀ s t : State, s.rst = false → (s.start = true → s.busy = true) → step s = .next t →
    ∃ taken, s.input = taken ++ t.input ∧ t.cursor = s.cursor + taken.length

/-- Between steps no byte stands in the bit buffer of which no bit has been read: the core takes a byte only when it needs
a bit of it. -/
def Obligations.NoLookahead : Prop :=
  ∀ s t : State, s.bitcnt.toNat ≤ 7 → step s = .next t → t.bitcnt.toNat ≤ 7

/-- The window size of a stream is fixed: only `start` and `rst` change it. -/
def Obligations.WindowSizeFixed : Prop :=
  ∀ s t : State, s.rst = false → (s.start = true → s.busy = true) → step s = .next t → t.wlog2 = s.wlog2

/-- A hold of `ReadByte()` changes no result: a step that holds, taken on when the host has presented more bytes (or none),
and has ended the input or not, comes to what the step comes to with those bytes presented and the input ended at once. In
particular a held core takes IO_FAILURE when the input ends. -/
def Obligations.InputHoldsChangeNothing : Prop :=
  ∀ (s h : State) (bytes : List Byte) (ended : Bool), s.Inv → s.inEnd = false → step s = .next h → h.inReady = true →
    step { h.offer bytes with inEnd := ended } = step { s.offer bytes with inEnd := ended }

/-- A hold of `Emit(b)` changes no result: a step that holds, taken on when the host accepts, comes to what the step comes
to when the host accepts at once. -/
def Obligations.OutputHoldsChangeNothing : Prop :=
  ∀ s h : State, s.Inv → s.outReady = false → step s = .next h → h.outValid = true →
    step h.accept = step s.accept
end

