-- ==== Sys2Proof/Laws/State.lean ====
section
/-! SUPPORT. For each named update of the state, what it writes and what it leaves alone, field by field, true by
computation, so that no later proof unfolds a record update. -/

namespace Sys2Proof.Machine

/-- What `raise` writes. -/
@[simp] theorem raise_writes (e : ErrKind) (info : BitVec 32) (s : State) :
  (raise e info s).fsm = .error ∧ (raise e info s).errCode = e.code ∧ (raise e info s).errInfo = info ∧
    (raise e info s).inReady = false ∧ (raise e info s).outValid = false := by
  exact ⟨rfl, rfl, rfl, rfl, rfl⟩

/-- What `raise` leaves alone. -/
@[simp] theorem raise_keeps (e : ErrKind) (info : BitVec 32) (s : State) :
  (raise e info s).wlog2 = s.wlog2 ∧ (raise e info s).bfinal = s.bfinal ∧ (raise e info s).btype = s.btype ∧
    (raise e info s).bitbuf = s.bitbuf ∧ (raise e info s).bitcnt = s.bitcnt ∧ (raise e info s).fldAcc = s.fldAcc ∧
    (raise e info s).fldCnt = s.fldCnt ∧ (raise e info s).walkBits = s.walkBits ∧
    (raise e info s).walkLen = s.walkLen ∧ (raise e info s).storedLen = s.storedLen ∧
    (raise e info s).storedNlen = s.storedNlen ∧ (raise e info s).storedRem = s.storedRem ∧
    (raise e info s).hlit = s.hlit ∧ (raise e info s).hdist = s.hdist ∧ (raise e info s).hclen = s.hclen ∧
    (raise e info s).clLen = s.clLen ∧ (raise e info s).lens = s.lens ∧ (raise e info s).lenIdx = s.lenIdx ∧
    (raise e info s).llLen = s.llLen ∧ (raise e info s).dLen = s.dLen ∧ (raise e info s).tsel = s.tsel ∧
    (raise e info s).curSym = s.curSym ∧ (raise e info s).curDsym = s.curDsym ∧
    (raise e info s).curLen = s.curLen ∧ (raise e info s).curDist = s.curDist ∧
    (raise e info s).copyRem = s.copyRem ∧ (raise e info s).hist = s.hist ∧ (raise e info s).wp = s.wp ∧
    (raise e info s).filled = s.filled ∧ (raise e info s).outData = s.outData ∧ (raise e info s).input = s.input ∧
    (raise e info s).inEnd = s.inEnd ∧ (raise e info s).outReady = s.outReady ∧
    (raise e info s).cfgWlog2 = s.cfgWlog2 ∧ (raise e info s).start = s.start ∧ (raise e info s).rst = s.rst ∧
    (raise e info s).output = s.output ∧ (raise e info s).cursor = s.cursor ∧
    (raise e info s).freeCtr = s.freeCtr := by
  exact ⟨rfl, rfl, rfl, rfl, rfl, rfl, rfl, rfl, rfl, rfl, rfl, rfl, rfl, rfl, rfl, rfl, rfl, rfl, rfl, rfl,
    rfl, rfl, rfl, rfl, rfl, rfl, rfl, rfl, rfl, rfl, rfl, rfl, rfl, rfl, rfl, rfl, rfl, rfl, rfl⟩

@[simp] theorem raise_windowSize (e : ErrKind) (info : BitVec 32) (s : State) : (raise e info s).windowSize = s.windowSize := rfl

/-- What `align` writes. -/
@[simp] theorem align_writes (s : State) :
  (align s).bitbuf = 0 ∧ (align s).bitcnt = 0 := by
  exact ⟨rfl, rfl⟩

/-- What `align` leaves alone. -/
@[simp] theorem align_keeps (s : State) :
  (align s).fsm = s.fsm ∧ (align s).wlog2 = s.wlog2 ∧ (align s).bfinal = s.bfinal ∧ (align s).btype = s.btype ∧
    (align s).fldAcc = s.fldAcc ∧ (align s).fldCnt = s.fldCnt ∧ (align s).walkBits = s.walkBits ∧
    (align s).walkLen = s.walkLen ∧ (align s).storedLen = s.storedLen ∧ (align s).storedNlen = s.storedNlen ∧
    (align s).storedRem = s.storedRem ∧ (align s).hlit = s.hlit ∧ (align s).hdist = s.hdist ∧
    (align s).hclen = s.hclen ∧ (align s).clLen = s.clLen ∧ (align s).lens = s.lens ∧ (align s).lenIdx = s.lenIdx ∧
    (align s).llLen = s.llLen ∧ (align s).dLen = s.dLen ∧ (align s).tsel = s.tsel ∧ (align s).curSym = s.curSym ∧
    (align s).curDsym = s.curDsym ∧ (align s).curLen = s.curLen ∧ (align s).curDist = s.curDist ∧
    (align s).copyRem = s.copyRem ∧ (align s).hist = s.hist ∧ (align s).wp = s.wp ∧ (align s).filled = s.filled ∧
    (align s).errCode = s.errCode ∧ (align s).errInfo = s.errInfo ∧ (align s).inReady = s.inReady ∧
    (align s).outValid = s.outValid ∧ (align s).outData = s.outData ∧ (align s).input = s.input ∧
    (align s).inEnd = s.inEnd ∧ (align s).outReady = s.outReady ∧ (align s).cfgWlog2 = s.cfgWlog2 ∧
    (align s).start = s.start ∧ (align s).rst = s.rst ∧ (align s).output = s.output ∧ (align s).cursor = s.cursor ∧
    (align s).freeCtr = s.freeCtr := by
  exact ⟨rfl, rfl, rfl, rfl, rfl, rfl, rfl, rfl, rfl, rfl, rfl, rfl, rfl, rfl, rfl, rfl, rfl, rfl, rfl, rfl,
    rfl, rfl, rfl, rfl, rfl, rfl, rfl, rfl, rfl, rfl, rfl, rfl, rfl, rfl, rfl, rfl, rfl, rfl, rfl, rfl,
    rfl, rfl⟩

@[simp] theorem align_windowSize (s : State) : (align s).windowSize = s.windowSize := rfl

/-- What `advance` writes. -/
@[simp] theorem advance_writes (s : State) :
  (advance s).wp = BitVec.ofNat 15 ((s.wp.toNat + 1) % s.windowSize) ∧
    (advance s).filled = BitVec.ofNat 16 (min (s.filled.toNat + 1) s.windowSize) := by
  exact ⟨rfl, rfl⟩

/-- What `advance` leaves alone. -/
@[simp] theorem advance_keeps (s : State) :
  (advance s).fsm = s.fsm ∧ (advance s).wlog2 = s.wlog2 ∧ (advance s).bfinal = s.bfinal ∧
    (advance s).btype = s.btype ∧ (advance s).bitbuf = s.bitbuf ∧ (advance s).bitcnt = s.bitcnt ∧
    (advance s).fldAcc = s.fldAcc ∧ (advance s).fldCnt = s.fldCnt ∧ (advance s).walkBits = s.walkBits ∧
    (advance s).walkLen = s.walkLen ∧ (advance s).storedLen = s.storedLen ∧ (advance s).storedNlen = s.storedNlen ∧
    (advance s).storedRem = s.storedRem ∧ (advance s).hlit = s.hlit ∧ (advance s).hdist = s.hdist ∧
    (advance s).hclen = s.hclen ∧ (advance s).clLen = s.clLen ∧ (advance s).lens = s.lens ∧
    (advance s).lenIdx = s.lenIdx ∧ (advance s).llLen = s.llLen ∧ (advance s).dLen = s.dLen ∧
    (advance s).tsel = s.tsel ∧ (advance s).curSym = s.curSym ∧ (advance s).curDsym = s.curDsym ∧
    (advance s).curLen = s.curLen ∧ (advance s).curDist = s.curDist ∧ (advance s).copyRem = s.copyRem ∧
    (advance s).hist = s.hist ∧ (advance s).errCode = s.errCode ∧ (advance s).errInfo = s.errInfo ∧
    (advance s).inReady = s.inReady ∧ (advance s).outValid = s.outValid ∧ (advance s).outData = s.outData ∧
    (advance s).input = s.input ∧ (advance s).inEnd = s.inEnd ∧ (advance s).outReady = s.outReady ∧
    (advance s).cfgWlog2 = s.cfgWlog2 ∧ (advance s).start = s.start ∧ (advance s).rst = s.rst ∧
    (advance s).output = s.output ∧ (advance s).cursor = s.cursor ∧ (advance s).freeCtr = s.freeCtr := by
  exact ⟨rfl, rfl, rfl, rfl, rfl, rfl, rfl, rfl, rfl, rfl, rfl, rfl, rfl, rfl, rfl, rfl, rfl, rfl, rfl, rfl,
    rfl, rfl, rfl, rfl, rfl, rfl, rfl, rfl, rfl, rfl, rfl, rfl, rfl, rfl, rfl, rfl, rfl, rfl, rfl, rfl,
    rfl, rfl⟩

@[simp] theorem advance_windowSize (s : State) : (advance s).windowSize = s.windowSize := rfl

/-- What `emit` writes. -/
@[simp] theorem emit_writes (b : Byte) (s : State) :
  (emit b s).outValid = false ∧ (emit b s).outData = b ∧ (emit b s).output = s.output ++ [b] := by
  exact ⟨rfl, rfl, rfl⟩

/-- What `emit` leaves alone. -/
@[simp] theorem emit_keeps (b : Byte) (s : State) :
  (emit b s).fsm = s.fsm ∧ (emit b s).wlog2 = s.wlog2 ∧ (emit b s).bfinal = s.bfinal ∧ (emit b s).btype = s.btype ∧
    (emit b s).bitbuf = s.bitbuf ∧ (emit b s).bitcnt = s.bitcnt ∧ (emit b s).fldAcc = s.fldAcc ∧
    (emit b s).fldCnt = s.fldCnt ∧ (emit b s).walkBits = s.walkBits ∧ (emit b s).walkLen = s.walkLen ∧
    (emit b s).storedLen = s.storedLen ∧ (emit b s).storedNlen = s.storedNlen ∧
    (emit b s).storedRem = s.storedRem ∧ (emit b s).hlit = s.hlit ∧ (emit b s).hdist = s.hdist ∧
    (emit b s).hclen = s.hclen ∧ (emit b s).clLen = s.clLen ∧ (emit b s).lens = s.lens ∧
    (emit b s).lenIdx = s.lenIdx ∧ (emit b s).llLen = s.llLen ∧ (emit b s).dLen = s.dLen ∧
    (emit b s).tsel = s.tsel ∧ (emit b s).curSym = s.curSym ∧ (emit b s).curDsym = s.curDsym ∧
    (emit b s).curLen = s.curLen ∧ (emit b s).curDist = s.curDist ∧ (emit b s).copyRem = s.copyRem ∧
    (emit b s).hist = s.hist ∧ (emit b s).wp = s.wp ∧ (emit b s).filled = s.filled ∧
    (emit b s).errCode = s.errCode ∧ (emit b s).errInfo = s.errInfo ∧ (emit b s).inReady = s.inReady ∧
    (emit b s).input = s.input ∧ (emit b s).inEnd = s.inEnd ∧ (emit b s).outReady = s.outReady ∧
    (emit b s).cfgWlog2 = s.cfgWlog2 ∧ (emit b s).start = s.start ∧ (emit b s).rst = s.rst ∧
    (emit b s).cursor = s.cursor ∧ (emit b s).freeCtr = s.freeCtr := by
  exact ⟨rfl, rfl, rfl, rfl, rfl, rfl, rfl, rfl, rfl, rfl, rfl, rfl, rfl, rfl, rfl, rfl, rfl, rfl, rfl, rfl,
    rfl, rfl, rfl, rfl, rfl, rfl, rfl, rfl, rfl, rfl, rfl, rfl, rfl, rfl, rfl, rfl, rfl, rfl, rfl, rfl,
    rfl⟩

@[simp] theorem emit_windowSize (b : Byte) (s : State) : (emit b s).windowSize = s.windowSize := rfl

/-- What `holdEmit` writes. -/
@[simp] theorem holdEmit_writes (b : Byte) (s : State) :
  (holdEmit b s).outValid = true ∧ (holdEmit b s).outData = b := by
  exact ⟨rfl, rfl⟩

/-- What `holdEmit` leaves alone. -/
@[simp] theorem holdEmit_keeps (b : Byte) (s : State) :
  (holdEmit b s).fsm = s.fsm ∧ (holdEmit b s).wlog2 = s.wlog2 ∧ (holdEmit b s).bfinal = s.bfinal ∧
    (holdEmit b s).btype = s.btype ∧ (holdEmit b s).bitbuf = s.bitbuf ∧ (holdEmit b s).bitcnt = s.bitcnt ∧
    (holdEmit b s).fldAcc = s.fldAcc ∧ (holdEmit b s).fldCnt = s.fldCnt ∧ (holdEmit b s).walkBits = s.walkBits ∧
    (holdEmit b s).walkLen = s.walkLen ∧ (holdEmit b s).storedLen = s.storedLen ∧
    (holdEmit b s).storedNlen = s.storedNlen ∧ (holdEmit b s).storedRem = s.storedRem ∧
    (holdEmit b s).hlit = s.hlit ∧ (holdEmit b s).hdist = s.hdist ∧ (holdEmit b s).hclen = s.hclen ∧
    (holdEmit b s).clLen = s.clLen ∧ (holdEmit b s).lens = s.lens ∧ (holdEmit b s).lenIdx = s.lenIdx ∧
    (holdEmit b s).llLen = s.llLen ∧ (holdEmit b s).dLen = s.dLen ∧ (holdEmit b s).tsel = s.tsel ∧
    (holdEmit b s).curSym = s.curSym ∧ (holdEmit b s).curDsym = s.curDsym ∧ (holdEmit b s).curLen = s.curLen ∧
    (holdEmit b s).curDist = s.curDist ∧ (holdEmit b s).copyRem = s.copyRem ∧ (holdEmit b s).hist = s.hist ∧
    (holdEmit b s).wp = s.wp ∧ (holdEmit b s).filled = s.filled ∧ (holdEmit b s).errCode = s.errCode ∧
    (holdEmit b s).errInfo = s.errInfo ∧ (holdEmit b s).inReady = s.inReady ∧ (holdEmit b s).input = s.input ∧
    (holdEmit b s).inEnd = s.inEnd ∧ (holdEmit b s).outReady = s.outReady ∧ (holdEmit b s).cfgWlog2 = s.cfgWlog2 ∧
    (holdEmit b s).start = s.start ∧ (holdEmit b s).rst = s.rst ∧ (holdEmit b s).output = s.output ∧
    (holdEmit b s).cursor = s.cursor ∧ (holdEmit b s).freeCtr = s.freeCtr := by
  exact ⟨rfl, rfl, rfl, rfl, rfl, rfl, rfl, rfl, rfl, rfl, rfl, rfl, rfl, rfl, rfl, rfl, rfl, rfl, rfl, rfl,
    rfl, rfl, rfl, rfl, rfl, rfl, rfl, rfl, rfl, rfl, rfl, rfl, rfl, rfl, rfl, rfl, rfl, rfl, rfl, rfl,
    rfl, rfl⟩

@[simp] theorem holdEmit_windowSize (b : Byte) (s : State) : (holdEmit b s).windowSize = s.windowSize := rfl

/-- What `memWrite` writes. -/
@[simp] theorem memWrite_writes (a : Nat) (v : Byte) (s : State) :
    (memWrite a v s).hist = s.hist.write a v := rfl

/-- What `memWrite` leaves alone. -/
@[simp] theorem memWrite_keeps (a : Nat) (v : Byte) (s : State) :
  (memWrite a v s).fsm = s.fsm ∧ (memWrite a v s).wlog2 = s.wlog2 ∧ (memWrite a v s).bfinal = s.bfinal ∧
    (memWrite a v s).btype = s.btype ∧ (memWrite a v s).bitbuf = s.bitbuf ∧ (memWrite a v s).bitcnt = s.bitcnt ∧
    (memWrite a v s).fldAcc = s.fldAcc ∧ (memWrite a v s).fldCnt = s.fldCnt ∧
    (memWrite a v s).walkBits = s.walkBits ∧ (memWrite a v s).walkLen = s.walkLen ∧
    (memWrite a v s).storedLen = s.storedLen ∧ (memWrite a v s).storedNlen = s.storedNlen ∧
    (memWrite a v s).storedRem = s.storedRem ∧ (memWrite a v s).hlit = s.hlit ∧ (memWrite a v s).hdist = s.hdist ∧
    (memWrite a v s).hclen = s.hclen ∧ (memWrite a v s).clLen = s.clLen ∧ (memWrite a v s).lens = s.lens ∧
    (memWrite a v s).lenIdx = s.lenIdx ∧ (memWrite a v s).llLen = s.llLen ∧ (memWrite a v s).dLen = s.dLen ∧
    (memWrite a v s).tsel = s.tsel ∧ (memWrite a v s).curSym = s.curSym ∧ (memWrite a v s).curDsym = s.curDsym ∧
    (memWrite a v s).curLen = s.curLen ∧ (memWrite a v s).curDist = s.curDist ∧
    (memWrite a v s).copyRem = s.copyRem ∧ (memWrite a v s).wp = s.wp ∧ (memWrite a v s).filled = s.filled ∧
    (memWrite a v s).errCode = s.errCode ∧ (memWrite a v s).errInfo = s.errInfo ∧
    (memWrite a v s).inReady = s.inReady ∧ (memWrite a v s).outValid = s.outValid ∧
    (memWrite a v s).outData = s.outData ∧ (memWrite a v s).input = s.input ∧ (memWrite a v s).inEnd = s.inEnd ∧
    (memWrite a v s).outReady = s.outReady ∧ (memWrite a v s).cfgWlog2 = s.cfgWlog2 ∧
    (memWrite a v s).start = s.start ∧ (memWrite a v s).rst = s.rst ∧ (memWrite a v s).output = s.output ∧
    (memWrite a v s).cursor = s.cursor ∧ (memWrite a v s).freeCtr = s.freeCtr := by
  exact ⟨rfl, rfl, rfl, rfl, rfl, rfl, rfl, rfl, rfl, rfl, rfl, rfl, rfl, rfl, rfl, rfl, rfl, rfl, rfl, rfl,
    rfl, rfl, rfl, rfl, rfl, rfl, rfl, rfl, rfl, rfl, rfl, rfl, rfl, rfl, rfl, rfl, rfl, rfl, rfl, rfl,
    rfl, rfl, rfl⟩

@[simp] theorem memWrite_windowSize (a : Nat) (v : Byte) (s : State) : (memWrite a v s).windowSize = s.windowSize := rfl

/-- What `beginCopy` writes. -/
@[simp] theorem beginCopy_writes (l d : Nat) (s : State) :
  (beginCopy l d s).fsm = .copy ∧ (beginCopy l d s).curLen = BitVec.ofNat 9 l ∧
    (beginCopy l d s).curDist = BitVec.ofNat 16 d ∧ (beginCopy l d s).copyRem = BitVec.ofNat 9 l := by
  exact ⟨rfl, rfl, rfl, rfl⟩

/-- What `beginCopy` leaves alone. -/
@[simp] theorem beginCopy_keeps (l d : Nat) (s : State) :
  (beginCopy l d s).wlog2 = s.wlog2 ∧ (beginCopy l d s).bfinal = s.bfinal ∧ (beginCopy l d s).btype = s.btype ∧
    (beginCopy l d s).bitbuf = s.bitbuf ∧ (beginCopy l d s).bitcnt = s.bitcnt ∧
    (beginCopy l d s).fldAcc = s.fldAcc ∧ (beginCopy l d s).fldCnt = s.fldCnt ∧
    (beginCopy l d s).walkBits = s.walkBits ∧ (beginCopy l d s).walkLen = s.walkLen ∧
    (beginCopy l d s).storedLen = s.storedLen ∧ (beginCopy l d s).storedNlen = s.storedNlen ∧
    (beginCopy l d s).storedRem = s.storedRem ∧ (beginCopy l d s).hlit = s.hlit ∧
    (beginCopy l d s).hdist = s.hdist ∧ (beginCopy l d s).hclen = s.hclen ∧ (beginCopy l d s).clLen = s.clLen ∧
    (beginCopy l d s).lens = s.lens ∧ (beginCopy l d s).lenIdx = s.lenIdx ∧ (beginCopy l d s).llLen = s.llLen ∧
    (beginCopy l d s).dLen = s.dLen ∧ (beginCopy l d s).tsel = s.tsel ∧ (beginCopy l d s).curSym = s.curSym ∧
    (beginCopy l d s).curDsym = s.curDsym ∧ (beginCopy l d s).hist = s.hist ∧ (beginCopy l d s).wp = s.wp ∧
    (beginCopy l d s).filled = s.filled ∧ (beginCopy l d s).errCode = s.errCode ∧
    (beginCopy l d s).errInfo = s.errInfo ∧ (beginCopy l d s).inReady = s.inReady ∧
    (beginCopy l d s).outValid = s.outValid ∧ (beginCopy l d s).outData = s.outData ∧
    (beginCopy l d s).input = s.input ∧ (beginCopy l d s).inEnd = s.inEnd ∧
    (beginCopy l d s).outReady = s.outReady ∧ (beginCopy l d s).cfgWlog2 = s.cfgWlog2 ∧
    (beginCopy l d s).start = s.start ∧ (beginCopy l d s).rst = s.rst ∧ (beginCopy l d s).output = s.output ∧
    (beginCopy l d s).cursor = s.cursor ∧ (beginCopy l d s).freeCtr = s.freeCtr := by
  exact ⟨rfl, rfl, rfl, rfl, rfl, rfl, rfl, rfl, rfl, rfl, rfl, rfl, rfl, rfl, rfl, rfl, rfl, rfl, rfl, rfl,
    rfl, rfl, rfl, rfl, rfl, rfl, rfl, rfl, rfl, rfl, rfl, rfl, rfl, rfl, rfl, rfl, rfl, rfl, rfl, rfl⟩

@[simp] theorem beginCopy_windowSize (l d : Nat) (s : State) : (beginCopy l d s).windowSize = s.windowSize := rfl

/-- What `headerFlags` writes. -/
@[simp] theorem headerFlags_writes (f : Bool) (t : BitVec 2) (s : State) :
  (headerFlags f t s).bfinal = f ∧ (headerFlags f t s).btype = t := by
  exact ⟨rfl, rfl⟩

/-- What `headerFlags` leaves alone. -/
@[simp] theorem headerFlags_keeps (f : Bool) (t : BitVec 2) (s : State) :
  (headerFlags f t s).fsm = s.fsm ∧ (headerFlags f t s).wlog2 = s.wlog2 ∧ (headerFlags f t s).bitbuf = s.bitbuf ∧
    (headerFlags f t s).bitcnt = s.bitcnt ∧ (headerFlags f t s).fldAcc = s.fldAcc ∧
    (headerFlags f t s).fldCnt = s.fldCnt ∧ (headerFlags f t s).walkBits = s.walkBits ∧
    (headerFlags f t s).walkLen = s.walkLen ∧ (headerFlags f t s).storedLen = s.storedLen ∧
    (headerFlags f t s).storedNlen = s.storedNlen ∧ (headerFlags f t s).storedRem = s.storedRem ∧
    (headerFlags f t s).hlit = s.hlit ∧ (headerFlags f t s).hdist = s.hdist ∧ (headerFlags f t s).hclen = s.hclen ∧
    (headerFlags f t s).clLen = s.clLen ∧ (headerFlags f t s).lens = s.lens ∧
    (headerFlags f t s).lenIdx = s.lenIdx ∧ (headerFlags f t s).llLen = s.llLen ∧
    (headerFlags f t s).dLen = s.dLen ∧ (headerFlags f t s).tsel = s.tsel ∧ (headerFlags f t s).curSym = s.curSym ∧
    (headerFlags f t s).curDsym = s.curDsym ∧ (headerFlags f t s).curLen = s.curLen ∧
    (headerFlags f t s).curDist = s.curDist ∧ (headerFlags f t s).copyRem = s.copyRem ∧
    (headerFlags f t s).hist = s.hist ∧ (headerFlags f t s).wp = s.wp ∧ (headerFlags f t s).filled = s.filled ∧
    (headerFlags f t s).errCode = s.errCode ∧ (headerFlags f t s).errInfo = s.errInfo ∧
    (headerFlags f t s).inReady = s.inReady ∧ (headerFlags f t s).outValid = s.outValid ∧
    (headerFlags f t s).outData = s.outData ∧ (headerFlags f t s).input = s.input ∧
    (headerFlags f t s).inEnd = s.inEnd ∧ (headerFlags f t s).outReady = s.outReady ∧
    (headerFlags f t s).cfgWlog2 = s.cfgWlog2 ∧ (headerFlags f t s).start = s.start ∧
    (headerFlags f t s).rst = s.rst ∧ (headerFlags f t s).output = s.output ∧
    (headerFlags f t s).cursor = s.cursor ∧ (headerFlags f t s).freeCtr = s.freeCtr := by
  exact ⟨rfl, rfl, rfl, rfl, rfl, rfl, rfl, rfl, rfl, rfl, rfl, rfl, rfl, rfl, rfl, rfl, rfl, rfl, rfl, rfl,
    rfl, rfl, rfl, rfl, rfl, rfl, rfl, rfl, rfl, rfl, rfl, rfl, rfl, rfl, rfl, rfl, rfl, rfl, rfl, rfl,
    rfl, rfl⟩

@[simp] theorem headerFlags_windowSize (f : Bool) (t : BitVec 2) (s : State) : (headerFlags f t s).windowSize = s.windowSize := rfl

/-- What `setLength` writes. -/
@[simp] theorem setLength_writes (l : Nat) (s : State) :
  (setLength l s).fsm = .huffSym .dist ∧ (setLength l s).curLen = BitVec.ofNat 9 l := by
  exact ⟨rfl, rfl⟩

/-- What `setLength` leaves alone. -/
@[simp] theorem setLength_keeps (l : Nat) (s : State) :
  (setLength l s).wlog2 = s.wlog2 ∧ (setLength l s).bfinal = s.bfinal ∧ (setLength l s).btype = s.btype ∧
    (setLength l s).bitbuf = s.bitbuf ∧ (setLength l s).bitcnt = s.bitcnt ∧ (setLength l s).fldAcc = s.fldAcc ∧
    (setLength l s).fldCnt = s.fldCnt ∧ (setLength l s).walkBits = s.walkBits ∧
    (setLength l s).walkLen = s.walkLen ∧ (setLength l s).storedLen = s.storedLen ∧
    (setLength l s).storedNlen = s.storedNlen ∧ (setLength l s).storedRem = s.storedRem ∧
    (setLength l s).hlit = s.hlit ∧ (setLength l s).hdist = s.hdist ∧ (setLength l s).hclen = s.hclen ∧
    (setLength l s).clLen = s.clLen ∧ (setLength l s).lens = s.lens ∧ (setLength l s).lenIdx = s.lenIdx ∧
    (setLength l s).llLen = s.llLen ∧ (setLength l s).dLen = s.dLen ∧ (setLength l s).tsel = s.tsel ∧
    (setLength l s).curSym = s.curSym ∧ (setLength l s).curDsym = s.curDsym ∧ (setLength l s).curDist = s.curDist ∧
    (setLength l s).copyRem = s.copyRem ∧ (setLength l s).hist = s.hist ∧ (setLength l s).wp = s.wp ∧
    (setLength l s).filled = s.filled ∧ (setLength l s).errCode = s.errCode ∧ (setLength l s).errInfo = s.errInfo ∧
    (setLength l s).inReady = s.inReady ∧ (setLength l s).outValid = s.outValid ∧
    (setLength l s).outData = s.outData ∧ (setLength l s).input = s.input ∧ (setLength l s).inEnd = s.inEnd ∧
    (setLength l s).outReady = s.outReady ∧ (setLength l s).cfgWlog2 = s.cfgWlog2 ∧
    (setLength l s).start = s.start ∧ (setLength l s).rst = s.rst ∧ (setLength l s).output = s.output ∧
    (setLength l s).cursor = s.cursor ∧ (setLength l s).freeCtr = s.freeCtr := by
  exact ⟨rfl, rfl, rfl, rfl, rfl, rfl, rfl, rfl, rfl, rfl, rfl, rfl, rfl, rfl, rfl, rfl, rfl, rfl, rfl, rfl,
    rfl, rfl, rfl, rfl, rfl, rfl, rfl, rfl, rfl, rfl, rfl, rfl, rfl, rfl, rfl, rfl, rfl, rfl, rfl, rfl,
    rfl, rfl⟩

@[simp] theorem setLength_windowSize (l : Nat) (s : State) : (setLength l s).windowSize = s.windowSize := rfl

/-- What `setDistance` writes. -/
@[simp] theorem setDistance_writes (d : Nat) (s : State) :
  (setDistance d s).fsm = .huffSym (.op (opBackrefWord s.curLen.toNat (BitVec.ofNat 16 d).toNat)) ∧
    (setDistance d s).curDist = BitVec.ofNat 16 d := by
  exact ⟨rfl, rfl⟩

/-- What `setDistance` leaves alone. -/
@[simp] theorem setDistance_keeps (d : Nat) (s : State) :
  (setDistance d s).wlog2 = s.wlog2 ∧ (setDistance d s).bfinal = s.bfinal ∧ (setDistance d s).btype = s.btype ∧
    (setDistance d s).bitbuf = s.bitbuf ∧ (setDistance d s).bitcnt = s.bitcnt ∧
    (setDistance d s).fldAcc = s.fldAcc ∧ (setDistance d s).fldCnt = s.fldCnt ∧
    (setDistance d s).walkBits = s.walkBits ∧ (setDistance d s).walkLen = s.walkLen ∧
    (setDistance d s).storedLen = s.storedLen ∧ (setDistance d s).storedNlen = s.storedNlen ∧
    (setDistance d s).storedRem = s.storedRem ∧ (setDistance d s).hlit = s.hlit ∧
    (setDistance d s).hdist = s.hdist ∧ (setDistance d s).hclen = s.hclen ∧ (setDistance d s).clLen = s.clLen ∧
    (setDistance d s).lens = s.lens ∧ (setDistance d s).lenIdx = s.lenIdx ∧ (setDistance d s).llLen = s.llLen ∧
    (setDistance d s).dLen = s.dLen ∧ (setDistance d s).tsel = s.tsel ∧ (setDistance d s).curSym = s.curSym ∧
    (setDistance d s).curDsym = s.curDsym ∧ (setDistance d s).curLen = s.curLen ∧
    (setDistance d s).copyRem = s.copyRem ∧ (setDistance d s).hist = s.hist ∧ (setDistance d s).wp = s.wp ∧
    (setDistance d s).filled = s.filled ∧ (setDistance d s).errCode = s.errCode ∧
    (setDistance d s).errInfo = s.errInfo ∧ (setDistance d s).inReady = s.inReady ∧
    (setDistance d s).outValid = s.outValid ∧ (setDistance d s).outData = s.outData ∧
    (setDistance d s).input = s.input ∧ (setDistance d s).inEnd = s.inEnd ∧
    (setDistance d s).outReady = s.outReady ∧ (setDistance d s).cfgWlog2 = s.cfgWlog2 ∧
    (setDistance d s).start = s.start ∧ (setDistance d s).rst = s.rst ∧ (setDistance d s).output = s.output ∧
    (setDistance d s).cursor = s.cursor ∧ (setDistance d s).freeCtr = s.freeCtr := by
  exact ⟨rfl, rfl, rfl, rfl, rfl, rfl, rfl, rfl, rfl, rfl, rfl, rfl, rfl, rfl, rfl, rfl, rfl, rfl, rfl, rfl,
    rfl, rfl, rfl, rfl, rfl, rfl, rfl, rfl, rfl, rfl, rfl, rfl, rfl, rfl, rfl, rfl, rfl, rfl, rfl, rfl,
    rfl, rfl⟩

@[simp] theorem setDistance_windowSize (d : Nat) (s : State) : (setDistance d s).windowSize = s.windowSize := rfl

/-- What `writeRun` writes. -/
@[simp] theorem writeRun_writes (r : Nat) (v : BitVec 4) (s : State) :
  (writeRun r v s).fsm = .dynHdr .symbol ∧ (writeRun r v s).lens = fillLens r s.lenIdx.toNat v s.lens ∧
    (writeRun r v s).lenIdx = s.lenIdx + BitVec.ofNat 9 r := by
  exact ⟨rfl, rfl, rfl⟩

/-- What `writeRun` leaves alone. -/
@[simp] theorem writeRun_keeps (r : Nat) (v : BitVec 4) (s : State) :
  (writeRun r v s).wlog2 = s.wlog2 ∧ (writeRun r v s).bfinal = s.bfinal ∧ (writeRun r v s).btype = s.btype ∧
    (writeRun r v s).bitbuf = s.bitbuf ∧ (writeRun r v s).bitcnt = s.bitcnt ∧ (writeRun r v s).fldAcc = s.fldAcc ∧
    (writeRun r v s).fldCnt = s.fldCnt ∧ (writeRun r v s).walkBits = s.walkBits ∧
    (writeRun r v s).walkLen = s.walkLen ∧ (writeRun r v s).storedLen = s.storedLen ∧
    (writeRun r v s).storedNlen = s.storedNlen ∧ (writeRun r v s).storedRem = s.storedRem ∧
    (writeRun r v s).hlit = s.hlit ∧ (writeRun r v s).hdist = s.hdist ∧ (writeRun r v s).hclen = s.hclen ∧
    (writeRun r v s).clLen = s.clLen ∧ (writeRun r v s).llLen = s.llLen ∧ (writeRun r v s).dLen = s.dLen ∧
    (writeRun r v s).tsel = s.tsel ∧ (writeRun r v s).curSym = s.curSym ∧ (writeRun r v s).curDsym = s.curDsym ∧
    (writeRun r v s).curLen = s.curLen ∧ (writeRun r v s).curDist = s.curDist ∧
    (writeRun r v s).copyRem = s.copyRem ∧ (writeRun r v s).hist = s.hist ∧ (writeRun r v s).wp = s.wp ∧
    (writeRun r v s).filled = s.filled ∧ (writeRun r v s).errCode = s.errCode ∧
    (writeRun r v s).errInfo = s.errInfo ∧ (writeRun r v s).inReady = s.inReady ∧
    (writeRun r v s).outValid = s.outValid ∧ (writeRun r v s).outData = s.outData ∧
    (writeRun r v s).input = s.input ∧ (writeRun r v s).inEnd = s.inEnd ∧ (writeRun r v s).outReady = s.outReady ∧
    (writeRun r v s).cfgWlog2 = s.cfgWlog2 ∧ (writeRun r v s).start = s.start ∧ (writeRun r v s).rst = s.rst ∧
    (writeRun r v s).output = s.output ∧ (writeRun r v s).cursor = s.cursor ∧
    (writeRun r v s).freeCtr = s.freeCtr := by
  exact ⟨rfl, rfl, rfl, rfl, rfl, rfl, rfl, rfl, rfl, rfl, rfl, rfl, rfl, rfl, rfl, rfl, rfl, rfl, rfl, rfl,
    rfl, rfl, rfl, rfl, rfl, rfl, rfl, rfl, rfl, rfl, rfl, rfl, rfl, rfl, rfl, rfl, rfl, rfl, rfl, rfl,
    rfl⟩

@[simp] theorem writeRun_windowSize (r : Nat) (v : BitVec 4) (s : State) : (writeRun r v s).windowSize = s.windowSize := rfl

/-- What `setClLen` writes. -/
@[simp] theorem setClLen_writes (i x : Nat) (s : State) :
  (setClLen i x s).fsm = .dynHdr (.clLen (i + 1)) ∧
    (setClLen i x s).clLen = s.clLen.set (clOrder.getD i 0) (BitVec.ofNat 3 x) := by
  exact ⟨rfl, rfl⟩

/-- What `setClLen` leaves alone. -/
@[simp] theorem setClLen_keeps (i x : Nat) (s : State) :
  (setClLen i x s).wlog2 = s.wlog2 ∧ (setClLen i x s).bfinal = s.bfinal ∧ (setClLen i x s).btype = s.btype ∧
    (setClLen i x s).bitbuf = s.bitbuf ∧ (setClLen i x s).bitcnt = s.bitcnt ∧ (setClLen i x s).fldAcc = s.fldAcc ∧
    (setClLen i x s).fldCnt = s.fldCnt ∧ (setClLen i x s).walkBits = s.walkBits ∧
    (setClLen i x s).walkLen = s.walkLen ∧ (setClLen i x s).storedLen = s.storedLen ∧
    (setClLen i x s).storedNlen = s.storedNlen ∧ (setClLen i x s).storedRem = s.storedRem ∧
    (setClLen i x s).hlit = s.hlit ∧ (setClLen i x s).hdist = s.hdist ∧ (setClLen i x s).hclen = s.hclen ∧
    (setClLen i x s).lens = s.lens ∧ (setClLen i x s).lenIdx = s.lenIdx ∧ (setClLen i x s).llLen = s.llLen ∧
    (setClLen i x s).dLen = s.dLen ∧ (setClLen i x s).tsel = s.tsel ∧ (setClLen i x s).curSym = s.curSym ∧
    (setClLen i x s).curDsym = s.curDsym ∧ (setClLen i x s).curLen = s.curLen ∧
    (setClLen i x s).curDist = s.curDist ∧ (setClLen i x s).copyRem = s.copyRem ∧ (setClLen i x s).hist = s.hist ∧
    (setClLen i x s).wp = s.wp ∧ (setClLen i x s).filled = s.filled ∧ (setClLen i x s).errCode = s.errCode ∧
    (setClLen i x s).errInfo = s.errInfo ∧ (setClLen i x s).inReady = s.inReady ∧
    (setClLen i x s).outValid = s.outValid ∧ (setClLen i x s).outData = s.outData ∧
    (setClLen i x s).input = s.input ∧ (setClLen i x s).inEnd = s.inEnd ∧ (setClLen i x s).outReady = s.outReady ∧
    (setClLen i x s).cfgWlog2 = s.cfgWlog2 ∧ (setClLen i x s).start = s.start ∧ (setClLen i x s).rst = s.rst ∧
    (setClLen i x s).output = s.output ∧ (setClLen i x s).cursor = s.cursor ∧
    (setClLen i x s).freeCtr = s.freeCtr := by
  exact ⟨rfl, rfl, rfl, rfl, rfl, rfl, rfl, rfl, rfl, rfl, rfl, rfl, rfl, rfl, rfl, rfl, rfl, rfl, rfl, rfl,
    rfl, rfl, rfl, rfl, rfl, rfl, rfl, rfl, rfl, rfl, rfl, rfl, rfl, rfl, rfl, rfl, rfl, rfl, rfl, rfl,
    rfl, rfl⟩

@[simp] theorem setClLen_windowSize (i x : Nat) (s : State) : (setClLen i x s).windowSize = s.windowSize := rfl

/-- What `splitLens` writes. -/
@[simp] theorem splitLens_writes (s : State) :

    (splitLens s).llLen = ((List.range Config.nLitLen).map fun i => if i < s.hlit.toNat then s.lens.getD i 0 else 0) ∧
    (splitLens s).dLen = ((List.range Config.nDist).map fun i => if i < s.hdist.toNat then s.lens.getD (s.hlit.toNat + i) 0 else 0) := by
  exact ⟨rfl, rfl⟩

/-- What `splitLens` leaves alone. -/
@[simp] theorem splitLens_keeps (s : State) :
  (splitLens s).fsm = s.fsm ∧ (splitLens s).wlog2 = s.wlog2 ∧ (splitLens s).bfinal = s.bfinal ∧
    (splitLens s).btype = s.btype ∧ (splitLens s).bitbuf = s.bitbuf ∧ (splitLens s).bitcnt = s.bitcnt ∧
    (splitLens s).fldAcc = s.fldAcc ∧ (splitLens s).fldCnt = s.fldCnt ∧ (splitLens s).walkBits = s.walkBits ∧
    (splitLens s).walkLen = s.walkLen ∧ (splitLens s).storedLen = s.storedLen ∧
    (splitLens s).storedNlen = s.storedNlen ∧ (splitLens s).storedRem = s.storedRem ∧ (splitLens s).hlit = s.hlit ∧
    (splitLens s).hdist = s.hdist ∧ (splitLens s).hclen = s.hclen ∧ (splitLens s).clLen = s.clLen ∧
    (splitLens s).lens = s.lens ∧ (splitLens s).lenIdx = s.lenIdx ∧ (splitLens s).tsel = s.tsel ∧
    (splitLens s).curSym = s.curSym ∧ (splitLens s).curDsym = s.curDsym ∧ (splitLens s).curLen = s.curLen ∧
    (splitLens s).curDist = s.curDist ∧ (splitLens s).copyRem = s.copyRem ∧ (splitLens s).hist = s.hist ∧
    (splitLens s).wp = s.wp ∧ (splitLens s).filled = s.filled ∧ (splitLens s).errCode = s.errCode ∧
    (splitLens s).errInfo = s.errInfo ∧ (splitLens s).inReady = s.inReady ∧ (splitLens s).outValid = s.outValid ∧
    (splitLens s).outData = s.outData ∧ (splitLens s).input = s.input ∧ (splitLens s).inEnd = s.inEnd ∧
    (splitLens s).outReady = s.outReady ∧ (splitLens s).cfgWlog2 = s.cfgWlog2 ∧ (splitLens s).start = s.start ∧
    (splitLens s).rst = s.rst ∧ (splitLens s).output = s.output ∧ (splitLens s).cursor = s.cursor ∧
    (splitLens s).freeCtr = s.freeCtr := by
  exact ⟨rfl, rfl, rfl, rfl, rfl, rfl, rfl, rfl, rfl, rfl, rfl, rfl, rfl, rfl, rfl, rfl, rfl, rfl, rfl, rfl,
    rfl, rfl, rfl, rfl, rfl, rfl, rfl, rfl, rfl, rfl, rfl, rfl, rfl, rfl, rfl, rfl, rfl, rfl, rfl, rfl,
    rfl, rfl⟩

@[simp] theorem splitLens_windowSize (s : State) : (splitLens s).windowSize = s.windowSize := rfl

/-- What `copyReturn` writes. -/
@[simp] theorem copyReturn_writes (s : State) :
  (copyReturn s).fsm = (if s.copyRem = 1 then .huffSym .symbol else .copy) ∧
    (copyReturn s).copyRem = s.copyRem - 1 := by
  exact ⟨rfl, rfl⟩

/-- What `copyReturn` leaves alone. -/
@[simp] theorem copyReturn_keeps (s : State) :
  (copyReturn s).wlog2 = s.wlog2 ∧ (copyReturn s).bfinal = s.bfinal ∧ (copyReturn s).btype = s.btype ∧
    (copyReturn s).bitbuf = s.bitbuf ∧ (copyReturn s).bitcnt = s.bitcnt ∧ (copyReturn s).fldAcc = s.fldAcc ∧
    (copyReturn s).fldCnt = s.fldCnt ∧ (copyReturn s).walkBits = s.walkBits ∧ (copyReturn s).walkLen = s.walkLen ∧
    (copyReturn s).storedLen = s.storedLen ∧ (copyReturn s).storedNlen = s.storedNlen ∧
    (copyReturn s).storedRem = s.storedRem ∧ (copyReturn s).hlit = s.hlit ∧ (copyReturn s).hdist = s.hdist ∧
    (copyReturn s).hclen = s.hclen ∧ (copyReturn s).clLen = s.clLen ∧ (copyReturn s).lens = s.lens ∧
    (copyReturn s).lenIdx = s.lenIdx ∧ (copyReturn s).llLen = s.llLen ∧ (copyReturn s).dLen = s.dLen ∧
    (copyReturn s).tsel = s.tsel ∧ (copyReturn s).curSym = s.curSym ∧ (copyReturn s).curDsym = s.curDsym ∧
    (copyReturn s).curLen = s.curLen ∧ (copyReturn s).curDist = s.curDist ∧ (copyReturn s).hist = s.hist ∧
    (copyReturn s).wp = s.wp ∧ (copyReturn s).filled = s.filled ∧ (copyReturn s).errCode = s.errCode ∧
    (copyReturn s).errInfo = s.errInfo ∧ (copyReturn s).inReady = s.inReady ∧
    (copyReturn s).outValid = s.outValid ∧ (copyReturn s).outData = s.outData ∧ (copyReturn s).input = s.input ∧
    (copyReturn s).inEnd = s.inEnd ∧ (copyReturn s).outReady = s.outReady ∧ (copyReturn s).cfgWlog2 = s.cfgWlog2 ∧
    (copyReturn s).start = s.start ∧ (copyReturn s).rst = s.rst ∧ (copyReturn s).output = s.output ∧
    (copyReturn s).cursor = s.cursor ∧ (copyReturn s).freeCtr = s.freeCtr := by
  exact ⟨rfl, rfl, rfl, rfl, rfl, rfl, rfl, rfl, rfl, rfl, rfl, rfl, rfl, rfl, rfl, rfl, rfl, rfl, rfl, rfl,
    rfl, rfl, rfl, rfl, rfl, rfl, rfl, rfl, rfl, rfl, rfl, rfl, rfl, rfl, rfl, rfl, rfl, rfl, rfl, rfl,
    rfl, rfl⟩

@[simp] theorem copyReturn_windowSize (s : State) : (copyReturn s).windowSize = s.windowSize := rfl

/-- What `dropStart` writes. -/
@[simp] theorem dropStart_writes (s : State) :
    (dropStart s).start = false := rfl

/-- What `dropStart` leaves alone. -/
@[simp] theorem dropStart_keeps (s : State) :
  (dropStart s).fsm = s.fsm ∧ (dropStart s).wlog2 = s.wlog2 ∧ (dropStart s).bfinal = s.bfinal ∧
    (dropStart s).btype = s.btype ∧ (dropStart s).bitbuf = s.bitbuf ∧ (dropStart s).bitcnt = s.bitcnt ∧
    (dropStart s).fldAcc = s.fldAcc ∧ (dropStart s).fldCnt = s.fldCnt ∧ (dropStart s).walkBits = s.walkBits ∧
    (dropStart s).walkLen = s.walkLen ∧ (dropStart s).storedLen = s.storedLen ∧
    (dropStart s).storedNlen = s.storedNlen ∧ (dropStart s).storedRem = s.storedRem ∧ (dropStart s).hlit = s.hlit ∧
    (dropStart s).hdist = s.hdist ∧ (dropStart s).hclen = s.hclen ∧ (dropStart s).clLen = s.clLen ∧
    (dropStart s).lens = s.lens ∧ (dropStart s).lenIdx = s.lenIdx ∧ (dropStart s).llLen = s.llLen ∧
    (dropStart s).dLen = s.dLen ∧ (dropStart s).tsel = s.tsel ∧ (dropStart s).curSym = s.curSym ∧
    (dropStart s).curDsym = s.curDsym ∧ (dropStart s).curLen = s.curLen ∧ (dropStart s).curDist = s.curDist ∧
    (dropStart s).copyRem = s.copyRem ∧ (dropStart s).hist = s.hist ∧ (dropStart s).wp = s.wp ∧
    (dropStart s).filled = s.filled ∧ (dropStart s).errCode = s.errCode ∧ (dropStart s).errInfo = s.errInfo ∧
    (dropStart s).inReady = s.inReady ∧ (dropStart s).outValid = s.outValid ∧ (dropStart s).outData = s.outData ∧
    (dropStart s).input = s.input ∧ (dropStart s).inEnd = s.inEnd ∧ (dropStart s).outReady = s.outReady ∧
    (dropStart s).cfgWlog2 = s.cfgWlog2 ∧ (dropStart s).rst = s.rst ∧ (dropStart s).output = s.output ∧
    (dropStart s).cursor = s.cursor ∧ (dropStart s).freeCtr = s.freeCtr := by
  exact ⟨rfl, rfl, rfl, rfl, rfl, rfl, rfl, rfl, rfl, rfl, rfl, rfl, rfl, rfl, rfl, rfl, rfl, rfl, rfl, rfl,
    rfl, rfl, rfl, rfl, rfl, rfl, rfl, rfl, rfl, rfl, rfl, rfl, rfl, rfl, rfl, rfl, rfl, rfl, rfl, rfl,
    rfl, rfl, rfl⟩

@[simp] theorem dropStart_windowSize (s : State) : (dropStart s).windowSize = s.windowSize := rfl

/-- What `offer` writes. -/
@[simp] theorem offer_writes (s : State) (l : List Byte) :
    (s.offer l).input = s.input ++ l := rfl

/-- What `offer` leaves alone. -/
@[simp] theorem offer_keeps (s : State) (l : List Byte) :
  (s.offer l).fsm = s.fsm ∧ (s.offer l).wlog2 = s.wlog2 ∧ (s.offer l).bfinal = s.bfinal ∧
    (s.offer l).btype = s.btype ∧ (s.offer l).bitbuf = s.bitbuf ∧ (s.offer l).bitcnt = s.bitcnt ∧
    (s.offer l).fldAcc = s.fldAcc ∧ (s.offer l).fldCnt = s.fldCnt ∧ (s.offer l).walkBits = s.walkBits ∧
    (s.offer l).walkLen = s.walkLen ∧ (s.offer l).storedLen = s.storedLen ∧ (s.offer l).storedNlen = s.storedNlen ∧
    (s.offer l).storedRem = s.storedRem ∧ (s.offer l).hlit = s.hlit ∧ (s.offer l).hdist = s.hdist ∧
    (s.offer l).hclen = s.hclen ∧ (s.offer l).clLen = s.clLen ∧ (s.offer l).lens = s.lens ∧
    (s.offer l).lenIdx = s.lenIdx ∧ (s.offer l).llLen = s.llLen ∧ (s.offer l).dLen = s.dLen ∧
    (s.offer l).tsel = s.tsel ∧ (s.offer l).curSym = s.curSym ∧ (s.offer l).curDsym = s.curDsym ∧
    (s.offer l).curLen = s.curLen ∧ (s.offer l).curDist = s.curDist ∧ (s.offer l).copyRem = s.copyRem ∧
    (s.offer l).hist = s.hist ∧ (s.offer l).wp = s.wp ∧ (s.offer l).filled = s.filled ∧
    (s.offer l).errCode = s.errCode ∧ (s.offer l).errInfo = s.errInfo ∧ (s.offer l).inReady = s.inReady ∧
    (s.offer l).outValid = s.outValid ∧ (s.offer l).outData = s.outData ∧ (s.offer l).inEnd = s.inEnd ∧
    (s.offer l).outReady = s.outReady ∧ (s.offer l).cfgWlog2 = s.cfgWlog2 ∧ (s.offer l).start = s.start ∧
    (s.offer l).rst = s.rst ∧ (s.offer l).output = s.output ∧ (s.offer l).cursor = s.cursor ∧
    (s.offer l).freeCtr = s.freeCtr := by
  exact ⟨rfl, rfl, rfl, rfl, rfl, rfl, rfl, rfl, rfl, rfl, rfl, rfl, rfl, rfl, rfl, rfl, rfl, rfl, rfl, rfl,
    rfl, rfl, rfl, rfl, rfl, rfl, rfl, rfl, rfl, rfl, rfl, rfl, rfl, rfl, rfl, rfl, rfl, rfl, rfl, rfl,
    rfl, rfl, rfl⟩

@[simp] theorem offer_windowSize (s : State) (l : List Byte) : (s.offer l).windowSize = s.windowSize := rfl

/-- What `accept` writes. -/
@[simp] theorem accept_writes (s : State) :
    s.accept.outReady = true := rfl

/-- What `accept` leaves alone. -/
@[simp] theorem accept_keeps (s : State) :
  s.accept.fsm = s.fsm ∧ s.accept.wlog2 = s.wlog2 ∧ s.accept.bfinal = s.bfinal ∧ s.accept.btype = s.btype ∧
    s.accept.bitbuf = s.bitbuf ∧ s.accept.bitcnt = s.bitcnt ∧ s.accept.fldAcc = s.fldAcc ∧
    s.accept.fldCnt = s.fldCnt ∧ s.accept.walkBits = s.walkBits ∧ s.accept.walkLen = s.walkLen ∧
    s.accept.storedLen = s.storedLen ∧ s.accept.storedNlen = s.storedNlen ∧ s.accept.storedRem = s.storedRem ∧
    s.accept.hlit = s.hlit ∧ s.accept.hdist = s.hdist ∧ s.accept.hclen = s.hclen ∧ s.accept.clLen = s.clLen ∧
    s.accept.lens = s.lens ∧ s.accept.lenIdx = s.lenIdx ∧ s.accept.llLen = s.llLen ∧ s.accept.dLen = s.dLen ∧
    s.accept.tsel = s.tsel ∧ s.accept.curSym = s.curSym ∧ s.accept.curDsym = s.curDsym ∧
    s.accept.curLen = s.curLen ∧ s.accept.curDist = s.curDist ∧ s.accept.copyRem = s.copyRem ∧
    s.accept.hist = s.hist ∧ s.accept.wp = s.wp ∧ s.accept.filled = s.filled ∧ s.accept.errCode = s.errCode ∧
    s.accept.errInfo = s.errInfo ∧ s.accept.inReady = s.inReady ∧ s.accept.outValid = s.outValid ∧
    s.accept.outData = s.outData ∧ s.accept.input = s.input ∧ s.accept.inEnd = s.inEnd ∧
    s.accept.cfgWlog2 = s.cfgWlog2 ∧ s.accept.start = s.start ∧ s.accept.rst = s.rst ∧ s.accept.output = s.output ∧
    s.accept.cursor = s.cursor ∧ s.accept.freeCtr = s.freeCtr := by
  exact ⟨rfl, rfl, rfl, rfl, rfl, rfl, rfl, rfl, rfl, rfl, rfl, rfl, rfl, rfl, rfl, rfl, rfl, rfl, rfl, rfl,
    rfl, rfl, rfl, rfl, rfl, rfl, rfl, rfl, rfl, rfl, rfl, rfl, rfl, rfl, rfl, rfl, rfl, rfl, rfl, rfl,
    rfl, rfl, rfl⟩

@[simp] theorem accept_windowSize (s : State) : s.accept.windowSize = s.windowSize := rfl

/-! ## The canonical form at reset -/

/-- Reset memory is canonical. -/
theorem reset_hist_wf : State.reset.hist.wf = true := rfl

end Sys2Proof.Machine
end

