-- ==== Sys2Proof/Laws/BitSource.lean ====
section
/-! SUPPORT. The Bit Source: what `read_bit()` and `read_bits(n)` deliver, consume and leave alone. -/

namespace Sys2Proof.Machine

/-- `t` is `s` but for what a read of input may change: the bit buffer, the input, the cursor and `in_ready`. -/
def onlyInput (s t : State) : Prop :=
  t = { s with bitbuf := t.bitbuf, bitcnt := t.bitcnt, input := t.input, cursor := t.cursor, inReady := t.inReady }

theorem onlyInput_trans {s t u : State} (h : onlyInput s t) (h' : onlyInput t u) : onlyInput s u := by
  unfold onlyInput at *
  rw [h', h]

theorem bufferedBits_length (s : State) : s.bufferedBits.length = s.bitcnt.toNat := by
  simp [State.bufferedBits]

/-- With bits buffered, the next one is `bitbuf[0]` and the shift leaves the rest. -/
theorem bufferedBits_cons (s : State) (h : s.bitcnt ≠ 0) :
    s.bufferedBits =
      s.bitbuf.getLsbD 0 :: { s with bitbuf := s.bitbuf >>> 1, bitcnt := s.bitcnt - 1 }.bufferedBits := by
  have hn : s.bitcnt.toNat ≠ 0 := fun e => h (BitVec.eq_of_toNat_eq (by simpa using e))
  have hm : (s.bitcnt - 1).toNat + 1 = s.bitcnt.toNat := by
    have h1 := s.bitcnt.isLt
    rw [BitVec.toNat_sub]
    change (2 ^ 4 - 1 + s.bitcnt.toNat) % 2 ^ 4 + 1 = _
    omega
  unfold State.bufferedBits
  rw [← hm, List.range_succ_eq_map, List.map_cons, List.map_map]
  congr 1
  apply List.map_congr_left
  intro i _
  simp [BitVec.getLsbD_ushiftRight, Nat.add_comm]

theorem takeBit_unread (s : State) (h : s.bitcnt ≠ 0) :
    ∃ t, takeBit s = .done (s.bitbuf.getLsbD 0) t ∧ s.unread = s.bitbuf.getLsbD 0 :: t.unread ∧ onlyInput s t ∧
      t.inReady = false ∧ t.input = s.input ∧ t.cursor = s.cursor ∧ t.bitcnt = s.bitcnt - 1 ∧
      t.bitbuf = s.bitbuf >>> 1 := by
  refine ⟨_, rfl, ?_, rfl, rfl, rfl, rfl, rfl, rfl⟩
  unfold State.unread
  rw [bufferedBits_cons s h]
  rfl

/-- Everything `read_bit()` can do (R131, R132). -/
theorem readBit_cases (s : State) :
    (∃ b t, readBit s = .done b t ∧ s.unread = b :: t.unread ∧ onlyInput s t ∧ t.inReady = false) ∨
    (s.bitcnt = 0 ∧ s.input = [] ∧ s.inEnd = false ∧ readBit s = .hold { s with inReady := true }) ∨
    (s.bitcnt = 0 ∧ s.input = [] ∧ s.inEnd = true ∧ readBit s = .failed (raise .ioFailure 0 s)) := by
  unfold readBit
  by_cases h : s.bitcnt = 0
  · rw [if_pos h]
    unfold readByte
    cases hi : s.input with
    | nil => cases he : s.inEnd <;> simp [h]
    | cons b rest =>
      left
      obtain ⟨t, ht, hu, hf, hr, -⟩ :=
        takeBit_unread (loadByte b { s with input := rest, cursor := s.cursor + 1, inReady := false })
          (show (8 : BitVec 4) ≠ 0 by decide)
      refine ⟨_, t, ht, ?_, ?_, hr⟩
      · rw [← hu]
        unfold State.unread State.bufferedBits
        simp [h, hi, byteBits, loadByte]
      · unfold onlyInput at hf ⊢
        rw [hf]
        rfl
  · rw [if_neg h]
    obtain ⟨t, ht, hu, hf, hr, -⟩ := takeBit_unread s h
    exact .inl ⟨_, t, ht, hu, hf, hr⟩

/-- `read_bit()` succeeds exactly when a bit is there. -/
theorem readBit_of_unread {s : State} {b : Bool} {bs : List Bool} (h : s.unread = b :: bs) :
    ∃ t, readBit s = .done b t ∧ t.unread = bs ∧ onlyInput s t ∧ t.inReady = false := by
  rcases readBit_cases s with ⟨b', t, ht, hu, hf⟩ | ⟨h0, hi, -⟩ | ⟨h0, hi, -⟩
  · rw [h, List.cons.injEq] at hu
    obtain ⟨rfl, rfl⟩ := hu
    exact ⟨t, ht, rfl, hf⟩
  all_goals simp [State.unread, State.bufferedBits, h0, hi] at h

/-- `t` is `s` but for what collecting a field may change. -/
def onlyField (s t : State) : Prop :=
  t = { s with
    bitbuf := t.bitbuf, bitcnt := t.bitcnt, input := t.input, cursor := t.cursor, inReady := t.inReady
    fldAcc := t.fldAcc, fldCnt := t.fldCnt }

theorem onlyField_of_onlyInput {s t : State} (h : onlyInput s t) : onlyField s t := by
  unfold onlyInput onlyField at *
  rw [h]

theorem onlyField_trans {s t u : State} (h : onlyField s t) (h' : onlyField t u) : onlyField s u := by
  unfold onlyField at *
  rw [h', h]

theorem or_shift_eq_add {a b k : Nat} (h : a < 2 ^ k) : a ||| b <<< k = a + 2 ^ k * b := by
  rw [Nat.shiftLeft_eq, Nat.mul_comm b, Nat.or_comm, ← Nat.two_pow_add_eq_or_of_lt h, Nat.add_comm]

theorem pushFieldBit_only (b : Bool) (s : State) : onlyField s (pushFieldBit b s) := rfl

theorem beginField_only (s : State) : onlyField s (beginField s) := by
  unfold beginField
  split <;> rfl

/-- One more bit in the accumulator (R133). -/
theorem fldAcc_append (acc : BitVec 16) (cnt : Nat) (b : Bool) (hc : cnt < 16) (ha : acc.toNat < 2 ^ cnt) :
    (acc ||| ((BitVec.ofBool b).setWidth 16 <<< cnt)).toNat = acc.toNat + 2 ^ cnt * b.toNat := by
  rw [BitVec.toNat_or, BitVec.toNat_shiftLeft, ← or_shift_eq_add ha]
  congr 1
  have h2 : 2 ^ cnt < 2 ^ 16 := Nat.pow_lt_pow_right (by omega) hc
  cases b
  · simp
  · change (1 <<< cnt) % 2 ^ 16 = 1 <<< cnt
    rw [Nat.shiftLeft_eq, Nat.one_mul, Nat.mod_eq_of_lt h2]

/-- The loop of `read_bits` when its bits are there: what it collects, consumes and leaves alone. -/
theorem collectBits_of_unread (k : Nat) : ∀ (s : State) (bs rest : List Bool), s.unread = bs ++ rest → bs.length = k →
    s.fldCnt.toNat + k ≤ 16 → s.fldAcc.toNat < 2 ^ s.fldCnt.toNat →
    ∃ t, collectBits k s = .done () t ∧ t.unread = rest ∧ onlyField s t ∧ t.inReady = false ∧
      t.fldCnt.toNat = s.fldCnt.toNat + k ∧ t.fldAcc.toNat = s.fldAcc.toNat + 2 ^ s.fldCnt.toNat * fieldValue bs := by
  induction k with
  | zero =>
    intro s bs rest hu hb _ _
    obtain rfl := List.length_eq_zero_iff.1 hb
    exact ⟨_, rfl, hu, rfl, rfl, rfl, by simp [fieldValue]⟩
  | succ k ih =>
    intro s bs rest hu hb hc ha
    cases bs with
    | nil => simp at hb
    | cons b bs =>
      simp only [List.length_cons, Nat.add_right_cancel_iff] at hb
      obtain ⟨s', hr, hu', hf, hi⟩ := readBit_of_unread (b := b) (bs := bs ++ rest) hu
      have hf1 : s'.fldAcc = s.fldAcc := by rw [hf]
      have hf2 : s'.fldCnt = s.fldCnt := by rw [hf]
      let s'' : State := pushFieldBit b s'
      have hc' : s''.fldCnt.toNat = s.fldCnt.toNat + 1 := by
        change (s'.fldCnt + 1).toNat = _
        have := s.fldCnt.isLt
        rw [hf2, BitVec.toNat_add]
        change (s.fldCnt.toNat + 1) % 2 ^ 5 = _
        omega
      have ha' : s''.fldAcc.toNat = s.fldAcc.toNat + 2 ^ s.fldCnt.toNat * b.toNat := by
        change (s'.fldAcc ||| ((BitVec.ofBool b).setWidth 16 <<< s'.fldCnt.toNat)).toNat = _
        rw [hf1, hf2]
        exact fldAcc_append _ _ _ (by omega) ha
      have hlt : s''.fldAcc.toNat < 2 ^ s''.fldCnt.toNat := by
        rw [ha', hc', Nat.pow_succ]
        have : b.toNat ≤ 1 := by cases b <;> simp
        nlinarith [Nat.pos_of_neZero (2 ^ s.fldCnt.toNat)]
      obtain ⟨t, ht, hut, hft, hit, hct, hat⟩ := ih s'' bs rest hu' hb (by omega) hlt
      refine ⟨t, ?_, hut, onlyField_trans (onlyField_trans (onlyField_of_onlyInput hf) (pushFieldBit_only b s')) hft, hit, by omega, ?_⟩
      · simp only [collectBits, hr]
        exact ht
      · rw [hat, ha', hc', fieldValue]
        ring

theorem fieldValue_lt (bs : List Bool) : fieldValue bs < 2 ^ bs.length := by
  induction bs with
  | nil => simp [fieldValue]
  | cons b bs ih =>
    have : b.toNat ≤ 1 := by cases b <;> simp
    simp only [fieldValue, List.length_cons, Nat.pow_succ]
    omega

/-- `read_bits(n)` from its beginning, when its bits are there (R133): the value is the next `n` bits, first bit least
significant, and exactly they are consumed. -/
theorem readBits_of_unread {s : State} {n : Nat} (hr : s.inReady = false) (hn : n ≤ 16) (hu : n ≤ s.unread.length) :
    ∃ t, readBits n s = .done (fieldValue (s.unread.take n)) t ∧ t.unread = s.unread.drop n ∧ onlyField s t ∧
      t.inReady = false := by
  have hb : beginField s = { s with fldAcc := 0, fldCnt := 0 } := by simp [beginField, hr]
  have hc : (beginField s).fldCnt.toNat = 0 := by rw [hb]; rfl
  have ha : (beginField s).fldAcc.toNat = 0 := by rw [hb]; rfl
  have hu' : (beginField s).unread = s.unread := by rw [hb]; rfl
  obtain ⟨t, ht, hut, hft, hit, -, hat⟩ :=
    collectBits_of_unread n (beginField s) (s.unread.take n) (s.unread.drop n)
      (by rw [hu', List.take_append_drop]) (by simpa using hu) (by omega) (by rw [ha, hc]; simp)
  refine ⟨t, ?_, hut, onlyField_trans (beginField_only s) hft, hit⟩
  have hv : t.fldAcc.toNat = fieldValue (s.unread.take n) := by rw [hat, ha, hc]; simp
  have hlt := fieldValue_lt (s.unread.take n)
  rw [List.length_take_of_le hu] at hlt
  unfold readBits
  rw [hc, Nat.sub_zero, ht]
  simp only [hv, Nat.mod_eq_of_lt hlt]

/-- Everything the loop of `read_bits` can do, whatever it has collected before. -/
theorem collectBits_cases (k : Nat) : ∀ s : State,
    (∃ t, collectBits k s = .done () t ∧ onlyField s t ∧ t.inReady = false) ∨
    (∃ t, collectBits k s = .hold t ∧ onlyField s t ∧ t.inReady = true ∧ t.input = [] ∧ t.bitcnt = 0 ∧
      s.inEnd = false) ∨
    (∃ t, collectBits k s = .failed (raise .ioFailure 0 t) ∧ onlyField s t ∧ s.inEnd = true) := by
  induction k with
  | zero => intro s; exact .inl ⟨_, rfl, rfl, rfl⟩
  | succ k ih =>
    intro s
    rcases readBit_cases s with ⟨b, s', hr, -, hf, hi⟩ | ⟨h0, hi, he, hr⟩ | ⟨h0, hi, he, hr⟩
    · simp only [collectBits, hr]
      have he : s'.inEnd = s.inEnd := by rw [hf]
      have hf' := onlyField_of_onlyInput hf
      have hf'' := onlyField_trans hf' (pushFieldBit_only b s')
      rcases ih (pushFieldBit b s') with ⟨t, ht, hft, hit⟩ | ⟨t, ht, hft, hit, h1, h2, h3⟩ | ⟨t, ht, hft, h3⟩
      · exact .inl ⟨t, ht, onlyField_trans hf'' hft, hit⟩
      · exact .inr (.inl ⟨t, ht, onlyField_trans hf'' hft, hit, h1, h2, he ▸ h3⟩)
      · exact .inr (.inr ⟨t, ht, onlyField_trans hf'' hft, he ▸ h3⟩)
    · simp only [collectBits, hr]
      exact .inr (.inl ⟨_, rfl, rfl, rfl, hi, h0, he⟩)
    · simp only [collectBits, hr]
      exact .inr (.inr ⟨s, rfl, rfl, he⟩)

/-- Everything `read_bits(n)` can do: deliver a value below `2^n`, hold, or raise IO_FAILURE. -/
theorem readBits_cases (n : Nat) (s : State) :
    (∃ v t, readBits n s = .done v t ∧ v < 2 ^ n ∧ onlyField s t ∧ t.inReady = false) ∨
    (∃ t, readBits n s = .hold t ∧ onlyField s t ∧ t.inReady = true ∧ t.input = [] ∧ t.bitcnt = 0 ∧
      s.inEnd = false) ∨
    (∃ t, readBits n s = .failed (raise .ioFailure 0 t) ∧ onlyField s t ∧ s.inEnd = true) := by
  have h0 := beginField_only s
  have he : (beginField s).inEnd = s.inEnd := by rw [h0]
  unfold readBits
  rcases collectBits_cases (n - (beginField s).fldCnt.toNat) (beginField s) with
    ⟨t, ht, hf, hi⟩ | ⟨t, ht, hf, h1, h2, h3, h4⟩ | ⟨t, ht, hf, hi⟩
  · exact .inl ⟨_, t, by rw [ht], Nat.mod_lt _ (Nat.pos_of_neZero _), onlyField_trans h0 hf, hi⟩
  · exact .inr (.inl ⟨t, by rw [ht], onlyField_trans h0 hf, h1, h2, h3, he ▸ h4⟩)
  · exact .inr (.inr ⟨t, by rw [ht], onlyField_trans h0 hf, he ▸ hi⟩)

theorem unread_nil {s : State} (hi : s.input = []) (hc : s.bitcnt = 0) : s.unread = [] := by
  simp [State.unread, State.bufferedBits, hi, hc]

/-- The loop of `read_bits` when its bits are not all there: it takes every bit there is, then holds, or raises IO_FAILURE
once the input has ended (R62, R63, R138). -/
theorem collectBits_short (k : Nat) : ∀ s : State, s.unread.length < k →
    (s.inEnd = false → ∃ t, collectBits k s = .hold t ∧ t.unread = [] ∧ onlyField s t ∧ t.inReady = true) ∧
    (s.inEnd = true → ∃ t, collectBits k s = .failed (raise .ioFailure 0 t) ∧ t.unread = [] ∧ onlyField s t) := by
  induction k with
  | zero => intro s h; omega
  | succ k ih =>
    intro s h
    simp only [collectBits]
    rcases readBit_cases s with ⟨b, s', hr, hu, hf, -⟩ | ⟨h0, hi, he, hr⟩ | ⟨h0, hi, he, hr⟩
    · have hf' := onlyField_trans (onlyField_of_onlyInput hf) (pushFieldBit_only b s')
      have he : (pushFieldBit b s').inEnd = s.inEnd := by rw [hf']
      obtain ⟨h1, h2⟩ := ih (pushFieldBit b s') (by
        rw [hu, List.length_cons] at h
        change s'.unread.length < k
        omega)
      rw [he] at h1 h2
      simp only [hr]
      refine ⟨fun h => ?_, fun h => ?_⟩
      · obtain ⟨t, ht, hn, hft, hit⟩ := h1 h
        exact ⟨t, ht, hn, onlyField_trans hf' hft, hit⟩
      · obtain ⟨t, ht, hn, hft⟩ := h2 h
        exact ⟨t, ht, hn, onlyField_trans hf' hft⟩
    · simp only [hr]
      exact ⟨fun _ => ⟨_, rfl, unread_nil (s := { s with inReady := true }) hi h0, rfl, rfl⟩,
        fun h => absurd (he.symm.trans h) nofun⟩
    · simp only [hr]
      exact ⟨fun h => absurd (he.symm.trans h) nofun, fun _ => ⟨s, rfl, unread_nil hi h0, rfl⟩⟩

/-- `read_bits(n)` from its beginning, when its bits are not all there. -/
theorem readBits_short {s : State} {n : Nat} (hr : s.inReady = false) (hu : s.unread.length < n) :
    (s.inEnd = false → ∃ t, readBits n s = .hold t ∧ t.unread = [] ∧ onlyField s t ∧ t.inReady = true) ∧
    (s.inEnd = true → ∃ t, readBits n s = .failed (raise .ioFailure 0 t) ∧ t.unread = [] ∧ onlyField s t) := by
  have hb : beginField s = { s with fldAcc := 0, fldCnt := 0 } := by simp [beginField, hr]
  have hc : (beginField s).fldCnt.toNat = 0 := by rw [hb]; rfl
  have hu' : (beginField s).unread = s.unread := by rw [hb]; rfl
  have he : (beginField s).inEnd = s.inEnd := by rw [hb]
  obtain ⟨h1, h2⟩ := collectBits_short n (beginField s) (by rw [hu']; exact hu)
  rw [he] at h1 h2
  unfold readBits
  rw [hc, Nat.sub_zero]
  refine ⟨fun h => ?_, fun h => ?_⟩
  · obtain ⟨t, ht, hn, hf, hi⟩ := h1 h
    exact ⟨t, by rw [ht], hn, onlyField_trans (beginField_only s) hf, hi⟩
  · obtain ⟨t, ht, hn, hf⟩ := h2 h
    exact ⟨t, by rw [ht], hn, onlyField_trans (beginField_only s) hf⟩

/-- `read_bit()` when no bit is there. -/
theorem readBit_short {s : State} (hu : s.unread = []) :
    (s.inEnd = false → readBit s = .hold { s with inReady := true }) ∧
    (s.inEnd = true → readBit s = .failed (raise .ioFailure 0 s)) := by
  rcases readBit_cases s with ⟨b, t, -, h, -⟩ | ⟨-, -, he, hr⟩ | ⟨-, -, he, hr⟩
  · rw [hu] at h; exact absurd h nofun
  · exact ⟨fun _ => hr, fun h => absurd (he.symm.trans h) nofun⟩
  · exact ⟨fun h => absurd (he.symm.trans h) nofun, fun _ => hr⟩

end Sys2Proof.Machine
end

