-- ==== Sys2Proof/Laws/Huffman.lean ====
section
/-! SUPPORT. BUILD_TABLE in closed form: which rows a table has (R153, R154, R166). -/

namespace Sys2Proof.Machine

/-- The rows `assignCodes` makes: symbol `sym + i` gets the next free codeword of its length, after those of the earlier
symbols of that length. -/
theorem mem_assignCodes (lens : List Nat) : ∀ (sym : Nat) (next : List Nat), (∀ l ∈ lens, l < next.length) →
    ∀ e : TableEntry, e ∈ assignCodes lens sym next ↔
      ∃ i l, lens[i]? = some l ∧ l ≠ 0 ∧
        e = { sym := sym + i, bits := next.getD l 0 + (lens.take i).count l, len := l } := by
  induction lens with
  | nil => intro sym next _ e; simp [assignCodes]
  | cons l lens ih =>
    intro sym next hn e
    have hl : l < next.length := hn l List.mem_cons_self
    have hn' : ∀ x ∈ lens, x < next.length := fun x hx => hn x (List.mem_cons_of_mem _ hx)
    simp only [assignCodes]
    by_cases h0 : l = 0
    · rw [if_pos h0, ih (sym + 1) next hn']
      constructor
      · rintro ⟨i, m, hi, hm, rfl⟩
        refine ⟨i + 1, m, by simpa using hi, hm, ?_⟩
        have : l ≠ m := by omega
        simp only [List.take_succ_cons, List.count_cons, beq_iff_eq, this, if_false]
        congr 1
        omega
      · rintro ⟨i, m, hi, hm, rfl⟩
        cases i with
        | zero => simp at hi; omega
        | succ i =>
          refine ⟨i, m, by simpa using hi, hm, ?_⟩
          have : l ≠ m := by omega
          simp only [List.take_succ_cons, List.count_cons, beq_iff_eq, this, if_false]
          congr 1
          omega
    · rw [if_neg h0, List.mem_cons, ih (sym + 1) _ (by simpa using hn')]
      have hg : ∀ m, (next.set l (next.getD l 0 + 1)).getD m 0 = if l = m then next.getD l 0 + 1 else next.getD m 0 := by
        intro m
        by_cases hm : l = m
        · subst hm
          simp [List.getD_eq_getElem?_getD, hl]
        · simp [List.getD_eq_getElem?_getD, hm]
      constructor
      · rintro (rfl | ⟨i, m, hi, hm, rfl⟩)
        · exact ⟨0, l, by simp, h0, by simp⟩
        · refine ⟨i + 1, m, by simpa using hi, hm, ?_⟩
          simp only [hg, List.take_succ_cons, List.count_cons, beq_iff_eq]
          by_cases hlm : l = m
          · subst hlm
            simp only [if_true]
            congr 1 <;> omega
          · simp only [hlm, if_false]
            congr 1
            omega
      · rintro ⟨i, m, hi, hm, rfl⟩
        cases i with
        | zero =>
          left
          simp only [List.getElem?_cons_zero, Option.some.injEq] at hi
          subst hi
          simp
        | succ i =>
          refine .inr ⟨i, m, by simpa using hi, hm, ?_⟩
          simp only [hg, List.take_succ_cons, List.count_cons, beq_iff_eq]
          by_cases hlm : l = m
          · subst hlm
            simp only [if_true]
            congr 1 <;> omega
          · simp only [hlm, if_false]
            congr 1
            omega

/-- The rows of a table whose lengths are in range. -/
theorem mem_buildTable {lens : List Nat} {maxBits : Nat} (h : ∀ l ∈ lens, l ≤ maxBits) (e : TableEntry) :
    e ∈ buildTable lens maxBits ↔
      ∃ i l, lens[i]? = some l ∧ l ≠ 0 ∧
        e = { sym := i, bits := firstCode lens l + (lens.take i).count l, len := l } := by
  unfold buildTable
  rw [mem_assignCodes lens 0 _ (by intro l hl; simpa using Nat.lt_succ_of_le (h l hl))]
  constructor
  · rintro ⟨i, l, hi, hl, rfl⟩
    have hm := h l (List.mem_of_getElem? hi)
    refine ⟨i, l, hi, hl, ?_⟩
    simp [List.getD_eq_getElem?_getD, Nat.lt_succ_of_le hm]
  · rintro ⟨i, l, hi, hl, rfl⟩
    have hm := h l (List.mem_of_getElem? hi)
    refine ⟨i, l, hi, hl, ?_⟩
    simp [List.getD_eq_getElem?_getD, Nat.lt_succ_of_le hm]

/-- A symbol of a table is an index of its length array, whatever the lengths are. -/
theorem sym_lt_of_mem_assignCodes (lens : List Nat) : ∀ (sym : Nat) (next : List Nat) (e : TableEntry),
    e ∈ assignCodes lens sym next → e.sym < sym + lens.length := by
  induction lens with
  | nil => intro sym next e h; simp [assignCodes] at h
  | cons l lens ih =>
    intro sym next e h
    simp only [assignCodes] at h
    simp only [List.length_cons]
    split at h
    · have := ih _ _ _ h; omega
    · rcases List.mem_cons.1 h with rfl | h
      · simp
      · have := ih _ _ _ h; omega

theorem sym_lt_of_mem {lens : List Nat} {maxBits : Nat} {e : TableEntry} (h : e ∈ buildTable lens maxBits) :
    e.sym < lens.length := by
  simpa using sym_lt_of_mem_assignCodes lens 0 _ e h

/-- The first codeword of each length, scaled to the longest length, is the room the shorter codewords take. -/
theorem firstCode_scaled (lens : List Nat) (maxBits : Nat) : ∀ l ≤ maxBits,
    firstCode lens l * 2 ^ (maxBits - l) = ((List.range l).map fun j => lenCount lens j * 2 ^ (maxBits - j)).sum := by
  intro l
  induction l with
  | zero => intro _; simp [firstCode]
  | succ l ih =>
    intro hl
    rw [List.range_succ, List.map_append, List.sum_append, ← ih (by omega)]
    have h2 : 2 ^ (maxBits - l) = 2 * 2 ^ (maxBits - (l + 1)) := by
      rw [← Nat.pow_succ']
      congr 1
      omega
    simp only [firstCode, List.map_cons, List.map_nil, List.sum_cons, List.sum_nil, h2]
    ring

end Sys2Proof.Machine
end

