-- ==== Sys2Proof/Laws/PerInstr.lean ====
section
/-! SUPPORT. Facts about every instruction as syntax, one lemma per constructor. -/

namespace Sys2Proof.Laws.WordFits

/-- The word of a well-formed instruction fits its format's width (R91, R99, R101, R102, R107). -/
def Statement (i : Instr) : Prop :=
  i.wellFormed = true → (encode i).2.toNat < 2 ^ (encode i).1.width

theorem of_setWidth {n : Nat} (w : BitVec n) : (w.setWidth 25).toNat < 2 ^ n := by
  rw [BitVec.toNat_setWidth]
  exact (Nat.mod_le _ _).trans_lt w.isLt

theorem blockStored (final : Bool) : Statement (.blockStored final) := fun _ => of_setWidth _
theorem blockFixed (final : Bool) : Statement (.blockFixed final) := fun _ => of_setWidth _
theorem blockDynamic (final : Bool) : Statement (.blockDynamic final) := fun _ => of_setWidth _
theorem blockReserved (final : Bool) : Statement (.blockReserved final) := fun _ => of_setWidth _
theorem lit (b : Byte) : Statement (.lit b) := fun _ => (of_setWidth b).trans (show 2 ^ 8 < 2 ^ 9 by decide)
theorem eob : Statement .eob := fun _ => by decide
theorem len257 : Statement .len257 := fun _ => by decide
theorem len258 : Statement .len258 := fun _ => by decide
theorem len259 : Statement .len259 := fun _ => by decide
theorem len260 : Statement .len260 := fun _ => by decide
theorem len261 : Statement .len261 := fun _ => by decide
theorem len262 : Statement .len262 := fun _ => by decide
theorem len263 : Statement .len263 := fun _ => by decide
theorem len264 : Statement .len264 := fun _ => by decide
theorem len265 : Statement .len265 := fun _ => by decide
theorem len266 : Statement .len266 := fun _ => by decide
theorem len267 : Statement .len267 := fun _ => by decide
theorem len268 : Statement .len268 := fun _ => by decide
theorem len269 : Statement .len269 := fun _ => by decide
theorem len270 : Statement .len270 := fun _ => by decide
theorem len271 : Statement .len271 := fun _ => by decide
theorem len272 : Statement .len272 := fun _ => by decide
theorem len273 : Statement .len273 := fun _ => by decide
theorem len274 : Statement .len274 := fun _ => by decide
theorem len275 : Statement .len275 := fun _ => by decide
theorem len276 : Statement .len276 := fun _ => by decide
theorem len277 : Statement .len277 := fun _ => by decide
theorem len278 : Statement .len278 := fun _ => by decide
theorem len279 : Statement .len279 := fun _ => by decide
theorem len280 : Statement .len280 := fun _ => by decide
theorem len281 : Statement .len281 := fun _ => by decide
theorem len282 : Statement .len282 := fun _ => by decide
theorem len283 : Statement .len283 := fun _ => by decide
theorem len284 : Statement .len284 := fun _ => by decide
theorem len285 : Statement .len285 := fun _ => by decide
theorem len286 : Statement .len286 := fun _ => by decide
theorem len287 : Statement .len287 := fun _ => by decide
theorem dist0 : Statement .dist0 := fun _ => by decide
theorem dist1 : Statement .dist1 := fun _ => by decide
theorem dist2 : Statement .dist2 := fun _ => by decide
theorem dist3 : Statement .dist3 := fun _ => by decide
theorem dist4 : Statement .dist4 := fun _ => by decide
theorem dist5 : Statement .dist5 := fun _ => by decide
theorem dist6 : Statement .dist6 := fun _ => by decide
theorem dist7 : Statement .dist7 := fun _ => by decide
theorem dist8 : Statement .dist8 := fun _ => by decide
theorem dist9 : Statement .dist9 := fun _ => by decide
theorem dist10 : Statement .dist10 := fun _ => by decide
theorem dist11 : Statement .dist11 := fun _ => by decide
theorem dist12 : Statement .dist12 := fun _ => by decide
theorem dist13 : Statement .dist13 := fun _ => by decide
theorem dist14 : Statement .dist14 := fun _ => by decide
theorem dist15 : Statement .dist15 := fun _ => by decide
theorem dist16 : Statement .dist16 := fun _ => by decide
theorem dist17 : Statement .dist17 := fun _ => by decide
theorem dist18 : Statement .dist18 := fun _ => by decide
theorem dist19 : Statement .dist19 := fun _ => by decide
theorem dist20 : Statement .dist20 := fun _ => by decide
theorem dist21 : Statement .dist21 := fun _ => by decide
theorem dist22 : Statement .dist22 := fun _ => by decide
theorem dist23 : Statement .dist23 := fun _ => by decide
theorem dist24 : Statement .dist24 := fun _ => by decide
theorem dist25 : Statement .dist25 := fun _ => by decide
theorem dist26 : Statement .dist26 := fun _ => by decide
theorem dist27 : Statement .dist27 := fun _ => by decide
theorem dist28 : Statement .dist28 := fun _ => by decide
theorem dist29 : Statement .dist29 := fun _ => by decide
theorem dist30 : Statement .dist30 := fun _ => by decide
theorem dist31 : Statement .dist31 := fun _ => by decide
theorem clLen (v : BitVec 4) : Statement (.clLen v) := fun _ => (of_setWidth v).trans (show 2 ^ 4 < 2 ^ 5 by decide)
theorem clRep16 : Statement .clRep16 := fun _ => by decide
theorem clZero17 : Statement .clZero17 := fun _ => by decide
theorem clZero18 : Statement .clZero18 := fun _ => by decide
theorem opLiteral (b : Byte) : Statement (.opLiteral b) := fun _ => BitVec.isLt _
theorem opEndOfBlock : Statement .opEndOfBlock := fun _ => by decide
theorem opBackref (length distance : Nat) : Statement (.opBackref length distance) := fun _ => BitVec.isLt _

end Sys2Proof.Laws.WordFits
end

