-- ==== Sys2Proof/Laws/Walk.lean ====
section
/-! SUPPORT. The symbol walk: which symbol `decode` delivers, which bits it consumes, and how it fails (R162 to R164). -/

namespace Sys2Proof.Machine

/-- `t` is `s` but for what a symbol decode may change. -/
def onlyWalk (s t : State) : Prop :=
  t = { s with
    bitbuf := t.bitbuf, bitcnt := t.bitcnt, input := t.input, cursor := t.cursor, inReady := t.inReady
    walkBits := t.walkBits, walkLen := t.walkLen }

theorem onlyWalk_of_onlyInput {s t : State} (h : onlyInput s t) : onlyWalk s t := by
  unfold onlyInput onlyWalk at *
  rw [h]

theorem onlyWalk_trans {s t u : State} (h : onlyWalk s t) (h' : onlyWalk t u) : onlyWalk s u := by
  unfold onlyWalk at *
  rw [h', h]

theorem pushWalkBit_only (b : Bool) (s : State) : onlyWalk s (pushWalkBit b s) := rfl

theorem beginWalk_only (s : State) : onlyWalk s (beginWalk s) := by
  unfold beginWalk
  split <;> rfl

/-- One more codeword bit (R162). -/
theorem pushWalkBit_value {s : State} (b : Bool) {n : Nat} (hl : s.walkLen.toNat = n) (hn : n < 15)
    (hw : s.walkBits.toNat < 2 ^ n) :
    (pushWalkBit b s).walkBits.toNat = 2 * s.walkBits.toNat + b.toNat ∧ (pushWalkBit b s).walkLen.toNat = n + 1 := by
  have h14 : 2 ^ n ≤ 2 ^ 14 := Nat.pow_le_pow_right (by omega) (by omega)
  constructor
  · have hs : (s.walkBits <<< 1).toNat = 2 * s.walkBits.toNat := by
      rw [BitVec.toNat_shiftLeft, Nat.shiftLeft_eq]
      omega
    change ((s.walkBits <<< 1) ||| (BitVec.ofBool b).setWidth 15).toNat = _
    rw [BitVec.toNat_or, hs]
    cases b
    · simp
    · change 2 * s.walkBits.toNat ||| 1 = _
      have := (Nat.two_pow_add_eq_or_of_lt (i := 1) (b := 1) (by omega) s.walkBits.toNat).symm
      simpa using this
  · change (s.walkLen + 1).toNat = _
    rw [BitVec.toNat_add]
    change (s.walkLen.toNat + 1) % 2 ^ 4 = _
    omega

theorem codeValue_cons (v : Nat) (b : Bool) (bs : List Bool) :
    codeValue v (b :: bs) = codeValue (2 * v + b.toNat) bs := rfl

/-- The walk finds the first codeword that begins the unread bits, and consumes exactly it (R162, R164). -/
theorem walk_match (t : Table) (alph : BitVec 32) (sym : Nat) (m : Nat) :
    ∀ (k : Nat) (s : State) (n : Nat), s.walkLen.toNat = n → s.walkBits.toNat < 2 ^ n → n + k ≤ 15 → m + 1 ≤ k →
    m + 1 ≤ s.unread.length →
    (∀ i, 1 ≤ i → i < m + 1 → t.inv (codeValue s.walkBits.toNat (s.unread.take i)) (n + i) = none) →
    t.inv (codeValue s.walkBits.toNat (s.unread.take (m + 1))) (n + (m + 1)) = some sym →
    ∃ u, walk t alph k s = .done sym u ∧ u.unread = s.unread.drop (m + 1) ∧ onlyWalk s u ∧ u.inReady = false := by
  induction m with
  | zero =>
    intro k s n hl hw hk hm hu _ hs
    obtain ⟨k, rfl⟩ : ∃ j, k = j + 1 := ⟨k - 1, by omega⟩
    obtain ⟨b, bs, hub⟩ := List.exists_cons_of_length_pos (l := s.unread) (by omega)
    obtain ⟨s', hr, hu', hf, hi⟩ := readBit_of_unread hub
    have h1 : s'.walkBits = s.walkBits := by rw [hf]
    have h2 : s'.walkLen = s.walkLen := by rw [hf]
    obtain ⟨hv, hn⟩ := pushWalkBit_value (s := s') b (n := n) (by rw [h2, hl]) (by omega) (by rw [h1]; exact hw)
    rw [hub, List.take_succ_cons, codeValue_cons, List.take_zero] at hs
    refine ⟨pushWalkBit b s', ?_, ?_, onlyWalk_trans (onlyWalk_of_onlyInput hf) (pushWalkBit_only b s'), hi⟩
    · simp only [walk, hr, hv, hn, h1]
      simp only [codeValue, List.foldl_nil, Nat.zero_add] at hs
      rw [hs]
    · rw [hub]; exact hu'
  | succ m ih =>
    intro k s n hl hw hk hm hu hno hs
    obtain ⟨k, rfl⟩ : ∃ j, k = j + 1 := ⟨k - 1, by omega⟩
    obtain ⟨b, bs, hub⟩ := List.exists_cons_of_length_pos (l := s.unread) (by omega)
    obtain ⟨s', hr, hu', hf, hi⟩ := readBit_of_unread hub
    have h1 : s'.walkBits = s.walkBits := by rw [hf]
    have h2 : s'.walkLen = s.walkLen := by rw [hf]
    obtain ⟨hv, hn⟩ := pushWalkBit_value (s := s') b (n := n) (by rw [h2, hl]) (by omega) (by rw [h1]; exact hw)
    rw [h1] at hv
    have hup : (pushWalkBit b s').unread = bs := hu'
    have hlt : (pushWalkBit b s').walkBits.toNat < 2 ^ (n + 1) := by
      rw [hv, Nat.pow_succ]
      have : b.toNat ≤ 1 := by cases b <;> simp
      omega
    rw [hub] at hno hs hu
    simp only [List.length_cons] at hu
    have hnone : t.inv (2 * s.walkBits.toNat + b.toNat) (n + 1) = none := by
      have := hno 1 (le_refl _) (by omega)
      simpa [codeValue] using this
    obtain ⟨u, hw', hu'', hf', hi'⟩ := ih k (pushWalkBit b s') (n + 1) hn hlt (by omega) (by omega)
      (by rw [hup]; omega)
      (by
        intro i h1' h2'
        have := hno (i + 1) (by omega) (by omega)
        rw [hv, hup]
        rw [List.take_succ_cons, codeValue_cons] at this
        rw [show n + 1 + i = n + (i + 1) by omega]
        exact this)
      (by
        rw [hv, hup]
        rw [List.take_succ_cons, codeValue_cons] at hs
        rw [show n + 1 + (m + 1) = n + (m + 1 + 1) by omega]
        exact hs)
    refine ⟨u, ?_, ?_, onlyWalk_trans (onlyWalk_trans (onlyWalk_of_onlyInput hf) (pushWalkBit_only b s')) hf', hi'⟩
    · simp only [walk, hr, hv, hn, hnone]
      exact hw'
    · rw [hub, hu'', hup]; rfl

/-- With no codeword in the bits allowed, the walk reads all of them and raises INVALID_CODE (R163). -/
theorem walk_invalid (t : Table) (alph : BitVec 32) (k : Nat) :
    ∀ (s : State) (n : Nat), s.walkLen.toNat = n → s.walkBits.toNat < 2 ^ n → n + k ≤ 15 → k ≤ s.unread.length →
    (∀ i, 1 ≤ i → i ≤ k → t.inv (codeValue s.walkBits.toNat (s.unread.take i)) (n + i) = none) →
    ∃ u, walk t alph k s = .failed (raise .invalidCode alph u) ∧ u.unread = s.unread.drop k ∧ onlyWalk s u := by
  induction k with
  | zero => intro s n _ _ _ _ _; exact ⟨s, rfl, rfl, rfl⟩
  | succ k ih =>
    intro s n hl hw hk hu hno
    obtain ⟨b, bs, hub⟩ := List.exists_cons_of_length_pos (l := s.unread) (by omega)
    obtain ⟨s', hr, hu', hf, hi⟩ := readBit_of_unread hub
    have h1 : s'.walkBits = s.walkBits := by rw [hf]
    have h2 : s'.walkLen = s.walkLen := by rw [hf]
    obtain ⟨hv, hn⟩ := pushWalkBit_value (s := s') b (n := n) (by rw [h2, hl]) (by omega) (by rw [h1]; exact hw)
    rw [h1] at hv
    have hup : (pushWalkBit b s').unread = bs := hu'
    have hlt : (pushWalkBit b s').walkBits.toNat < 2 ^ (n + 1) := by
      rw [hv, Nat.pow_succ]
      have : b.toNat ≤ 1 := by cases b <;> simp
      omega
    rw [hub] at hno hu
    simp only [List.length_cons] at hu
    have hnone : t.inv (2 * s.walkBits.toNat + b.toNat) (n + 1) = none := by
      have := hno 1 (le_refl _) (by omega)
      simpa [codeValue] using this
    obtain ⟨u, hw', hu'', hf'⟩ := ih (pushWalkBit b s') (n + 1) hn hlt (by omega) (by rw [hup]; omega)
      (by
        intro i h1' h2'
        have := hno (i + 1) (by omega) (by omega)
        rw [hv, hup]
        rw [List.take_succ_cons, codeValue_cons] at this
        rw [show n + 1 + i = n + (i + 1) by omega]
        exact this)
    refine ⟨u, ?_, ?_, onlyWalk_trans (onlyWalk_trans (onlyWalk_of_onlyInput hf) (pushWalkBit_only b s')) hf'⟩
    · simp only [walk, hr, hv, hn, hnone]
      exact hw'
    · rw [hub, hu'', hup]; rfl

theorem inv_mem {t : Table} {v n sym : Nat} (h : t.inv v n = some sym) :
    ∃ e ∈ t, e.sym = sym ∧ e.bits = v ∧ e.len = n := by
  unfold Table.inv at h
  cases hf : t.find? (fun e => e.bits == v && e.len == n) with
  | none => simp [hf] at h
  | some e =>
    have := List.find?_some hf
    simp only [hf, Option.map_some, Option.some.injEq] at h
    simp only [Bool.and_eq_true, beq_iff_eq] at this
    exact ⟨e, List.mem_of_find?_eq_some hf, h, this.1, this.2⟩

/-- Everything the walk can do, from any state: deliver a symbol of the table, hold, or raise IO_FAILURE or
INVALID_CODE. -/
theorem walk_cases (t : Table) (alph : BitVec 32) (k : Nat) : ∀ s : State,
    (∃ sym u, walk t alph k s = .done sym u ∧ (∃ e ∈ t, e.sym = sym) ∧ onlyWalk s u ∧ u.inReady = false) ∨
    (∃ u, walk t alph k s = .hold u ∧ onlyWalk s u ∧ u.inReady = true ∧ u.input = [] ∧ u.bitcnt = 0 ∧
      s.inEnd = false) ∨
    (∃ u, walk t alph k s = .failed (raise .ioFailure 0 u) ∧ onlyWalk s u ∧ s.inEnd = true) ∨
    (∃ u, walk t alph k s = .failed (raise .invalidCode alph u) ∧ onlyWalk s u) := by
  induction k with
  | zero => intro s; exact .inr (.inr (.inr ⟨s, rfl, rfl⟩))
  | succ k ih =>
    intro s
    rcases readBit_cases s with ⟨b, s', hr, -, hf, hi⟩ | ⟨h0, hi, he, hr⟩ | ⟨h0, hi, he, hr⟩
    · have hf' := onlyWalk_trans (onlyWalk_of_onlyInput hf) (pushWalkBit_only b s')
      have he : s'.inEnd = s.inEnd := by rw [hf]
      simp only [walk, hr]
      cases hv : t.inv (pushWalkBit b s').walkBits.toNat (pushWalkBit b s').walkLen.toNat with
      | some sym =>
        obtain ⟨e, hm, hs, -⟩ := inv_mem hv
        exact .inl ⟨sym, _, rfl, ⟨e, hm, hs⟩, hf', hi⟩
      | none =>
        simp only
        rcases ih (pushWalkBit b s') with
          ⟨sym, u, h, hm, hfu, hiu⟩ | ⟨u, h, hfu, h1, h2, h3, h4⟩ | ⟨u, h, hfu, h1⟩ | ⟨u, h, hfu⟩
        · exact .inl ⟨sym, u, h, hm, onlyWalk_trans hf' hfu, hiu⟩
        · exact .inr (.inl ⟨u, h, onlyWalk_trans hf' hfu, h1, h2, h3, he ▸ h4⟩)
        · exact .inr (.inr (.inl ⟨u, h, onlyWalk_trans hf' hfu, he ▸ h1⟩))
        · exact .inr (.inr (.inr ⟨u, h, onlyWalk_trans hf' hfu⟩))
    · simp only [walk, hr]
      exact .inr (.inl ⟨_, rfl, rfl, rfl, hi, h0, he⟩)
    · simp only [walk, hr]
      exact .inr (.inr (.inl ⟨s, rfl, rfl, he⟩))

/-- `decode` from its beginning, when a codeword begins the unread bits and no shorter one does. -/
theorem decodeSymbol_match {t : Table} {maxBits n sym : Nat} {alph : BitVec 32} {s : State} (hr : s.inReady = false)
    (hmax : maxBits ≤ 15) (h1 : 1 ≤ n) (hn : n ≤ maxBits) (hu : n ≤ s.unread.length)
    (hno : t.noMatchBelow s.unread n) (hm : t.matchAt s.unread n = some sym) :
    ∃ u, decodeSymbol t maxBits alph s = .done sym u ∧ u.unread = s.unread.drop n ∧ onlyWalk s u ∧
      u.inReady = false := by
  have hb : beginWalk s = { s with walkBits := 0, walkLen := 0 } := by simp [beginWalk, hr]
  have hl : (beginWalk s).walkLen.toNat = 0 := by rw [hb]; rfl
  have hv : (beginWalk s).walkBits.toNat = 0 := by rw [hb]; rfl
  have hu' : (beginWalk s).unread = s.unread := by rw [hb]; rfl
  obtain ⟨n, rfl⟩ : ∃ j, n = j + 1 := ⟨n - 1, by omega⟩
  obtain ⟨u, hw, hd, hf, hi⟩ := walk_match t alph sym n maxBits (beginWalk s) 0 hl (by rw [hv]; simp) (by omega) hn
    (by rw [hu']; exact hu) (by
      intro i h1 h2
      rw [hv, hu', Nat.zero_add]
      exact hno i h1 h2) (by
      rw [hv, hu', Nat.zero_add]
      exact hm)
  refine ⟨u, ?_, by rw [hd, hu'], onlyWalk_trans (beginWalk_only s) hf, hi⟩
  unfold decodeSymbol
  rw [hl, Nat.sub_zero, hw]

/-- `decode` from its beginning, when the bits are there and no codeword begins them. -/
theorem decodeSymbol_invalid {t : Table} {maxBits : Nat} {alph : BitVec 32} {s : State} (hr : s.inReady = false)
    (hmax : maxBits ≤ 15) (hu : maxBits ≤ s.unread.length) (hno : t.noMatchBelow s.unread (maxBits + 1)) :
    ∃ u, decodeSymbol t maxBits alph s = .failed (raise .invalidCode alph u) ∧ u.unread = s.unread.drop maxBits ∧
      onlyWalk s u := by
  have hb : beginWalk s = { s with walkBits := 0, walkLen := 0 } := by simp [beginWalk, hr]
  have hl : (beginWalk s).walkLen.toNat = 0 := by rw [hb]; rfl
  have hv : (beginWalk s).walkBits.toNat = 0 := by rw [hb]; rfl
  have hu' : (beginWalk s).unread = s.unread := by rw [hb]; rfl
  obtain ⟨u, hw, hd, hf⟩ := walk_invalid t alph maxBits (beginWalk s) 0 hl (by rw [hv]; simp) (by omega)
    (by rw [hu']; exact hu) (by
      intro i h1 h2
      rw [hv, hu', Nat.zero_add]
      exact hno i h1 (by omega))
  refine ⟨u, ?_, by rw [hd, hu'], onlyWalk_trans (beginWalk_only s) hf⟩
  unfold decodeSymbol
  rw [hl, Nat.sub_zero, hw]

/-- Everything `decode` can do. -/
theorem decodeSymbol_cases (t : Table) (maxBits : Nat) (alph : BitVec 32) (s : State) :
    (∃ sym u, decodeSymbol t maxBits alph s = .done sym u ∧ (∃ e ∈ t, e.sym = sym) ∧ onlyWalk s u ∧
      u.inReady = false) ∨
    (∃ u, decodeSymbol t maxBits alph s = .hold u ∧ onlyWalk s u ∧ u.inReady = true ∧ u.input = [] ∧ u.bitcnt = 0 ∧
      s.inEnd = false) ∨
    (∃ u, decodeSymbol t maxBits alph s = .failed (raise .ioFailure 0 u) ∧ onlyWalk s u ∧ s.inEnd = true) ∨
    (∃ u, decodeSymbol t maxBits alph s = .failed (raise .invalidCode alph u) ∧ onlyWalk s u) := by
  have h0 := beginWalk_only s
  have he : (beginWalk s).inEnd = s.inEnd := by rw [h0]
  unfold decodeSymbol
  rcases walk_cases t alph (maxBits - (beginWalk s).walkLen.toNat) (beginWalk s) with
    ⟨sym, u, h, hm, hf, hi⟩ | ⟨u, h, hf, h1, h2, h3, h4⟩ | ⟨u, h, hf, h1⟩ | ⟨u, h, hf⟩
  · exact .inl ⟨sym, u, h, hm, onlyWalk_trans h0 hf, hi⟩
  · exact .inr (.inl ⟨u, h, onlyWalk_trans h0 hf, h1, h2, h3, he ▸ h4⟩)
  · exact .inr (.inr (.inl ⟨u, h, onlyWalk_trans h0 hf, he ▸ h1⟩))
  · exact .inr (.inr (.inr ⟨u, h, onlyWalk_trans h0 hf⟩))

/-- The walk when no codeword begins the bits there are and more are allowed: it takes every bit there is, then holds, or
raises IO_FAILURE once the input has ended (R164). -/
theorem walk_short (t : Table) (alph : BitVec 32) (k : Nat) :
    ∀ (s : State) (n : Nat), s.walkLen.toNat = n → s.walkBits.toNat < 2 ^ n → n + k ≤ 15 → s.unread.length < k →
    (∀ i, 1 ≤ i → i ≤ s.unread.length → t.inv (codeValue s.walkBits.toNat (s.unread.take i)) (n + i) = none) →
    (s.inEnd = false → ∃ u, walk t alph k s = .hold u ∧ u.unread = [] ∧ onlyWalk s u ∧ u.inReady = true) ∧
    (s.inEnd = true → ∃ u, walk t alph k s = .failed (raise .ioFailure 0 u) ∧ u.unread = [] ∧ onlyWalk s u) := by
  induction k with
  | zero => intro s n _ _ _ h; omega
  | succ k ih =>
    intro s n hl hw hk hu hno
    cases hub : s.unread with
    | nil =>
      obtain ⟨h1, h2⟩ := readBit_short hub
      exact ⟨fun h => ⟨{ s with inReady := true }, by simp only [walk, h1 h], hub, rfl, rfl⟩,
        fun h => ⟨s, by simp only [walk, h2 h], hub, rfl⟩⟩
    | cons b bs =>
      obtain ⟨s', hr, hu', hf, -⟩ := readBit_of_unread hub
      have h1 : s'.walkBits = s.walkBits := by rw [hf]
      have h2 : s'.walkLen = s.walkLen := by rw [hf]
      obtain ⟨hv, hn⟩ := pushWalkBit_value (s := s') b (n := n) (by rw [h2, hl]) (by omega) (by rw [h1]; exact hw)
      rw [h1] at hv
      have hup : (pushWalkBit b s').unread = bs := hu'
      have hlt : (pushWalkBit b s').walkBits.toNat < 2 ^ (n + 1) := by
        rw [hv, Nat.pow_succ]
        have : b.toNat ≤ 1 := by cases b <;> simp
        omega
      have hf' := onlyWalk_trans (onlyWalk_of_onlyInput hf) (pushWalkBit_only b s')
      have he : (pushWalkBit b s').inEnd = s.inEnd := by rw [hf']
      rw [hub] at hno hu
      simp only [List.length_cons] at hu hno
      have hnone : t.inv (2 * s.walkBits.toNat + b.toNat) (n + 1) = none := by
        have := hno 1 (le_refl _) (by omega)
        simpa [codeValue] using this
      obtain ⟨h3, h4⟩ := ih (pushWalkBit b s') (n + 1) hn hlt (by omega) (by rw [hup]; omega)
        (by
          intro i h1' h2'
          rw [hup] at h2'
          have := hno (i + 1) (by omega) (by omega)
          rw [hv, hup]
          rw [List.take_succ_cons, codeValue_cons] at this
          rw [show n + 1 + i = n + (i + 1) by omega]
          exact this)
      rw [he] at h3 h4
      simp only [walk, hr, hv, hn, hnone]
      refine ⟨fun h => ?_, fun h => ?_⟩
      · obtain ⟨u, hw', hd, hfu, hiu⟩ := h3 h
        exact ⟨u, hw', hd, onlyWalk_trans hf' hfu, hiu⟩
      · obtain ⟨u, hw', hd, hfu⟩ := h4 h
        exact ⟨u, hw', hd, onlyWalk_trans hf' hfu⟩

/-- `decode` from its beginning, when no codeword begins the bits there are and more are allowed. -/
theorem decodeSymbol_short {t : Table} {maxBits : Nat} {alph : BitVec 32} {s : State} (hr : s.inReady = false)
    (hmax : maxBits ≤ 15) (hu : s.unread.length < maxBits) (hno : t.noMatchBelow s.unread (s.unread.length + 1)) :
    (s.inEnd = false →
      ∃ u, decodeSymbol t maxBits alph s = .hold u ∧ u.unread = [] ∧ onlyWalk s u ∧ u.inReady = true) ∧
    (s.inEnd = true →
      ∃ u, decodeSymbol t maxBits alph s = .failed (raise .ioFailure 0 u) ∧ u.unread = [] ∧ onlyWalk s u) := by
  have hb : beginWalk s = { s with walkBits := 0, walkLen := 0 } := by simp [beginWalk, hr]
  have hl : (beginWalk s).walkLen.toNat = 0 := by rw [hb]; rfl
  have hv : (beginWalk s).walkBits.toNat = 0 := by rw [hb]; rfl
  have hu' : (beginWalk s).unread = s.unread := by rw [hb]; rfl
  have he : (beginWalk s).inEnd = s.inEnd := by rw [hb]
  obtain ⟨h1, h2⟩ := walk_short t alph maxBits (beginWalk s) 0 hl (by rw [hv]; simp) (by omega)
    (by rw [hu']; exact hu) (by
      intro i h1 h2
      rw [hu'] at h2
      rw [hv, hu', Nat.zero_add]
      exact hno i h1 (by omega))
  rw [he] at h1 h2
  unfold decodeSymbol
  rw [hl, Nat.sub_zero]
  refine ⟨fun h => ?_, fun h => ?_⟩
  · obtain ⟨u, hw, hd, hf, hi⟩ := h1 h
    exact ⟨u, hw, hd, onlyWalk_trans (beginWalk_only s) hf, hi⟩
  · obtain ⟨u, hw, hd, hf⟩ := h2 h
    exact ⟨u, hw, hd, onlyWalk_trans (beginWalk_only s) hf⟩

end Sys2Proof.Machine
end

