-- ==== Sys2Proof/Laws/Reads.lean ====
section
/-! SUPPORT. What every read of input keeps, whatever it comes to: input is taken in order and counted, the bit buffer
keeps its form, and no byte stands buffered of which no bit has been read. -/

namespace Sys2Proof.Machine

/-- A fact about the state an operation ends in, whatever it comes to. -/
def Flow.All {α : Type} (p : State → Prop) : Flow α → Prop
  | .done _ s => p s
  | .hold s => p s
  | .failed s => p s

theorem Flow.All.mono {α : Type} {p q : State → Prop} {f : Flow α} (h : f.All p) (hpq : ∀ s, p s → q s) : f.All q := by
  cases f <;> exact hpq _ h

/-- `bitcnt` and `bitbuf` have the form of R139. -/
def State.bitsOk (s : State) : Prop := s.bitcnt.toNat ≤ 8 ∧ s.bitbuf.toNat < 2 ^ s.bitcnt.toNat

/-- From `s` to `t` input was taken in order and counted, and the bit buffer kept its form. -/
structure Reads (s t : State) : Prop where
  taken : ∃ bs, s.input = bs ++ t.input ∧ t.cursor = s.cursor + bs.length
  bits : s.bitsOk → t.bitsOk
  lazy : s.bitcnt.toNat ≤ 7 → t.bitcnt.toNat ≤ 7

/-- A step that takes no input and leaves the bit buffer alone. -/
theorem Reads.of_same {s t : State} (h₁ : t.input = s.input) (h₂ : t.cursor = s.cursor) (h₃ : t.bitcnt = s.bitcnt)
    (h₄ : t.bitbuf = s.bitbuf) : Reads s t where
  taken := ⟨[], by rw [h₁]; rfl, by rw [h₂]; rfl⟩
  bits := by unfold State.bitsOk; rw [h₃, h₄]; exact id
  lazy := by rw [h₃]; exact id

theorem Reads.trans {s t u : State} (h : Reads s t) (h' : Reads t u) : Reads s u where
  taken := by
    obtain ⟨a, ha, ha'⟩ := h.taken
    obtain ⟨b, hb, hb'⟩ := h'.taken
    exact ⟨a ++ b, by rw [ha, hb, List.append_assoc], by rw [hb', ha', List.length_append, Nat.add_assoc]⟩
  bits hs := h'.bits (h.bits hs)
  lazy hs := h'.lazy (h.lazy hs)

theorem bitcnt_pred {c : BitVec 4} (h : c ≠ 0) : (c - 1).toNat + 1 = c.toNat := by
  have hn : c.toNat ≠ 0 := fun e => h (BitVec.eq_of_toNat_eq (by simpa using e))
  have h1 := c.isLt
  rw [BitVec.toNat_sub]
  change (2 ^ 4 - 1 + c.toNat) % 2 ^ 4 + 1 = _
  omega

theorem takeBit_reads (s : State) (h : s.bitcnt ≠ 0) : (takeBit s).All (Reads s) := by
  have hp := bitcnt_pred h
  refine ⟨⟨[], rfl, rfl⟩, ?_, ?_⟩
  · rintro ⟨h1, h2⟩
    refine ⟨?_, ?_⟩
    · change (s.bitcnt - 1).toNat ≤ 8; omega
    · change (s.bitbuf >>> 1).toNat < 2 ^ (s.bitcnt - 1).toNat
      rw [BitVec.toNat_ushiftRight, Nat.shiftRight_eq_div_pow]
      rw [← hp, Nat.pow_succ] at h2
      omega
  · intro h1
    change (s.bitcnt - 1).toNat ≤ 7
    omega

theorem readByte_reads (s : State) : (readByte s).All (Reads s) := by
  unfold readByte
  cases hi : s.input with
  | nil =>
    simp only
    split
    · exact Reads.of_same rfl rfl rfl rfl
    · exact Reads.of_same hi.symm rfl rfl rfl
  | cons b rest => exact ⟨⟨[b], hi, rfl⟩, id, id⟩

theorem readBit_reads (s : State) : (readBit s).All (Reads s) := by
  unfold readBit
  by_cases h : s.bitcnt = 0
  · rw [if_pos h]
    have hr := readByte_reads s
    cases hb : readByte s with
    | done b s' =>
      rw [hb] at hr
      have hb1 : b.toNat >>> 1 < 2 ^ 7 := by
        have := b.isLt
        rw [Nat.shiftRight_eq_div_pow]
        omega
      have h7 : ((8 : BitVec 4) - 1).toNat = 7 := by decide
      refine ⟨hr.taken, fun _ => ⟨?_, ?_⟩, fun _ => ?_⟩
      · change ((8 : BitVec 4) - 1).toNat ≤ 8; omega
      rotate_left
      · change ((8 : BitVec 4) - 1).toNat ≤ 7; omega
      change (b >>> 1).toNat < 2 ^ ((8 : BitVec 4) - 1).toNat
      rw [BitVec.toNat_ushiftRight]
      exact hb1
    | hold s' => rw [hb] at hr; exact hr
    | failed s' => rw [hb] at hr; exact hr
  · rw [if_neg h]
    exact takeBit_reads s h

theorem collectBits_reads (k : Nat) : ∀ s, (collectBits k s).All (Reads s) := by
  induction k with
  | zero => intro s; exact Reads.of_same rfl rfl rfl rfl
  | succ k ih =>
    intro s
    have hr := readBit_reads s
    simp only [collectBits]
    cases hb : readBit s with
    | done b s' =>
      rw [hb] at hr
      have hp : Reads s' (pushFieldBit b s') := Reads.of_same rfl rfl rfl rfl
      exact (ih (pushFieldBit b s')).mono fun u hu => (hr.trans hp).trans hu
    | hold s' => rw [hb] at hr; exact hr
    | failed s' => rw [hb] at hr; exact hr

theorem readBits_reads (n : Nat) (s : State) : (readBits n s).All (Reads s) := by
  have h0 : Reads s (beginField s) := by
    unfold beginField
    split <;> exact Reads.of_same rfl rfl rfl rfl
  have h := (collectBits_reads (n - (beginField s).fldCnt.toNat) (beginField s)).mono fun u hu => h0.trans hu
  unfold readBits
  cases hc : collectBits (n - (beginField s).fldCnt.toNat) (beginField s) <;> rw [hc] at h <;> exact h

theorem walk_reads (t : Table) (alph : BitVec 32) (k : Nat) : ∀ s, (walk t alph k s).All (Reads s) := by
  induction k with
  | zero => intro s; exact Reads.of_same rfl rfl rfl rfl
  | succ k ih =>
    intro s
    have hr := readBit_reads s
    simp only [walk]
    cases hb : readBit s with
    | done b s' =>
      rw [hb] at hr
      have hp : Reads s (pushWalkBit b s') := hr.trans (Reads.of_same rfl rfl rfl rfl)
      cases hv : t.inv (pushWalkBit b s').walkBits.toNat (pushWalkBit b s').walkLen.toNat with
      | some sym => simp only [hv]; exact hp
      | none => simp only [hv]; exact (ih (pushWalkBit b s')).mono fun u hu => hp.trans hu
    | hold s' => rw [hb] at hr; exact hr
    | failed s' => rw [hb] at hr; exact hr

theorem decodeSymbol_reads (t : Table) (maxBits : Nat) (alph : BitVec 32) (s : State) :
    (decodeSymbol t maxBits alph s).All (Reads s) := by
  have h0 : Reads s (beginWalk s) := by
    unfold beginWalk
    split <;> exact Reads.of_same rfl rfl rfl rfl
  exact (walk_reads t alph (maxBits - (beginWalk s).walkLen.toNat) (beginWalk s)).mono fun u hu => h0.trans hu

end Sys2Proof.Machine
end

