-- ==== Sys2Proof/Laws/Window.lean ====
section
/-! SUPPORT. The Window Reconstructor: everything PUT and the distance check can do. -/

namespace Sys2Proof.Machine

/-- PUT when the host accepts (R324, R64). -/
theorem put_accepted {s : State} (b : Byte) (k : State → State) (hw : s.wp.toNat < s.windowSize)
    (hr : s.outReady = true) :
    put b k s = .next (k (advance (emit b (memWrite s.wp.toNat b s)))) := by
  simp [put, hw, hr]

/-- PUT when the host does not accept (R65). -/
theorem put_held {s : State} (b : Byte) (k : State → State) (hw : s.wp.toNat < s.windowSize)
    (hr : s.outReady = false) :
    put b k s = .next (holdEmit b (memWrite s.wp.toNat b s)) := by
  simp [put, hw, hr]

/-- Everything PUT can do: emit and go on, hold, or stop because `wp` is outside the window. -/
theorem put_cases (b : Byte) (k : State → State) (s : State) :
    (s.wp.toNat < s.windowSize ∧ s.outReady = true ∧
      put b k s = .next (k (advance (emit b (memWrite s.wp.toNat b s))))) ∨
    (s.wp.toNat < s.windowSize ∧ s.outReady = false ∧
      put b k s = .next (holdEmit b (memWrite s.wp.toNat b s))) ∨
    (¬ s.wp.toNat < s.windowSize ∧ put b k s = .fault (.historyIndex s.wp.toNat)) := by
  by_cases hw : s.wp.toNat < s.windowSize
  · cases hr : s.outReady
    · exact .inr (.inl ⟨hw, rfl, put_held b k hw hr⟩)
    · exact .inl ⟨hw, rfl, put_accepted b k hw hr⟩
  · exact .inr (.inr ⟨hw, by simp [put, hw]⟩)

/-- Everything the distance check can do (R322). -/
theorem windowBackref_cases (l d : Nat) (s : State) :
    (d > s.filled.toNat ∧ windowBackref l d s = raise .distanceTooFar (distanceInfo l d) s) ∨
    (d ≤ s.filled.toNat ∧ windowBackref l d s = beginCopy l d s) := by
  unfold windowBackref
  by_cases h : d > s.filled.toNat
  · exact .inl ⟨h, if_pos h⟩
  · exact .inr ⟨by omega, if_neg h⟩

theorem windowSize_pos (s : State) : 0 < s.windowSize := Nat.two_pow_pos _

theorem windowSize_le (s : State) : s.windowSize ≤ 32768 := by
  have := s.wlog2.isLt
  exact (Nat.pow_le_pow_right (by omega) (by omega : s.wlog2.toNat ≤ 15)).trans (by norm_num)

/-- `wp` after a byte, as a number: it fits its 15 bits. -/
theorem advance_wp_toNat (s : State) : (advance s).wp.toNat = (s.wp.toNat + 1) % s.windowSize := by
  have h1 := Nat.mod_lt (s.wp.toNat + 1) (windowSize_pos s)
  have h2 := windowSize_le s
  rw [(advance_writes s).1, BitVec.toNat_ofNat]
  exact Nat.mod_eq_of_lt (by omega)

/-- `filled` after a byte, as a number: it fits its 16 bits. -/
theorem advance_filled_toNat (s : State) : (advance s).filled.toNat = min (s.filled.toNat + 1) s.windowSize := by
  have h2 := windowSize_le s
  rw [(advance_writes s).2, BitVec.toNat_ofNat]
  exact Nat.mod_eq_of_lt (by omega)

/-- A history index is inside the window. -/
theorem histIndex_lt (s : State) (k : Nat) : s.histIndex k < s.windowSize := Nat.mod_lt _ (windowSize_pos s)

end Sys2Proof.Machine
end

