-- ==== Sys2Proof/Laws/Step.lean ====
section
/-! SUPPORT. What a step can do: the events, the fetch, and each shared meaning, with every outcome it has. -/

namespace Sys2Proof.Machine

/-! ## The events -/

theorem dropStart_of_false {s : State} (h : s.start = false) : dropStart s = s := by
  cases s
  simp_all [dropStart]

/-- `rst` comes first (log 7). -/
theorem step_of_rst {s : State} (h : s.rst = true) : step s = .next (resetCore s) := by
  simp [step, h]

/-- `start` outside a stream. -/
theorem step_of_start {s : State} (hr : s.rst = false) (hs : s.start = true) (hb : s.busy = false) :
    step s = .next (startStream s) := by
  simp [step, hr, hs, hb]

/-- Without an effective event the core runs. -/
theorem step_of_no_event {s : State} (hr : s.rst = false) (hs : s.start = true → s.busy = true) :
    step s = run (dropStart s) := by
  cases h : s.start
  · simp [step, hr, h, dropStart_of_false h]
  · simp [step, hr, h, hs h]

/-- With neither event the core runs. -/
theorem step_quiet {s : State} (hr : s.rst = false) (hs : s.start = false) : step s = run s := by
  simp [step, hr, hs]

/-- Everything a step can do. -/
theorem step_cases (s : State) :
    (s.rst = true ∧ step s = .next (resetCore s)) ∨
    (s.rst = false ∧ s.start = true ∧ s.busy = false ∧ step s = .next (startStream s)) ∨
    (s.rst = false ∧ (s.start = true → s.busy = true) ∧ step s = run (dropStart s)) := by
  cases hr : s.rst
  · by_cases h : s.start = true ∧ s.busy = false
    · exact .inr (.inl ⟨rfl, h.1, h.2, step_of_start hr h.1 h.2⟩)
    · have h' : s.start = true → s.busy = true := by
        intro h1
        cases h2 : s.busy
        · exact absurd ⟨h1, h2⟩ h
        · rfl
      exact .inr (.inr ⟨rfl, h', step_of_no_event hr h'⟩)
  · exact .inl ⟨rfl, step_of_rst hr⟩

/-! ## The fetch -/

theorem run_of_decode {s : State} {f : Format} {w : BitVec 25} {i : Instr} (hf : fetch s = some (f, w))
    (hd : decode f w = .ok i) : run s = exec i s := by
  simp [run, hf, hd]

theorem run_of_error {s : State} {f : Format} {w : BitVec 25} {e : DecodeError} (hf : fetch s = some (f, w))
    (hd : decode f w = .error e) : run s = .refused (.undecodable e) := by
  simp [run, hf, hd]

theorem run_of_none {s : State} (hf : fetch s = none) : run s = work s := by
  simp [run, hf]

/-- Everything a run can do. -/
theorem run_cases (s : State) :
    (∃ f w i, fetch s = some (f, w) ∧ decode f w = .ok i ∧ run s = exec i s) ∨
    (∃ f w e, fetch s = some (f, w) ∧ decode f w = .error e ∧ run s = .refused (.undecodable e)) ∨
    (fetch s = none ∧ run s = work s) := by
  cases hf : fetch s with
  | none => exact .inr (.inr ⟨rfl, run_of_none hf⟩)
  | some p =>
    obtain ⟨f, w⟩ := p
    cases hd : decode f w with
    | ok i => exact .inl ⟨f, w, i, rfl, hd, run_of_decode hf hd⟩
    | error e => exact .inr (.inl ⟨f, w, e, rfl, hd, run_of_error hf hd⟩)

/-- Decoding looks at a word through its format's width only. -/
theorem decode_placed (f : Format) (w : BitVec 25) (s : State) :
    ∃ w', fetch (placeWord f w s) = some (f, w') ∧ decode f w' = decode f w := by
  cases f
  · refine ⟨_, rfl, ?_⟩
    have h : blockHdrWord (w.extractLsb' 1 2) (w.getLsbD 0) = w.setWidth 3 := by
      apply BitVec.eq_of_getLsbD_eq
      intro i hi
      rw [blockHdrWord, BitVec.getLsbD_append]
      obtain rfl | rfl | rfl : i = 0 ∨ i = 1 ∨ i = 2 := by omega
      all_goals simp
    change decodeBlockHdr (((blockHdrWord (w.extractLsb' 1 2) (w.getLsbD 0)).setWidth 25).setWidth 3) = _
    rw [h]
    simp [decode]
  · refine ⟨_, rfl, ?_⟩
    simp [decode, placeWord]
  · refine ⟨_, rfl, ?_⟩
    simp [decode, placeWord]
  · refine ⟨_, rfl, ?_⟩
    simp [decode]
  · exact ⟨_, rfl, rfl⟩

/-! ## The shared meanings -/

/-- Everything that follows a read when it is done, held or failed. -/
theorem finish_readBits_cases (n : Nat) (k : Nat → State → Result State) (s : State) :
    (∃ v t, v < 2 ^ n ∧ onlyField s t ∧ t.inReady = false ∧ (readBits n s).finish k = k v t) ∨
    (∃ t, onlyField s t ∧ t.inReady = true ∧ t.input = [] ∧ t.bitcnt = 0 ∧ s.inEnd = false ∧
      (readBits n s).finish k = .next t) ∨
    (∃ t, onlyField s t ∧ s.inEnd = true ∧ (readBits n s).finish k = .next (raise .ioFailure 0 t)) := by
  rcases readBits_cases n s with ⟨v, t, h, hv, hf, hi⟩ | ⟨t, h, hf, h1, h2, h3, h4⟩ | ⟨t, h, hf, he⟩
  · exact .inl ⟨v, t, hv, hf, hi, by rw [h]; rfl⟩
  · exact .inr (.inl ⟨t, hf, h1, h2, h3, h4, by rw [h]; rfl⟩)
  · exact .inr (.inr ⟨t, hf, he, by rw [h]; rfl⟩)

/-- A read whose bits are there, and what follows it. -/
theorem finish_readBits_of_unread {s : State} {n : Nat} (k : Nat → State → Result State) (hr : s.inReady = false)
    (hn : n ≤ 16) (hu : n ≤ s.unread.length) :
    ∃ t, t.unread = s.unread.drop n ∧ onlyField s t ∧ t.inReady = false ∧
      (readBits n s).finish k = k (fieldValue (s.unread.take n)) t := by
  obtain ⟨t, h, hu', hf, hi⟩ := readBits_of_unread hr hn hu
  exact ⟨t, hu', hf, hi, by rw [h]; rfl⟩

/-- Everything a symbol decode and what follows it can do. -/
theorem finish_decodeSymbol_cases (t : Table) (maxBits : Nat) (alph : BitVec 32) (k : Nat → State → Result State)
    (s : State) :
    (∃ sym u, (∃ e ∈ t, e.sym = sym) ∧ onlyWalk s u ∧ u.inReady = false ∧
      (decodeSymbol t maxBits alph s).finish k = k sym u) ∨
    (∃ u, onlyWalk s u ∧ u.inReady = true ∧ u.input = [] ∧ u.bitcnt = 0 ∧ s.inEnd = false ∧
      (decodeSymbol t maxBits alph s).finish k = .next u) ∨
    (∃ u, onlyWalk s u ∧ s.inEnd = true ∧ (decodeSymbol t maxBits alph s).finish k = .next (raise .ioFailure 0 u)) ∨
    (∃ u, onlyWalk s u ∧ (decodeSymbol t maxBits alph s).finish k = .next (raise .invalidCode alph u)) := by
  rcases decodeSymbol_cases t maxBits alph s with
    ⟨sym, u, h, hm, hf, hi⟩ | ⟨u, h, hf, h1, h2, h3, h4⟩ | ⟨u, h, hf, he⟩ | ⟨u, h, hf⟩
  · exact .inl ⟨sym, u, hm, hf, hi, by rw [h]; rfl⟩
  · exact .inr (.inl ⟨u, hf, h1, h2, h3, h4, by rw [h]; rfl⟩)
  · exact .inr (.inr (.inl ⟨u, hf, he, by rw [h]; rfl⟩))
  · exact .inr (.inr (.inr ⟨u, hf, by rw [h]; rfl⟩))

/-- Everything a raw byte read and what follows it can do. -/
theorem finish_readRawByte_cases (k : Byte → State → Result State) (s : State) :
    (∃ b rest, s.input = b :: rest ∧
      (readRawByte s).finish k = k b { s with input := rest, cursor := s.cursor + 1, inReady := false }) ∨
    (s.input = [] ∧ s.inEnd = false ∧ (readRawByte s).finish k = .next { s with inReady := true }) ∨
    (s.input = [] ∧ s.inEnd = true ∧ (readRawByte s).finish k = .next (raise .ioFailure 0 s)) := by
  unfold readRawByte readByte
  cases hi : s.input with
  | cons b rest => exact .inl ⟨b, rest, rfl, rfl⟩
  | nil =>
    cases he : s.inEnd
    · exact .inr (.inl ⟨rfl, rfl, rfl⟩)
    · exact .inr (.inr ⟨rfl, rfl, rfl⟩)

/-- Everything a length symbol with extra bits can do (R233). -/
theorem lengthExtra_cases (base n : Nat) (s : State) :
    (∃ v t, v < 2 ^ n ∧ onlyField s t ∧ t.inReady = false ∧ lengthExtra base n s = .next (setLength (base + v) t)) ∨
    (∃ t, onlyField s t ∧ t.inReady = true ∧ t.input = [] ∧ t.bitcnt = 0 ∧ s.inEnd = false ∧
      lengthExtra base n s = .next t) ∨
    (∃ t, onlyField s t ∧ s.inEnd = true ∧ lengthExtra base n s = .next (raise .ioFailure 0 t)) :=
  finish_readBits_cases n _ s

/-- Everything a distance symbol with extra bits can do (R265). -/
theorem distanceExtra_cases (base n : Nat) (s : State) :
    (∃ v t, v < 2 ^ n ∧ onlyField s t ∧ t.inReady = false ∧
      distanceExtra base n s = .next (setDistance (base + v) t)) ∨
    (∃ t, onlyField s t ∧ t.inReady = true ∧ t.input = [] ∧ t.bitcnt = 0 ∧ s.inEnd = false ∧
      distanceExtra base n s = .next t) ∨
    (∃ t, onlyField s t ∧ s.inEnd = true ∧ distanceExtra base n s = .next (raise .ioFailure 0 t)) :=
  finish_readBits_cases n _ s

/-- Everything a repeat can do (R196). -/
theorem repeatRun_cases (base n : Nat) (v : BitVec 4) (s : State) :
    (∃ x t, x < 2 ^ n ∧ onlyField s t ∧ t.inReady = false ∧ t.lenIdx.toNat + (base + x) ≤ t.nCoded ∧
      repeatRun base n v s = .next (writeRun (base + x) v t)) ∨
    (∃ x t, x < 2 ^ n ∧ onlyField s t ∧ t.inReady = false ∧ t.nCoded < t.lenIdx.toNat + (base + x) ∧
      repeatRun base n v s = .next (raise .malformedDynamicCodeTable (malformedInfo 2 t.lenIdx) t)) ∨
    (∃ t, onlyField s t ∧ t.inReady = true ∧ t.input = [] ∧ t.bitcnt = 0 ∧ s.inEnd = false ∧
      repeatRun base n v s = .next t) ∨
    (∃ t, onlyField s t ∧ s.inEnd = true ∧ repeatRun base n v s = .next (raise .ioFailure 0 t)) := by
  rcases finish_readBits_cases n (fun x s' =>
    if s'.lenIdx.toNat + (base + x) > s'.nCoded then
      .next (raise .malformedDynamicCodeTable (malformedInfo 2 s'.lenIdx) s')
    else .next (writeRun (base + x) v s')) s with ⟨x, t, hx, hf, hi, h⟩ | h | h
  · by_cases hg : t.lenIdx.toNat + (base + x) > t.nCoded
    · exact .inr (.inl ⟨x, t, hx, hf, hi, hg, h.trans (if_pos hg)⟩)
    · exact .inl ⟨x, t, hx, hf, hi, by omega, h.trans (if_neg hg)⟩
  · exact .inr (.inr (.inl h))
  · exact .inr (.inr (.inr h))

/-- The entries of a run (R192 to R195). -/
theorem fillLens_getD (r : Nat) : ∀ (idx : Nat) (v : BitVec 4) (lens : List (BitVec 4)) (k : Nat),
    idx + r ≤ lens.length →
    (fillLens r idx v lens).getD k 0 = if idx ≤ k ∧ k < idx + r then v else lens.getD k 0 := by
  induction r with
  | zero => intro idx v lens k _; simp only [fillLens, Nat.add_zero]; rw [if_neg (by omega)]
  | succ r ih =>
    intro idx v lens k h
    rw [fillLens, ih _ _ _ _ (by simp; omega)]
    by_cases hk : k = idx
    · subst hk
      rw [if_neg (by omega), if_pos (by omega)]
      simp [List.getD_eq_getElem?_getD, (show k < lens.length by omega)]
    · by_cases h2 : idx + 1 ≤ k ∧ k < idx + 1 + r
      · rw [if_pos h2, if_pos (by omega)]
      · rw [if_neg h2, if_neg (by omega)]
        simp [List.getD_eq_getElem?_getD, Ne.symm hk]

/-- A run keeps the array's size. -/
@[simp] theorem fillLens_length (r : Nat) : ∀ (idx : Nat) (v : BitVec 4) (lens : List (BitVec 4)),
    (fillLens r idx v lens).length = lens.length := by
  induction r with
  | zero => intros; rfl
  | succ r ih => intro idx v lens; rw [fillLens, ih, List.length_set]

end Sys2Proof.Machine
end

