-- ==== Sys2Proof/Machine/Assembler.lean ====
section
/-! DEFINITION. The notation for streams of R111, and the bytes a text in it stands for. No step uses it: it is how a
stream is written down. -/

namespace Sys2Proof.Machine

/-- One line of the notation (R111). -/
inductive Line where
  /-- `BLOCK final=f STORED len=N data=..`, and with `nlen=M` where one is given. -/
  | stored (final : Bool) (len : BitVec 16) (nlen : Option (BitVec 16)) (data : List Byte)
  /-- `BLOCK final=f FIXED` -/
  | fixed (final : Bool)
  /-- `BLOCK final=f DYNAMIC hlit=a hdist=b hclen=c cl={sym:len,..}` -/
  | dynamic (final : Bool) (hlit hdist hclen : Nat) (cl : List (Nat × Nat))
  /-- `BLOCK final=f RESERVED` -/
  | reserved (final : Bool)
  /-- `CL v` -/
  | cl (v : Nat)
  /-- `CL16 n` -/
  | cl16 (n : Nat)
  /-- `CL17 n` -/
  | cl17 (n : Nat)
  /-- `CL18 n` -/
  | cl18 (n : Nat)
  /-- `LIT b` -/
  | lit (b : Byte)
  /-- `EOB` -/
  | eob
  /-- `REF len=L dist=D` -/
  | ref (length distance : Nat)
  /-- `SYM s` -/
  | sym (s : Nat)
  /-- `DSYM d` -/
  | dsym (d : Nat)
  deriving DecidableEq, Repr

/-- The bits of a field of `n` bits, least significant first (R69). -/
def fieldBits (v n : Nat) : List Bool := (List.range n).map v.testBit

/-- The bits of a symbol's codeword (R70); none for a symbol the table has no codeword for. -/
def symbolBits (t : Table) (sym : Nat) : List Bool :=
  match t.fwd sym with
  | some (v, n) => codeBits v n
  | none => []

/-- The length symbol of a length (R111). -/
def lengthSymbol (l : Nat) : Nat :=
  if l = 258 then 285
  else (((List.range 28).map (· + 257)).find? fun s => lenBase s ≤ l && l < lenBase s + 2 ^ lenExtra s).getD 0

/-- The distance symbol of a distance (R111). -/
def distanceSymbol (d : Nat) : Nat :=
  ((List.range 30).find? fun s => distBase s ≤ d && d < distBase s + 2 ^ distExtra s).getD 0

/-- A text being assembled: its bits, the tables in force, and the coded lengths of the dynamic header at hand. -/
structure Asm where
  bits : List Bool
  hlit : Nat
  hdist : Nat
  lens : List Nat
  cl : Table
  ll : Table
  d : Table
  deriving DecidableEq, Repr

/-- The start of a text. -/
def Asm.empty : Asm := { bits := [], hlit := 0, hdist := 0, lens := [], cl := [], ll := [], d := [] }

/-- More bits. -/
def Asm.add (a : Asm) (bits : List Bool) : Asm := { a with bits := a.bits ++ bits }

/-- A run of coded lengths; with the last one the tables of the block are there (R197, R198). -/
def Asm.addLens (a : Asm) (bits : List Bool) (run : List Nat) : Asm :=
  let lens := a.lens ++ run
  let a := { a.add bits with lens := lens }
  if lens.length < a.hlit + a.hdist then a
  else
    { a with
      ll := buildTable (lens.take a.hlit) Config.maxBitsLL
      d := buildTable ((lens.drop a.hlit).take a.hdist) Config.maxBitsD }

/-- One line (R111). -/
def Asm.line (a : Asm) : Line → Asm
  | .stored final len nlen data =>
    let a := a.add (fieldBits final.toNat 1 ++ fieldBits 0 2)
    let a := a.add (List.replicate ((8 - a.bits.length % 8) % 8) false)
    a.add (fieldBits len.toNat 16 ++ fieldBits (nlen.getD (~~~len)).toNat 16 ++ data.flatMap byteBits)
  | .fixed final => { a.add (fieldBits final.toNat 1 ++ fieldBits 1 2) with ll := fixedLLTable, d := fixedDTable }
  | .dynamic final hlit hdist hclen cl =>
    let len sym := ((cl.find? fun p => p.1 == sym).map (·.2)).getD 0
    let a := a.add (fieldBits final.toNat 1 ++ fieldBits 2 2)
    let a := a.add (fieldBits (hlit - 257) 5 ++ fieldBits (hdist - 1) 5 ++ fieldBits (hclen - 4) 4)
    { a.add ((clOrder.take hclen).flatMap fun sym => fieldBits (len sym) 3) with
      hlit := hlit
      hdist := hdist
      lens := []
      cl := buildTable ((List.range Config.nCodeLen).map len) Config.maxBitsCL }
  | .reserved final => a.add (fieldBits final.toNat 1 ++ fieldBits 3 2)
  | .cl v => a.addLens (symbolBits a.cl v) [v]
  | .cl16 n => a.addLens (symbolBits a.cl 16 ++ fieldBits (n - 3) 2) (List.replicate n (a.lens.getLastD 0))
  | .cl17 n => a.addLens (symbolBits a.cl 17 ++ fieldBits (n - 3) 3) (List.replicate n 0)
  | .cl18 n => a.addLens (symbolBits a.cl 18 ++ fieldBits (n - 11) 7) (List.replicate n 0)
  | .lit b => a.add (symbolBits a.ll b.toNat)
  | .eob => a.add (symbolBits a.ll 256)
  | .ref l d =>
    let s := lengthSymbol l
    let t := distanceSymbol d
    a.add (symbolBits a.ll s ++ fieldBits (l - lenBase s) (lenExtra s) ++ symbolBits a.d t ++
      fieldBits (d - distBase t) (distExtra t))
  | .sym s => a.add (symbolBits a.ll s)
  | .dsym d => a.add (symbolBits a.d d)

/-- The bytes of a bit sequence, the first bit of each least significant (R68); the last byte is filled with zeros. -/
def packBytes : List Bool → List Byte
  | b0 :: b1 :: b2 :: b3 :: b4 :: b5 :: b6 :: b7 :: bs =>
    BitVec.ofNat 8 (fieldValue [b0, b1, b2, b3, b4, b5, b6, b7]) :: packBytes bs
  | [] => []
  | bs => [BitVec.ofNat 8 (fieldValue bs)]

/-- The bytes of a text in the notation of R111. -/
def assemble (text : List Line) : List Byte := packBytes (text.foldl Asm.line Asm.empty).bits

end Sys2Proof.Machine
end

