-- ==== Sys2Proof/Tests/Slice0.lean ====
section
/-! SUPPORT. Tests with their expected results from the spec (95_test_vectors.md, 30_encoding.md), and for each statement
with hypotheses a witness that meets them. -/

namespace Sys2Proof.Tests

open Sys2Proof.Machine

/-! ## Helpers -/

/-- A state at a position, with values the position's operands can have. -/
def stateAt (p : Fsm) : State :=
  { State.reset with fsm := p, hlit := 257, hdist := 1, hclen := 4, curLen := 3, storedLen := 1, storedRem := 1 }

/-- The same, the host presenting bytes. -/
def presenting (p : Fsm) (bytes : List Byte) : State := { stateAt p with input := bytes }

/-- A field of the next state, if there is one. -/
def after {α : Type} (o : Host.Outcome State Fault Refusal) (f : State → α) : Option α :=
  match o with
  | .next s => some (f s)
  | _ => none

/-- What a read of input comes to: its value and the bits left, or the error code. -/
def outcome {α : Type} (f : Flow α) : Option α × BitVec 4 × BitVec 4 :=
  match f with
  | .done a s => (some a, s.bitcnt, s.errCode)
  | .hold s => (none, s.bitcnt, s.errCode)
  | .failed s => (none, s.bitcnt, s.errCode)

/-! ## WellFormed: each bound of R107 -/

theorem test_wf_short : (Instr.opBackref 2 1).wellFormed = false := by decide
theorem test_wf_long : (Instr.opBackref 259 1).wellFormed = false := by decide
theorem test_wf_near : (Instr.opBackref 3 0).wellFormed = false := by decide
theorem test_wf_far : (Instr.opBackref 3 32769).wellFormed = false := by decide
theorem test_wf_bounds : (Instr.opBackref 3 1).wellFormed ∧ (Instr.opBackref 258 32768).wellFormed := by decide

/-! ## Decode: words written out from the encoding tables -/

/-- `{BTYPE[1:0], BFINAL}` (R91, R92). -/
theorem test_decode_blockHdr : ∀ p ∈ ([
    (0b000, .blockStored false), (0b001, .blockStored true), (0b010, .blockFixed false), (0b011, .blockFixed true),
    (0b100, .blockDynamic false), (0b101, .blockDynamic true), (0b110, .blockReserved false),
    (0b111, .blockReserved true)] : List (BitVec 25 × Instr)), decode .blockHdr p.1 = .ok p.2 := by decide

/-- R99. -/
theorem test_decode_litLen_1 : ∀ p ∈ ([
    (0b0_0000_0000, .lit 0), (0b0_0110_0001, .lit 0x61), (0b0_1111_1111, .lit 255), (0b1_0000_0000, .eob),
    (0b1_0000_0001, .len257), (0b1_0000_0010, .len258), (0b1_0000_0011, .len259), (0b1_0000_0100, .len260),
    (0b1_0000_0101, .len261), (0b1_0000_0110, .len262), (0b1_0000_0111, .len263), (0b1_0000_1000, .len264),
    (0b1_0000_1001, .len265), (0b1_0000_1010, .len266), (0b1_0000_1011, .len267), (0b1_0000_1100, .len268),
    (0b1_0000_1101, .len269), (0b1_0000_1110, .len270)] : List (BitVec 25 × Instr)),
    decode .litLenSym p.1 = .ok p.2 := by decide

theorem test_decode_litLen_2 : ∀ p ∈ ([
    (0b1_0000_1111, .len271), (0b1_0001_0000, .len272), (0b1_0001_0001, .len273), (0b1_0001_0010, .len274),
    (0b1_0001_0011, .len275), (0b1_0001_0100, .len276), (0b1_0001_0101, .len277), (0b1_0001_0110, .len278),
    (0b1_0001_0111, .len279), (0b1_0001_1000, .len280), (0b1_0001_1001, .len281), (0b1_0001_1010, .len282),
    (0b1_0001_1011, .len283), (0b1_0001_1100, .len284), (0b1_0001_1101, .len285), (0b1_0001_1110, .len286),
    (0b1_0001_1111, .len287)] : List (BitVec 25 × Instr)), decode .litLenSym p.1 = .ok p.2 := by decide

theorem test_decode_litLen_none :
    decode .litLenSym 0b1_0010_0000 = .error .noSuchLitLenSymbol ∧
    decode .litLenSym 0b1_1111_1111 = .error .noSuchLitLenSymbol := by decide

/-- R101. -/
theorem test_decode_dist : ∀ p ∈ ([
    (0b00000, .dist0), (0b00001, .dist1), (0b00010, .dist2), (0b00011, .dist3), (0b00100, .dist4), (0b00101, .dist5),
    (0b00110, .dist6), (0b00111, .dist7), (0b01000, .dist8), (0b01001, .dist9), (0b01010, .dist10),
    (0b01011, .dist11), (0b01100, .dist12), (0b01101, .dist13), (0b01110, .dist14), (0b01111, .dist15),
    (0b10000, .dist16), (0b10001, .dist17), (0b10010, .dist18), (0b10011, .dist19), (0b10100, .dist20),
    (0b10101, .dist21), (0b10110, .dist22), (0b10111, .dist23), (0b11000, .dist24), (0b11001, .dist25),
    (0b11010, .dist26), (0b11011, .dist27), (0b11100, .dist28), (0b11101, .dist29), (0b11110, .dist30),
    (0b11111, .dist31)] : List (BitVec 25 × Instr)), decode .distSym p.1 = .ok p.2 := by decide

/-- R102. -/
theorem test_decode_codeLen : ∀ p ∈ ([
    (0b00000, .clLen 0), (0b01111, .clLen 15), (0b10000, .clRep16), (0b10001, .clZero17), (0b10010, .clZero18)] :
    List (BitVec 25 × Instr)), decode .clSym p.1 = .ok p.2 := by decide

theorem test_decode_codeLen_none :
    decode .clSym 0b10011 = .error .noSuchCodeLenSymbol ∧ decode .clSym 0b11111 = .error .noSuchCodeLenSymbol := by
  decide

/-- The op words of section 2.5. -/
theorem test_decode_op : ∀ p ∈ ([
    (0x184, .opLiteral 0x61), (0x1, .opEndOfBlock), (0x2, .opBackref 3 1), (0x16, .opBackref 8 1),
    (0x1FFFFFE, .opBackref 258 32768)] : List (BitVec 25 × Instr)), decode .windowOp p.1 = .ok p.2 := by decide

theorem test_decode_op_none : decode .windowOp 0b11 = .error .reservedOpTag := by decide

/-- The encoder on the same op words (section 2.5). -/
theorem test_encode_op : encode (.opLiteral 0x61) = (.windowOp, 0x184) ∧ encode .opEndOfBlock = (.windowOp, 0x1) ∧
    encode (.opBackref 8 1) = (.windowOp, 0x16) ∧ encode (.opBackref 258 32768) = (.windowOp, 0x1FFFFFE) := by decide

/-- The host's two functions on table words: EOB is 256 in 9 bits, OP_END_OF_BLOCK is 1 in 2 bits, BLOCK_FIXED is 2. -/
theorem test_table_words : decodeTableWord 16 256 = some .eob ∧ decodeTableWord 8 1 = some .opEndOfBlock ∧
    decodeTableWord 8 2 = some (.blockFixed false) ∧ decodeTableWord 8 30 = some .dist30 := by decide

/-! ## The Canonical Huffman Table: section 2.2 -/

theorem test_T1 : (List.range 8).map (buildTable [3, 3, 3, 3, 3, 2, 4, 4] 15).fwd =
    [some (0b010, 3), some (0b011, 3), some (0b100, 3), some (0b101, 3), some (0b110, 3), some (0b00, 2),
      some (0b1110, 4), some (0b1111, 4)] := by decide

theorem test_T2 : (List.range 6).map (buildTable [0, 2, 1, 0, 3, 3] 15).fwd =
    [none, some (0b10, 2), some (0b0, 1), none, some (0b110, 3), some (0b111, 3)] := by decide

theorem test_T3 : (List.range 7).map (buildTable [2, 0, 2, 0, 2, 0, 2] 15).fwd =
    [some (0, 2), none, some (1, 2), none, some (2, 2), none, some (3, 2)] := by decide

/-- Over-subscribed: the value 2 does not fit its length 1, and no error is made (R156, R157). -/
theorem test_T4 : (List.range 3).map (buildTable [1, 1, 1] 15).fwd = [some (0, 1), some (1, 1), some (2, 1)] := by
  decide

theorem test_T6 : (buildTable [0, 0, 0, 0, 0, 4] 15).fwd 5 = some (0, 4) := by decide

/-- The code-length table of P3. -/
theorem test_T8 : [2, 3, 18, 1, 17].map
    (buildTable [0, 3, 2, 2, 0, 0, 0, 0, 0, 0, 0, 0, 0, 0, 0, 0, 0, 3, 2] 7).fwd =
    [some (0b00, 2), some (0b01, 2), some (0b10, 2), some (0b110, 3), some (0b111, 3)] := by decide

theorem test_T9 : buildTable (List.replicate 19 0) 7 = [] := by decide

/-- Example E2 and the three codewords below it. -/
theorem test_E2 : [0, 143, 144, 256, 280, 255, 279, 287].map fixedLLTable.fwd =
    [some (0b00110000, 8), some (0b10111111, 8), some (0b110010000, 9), some (0b0000000, 7), some (0b11000000, 8),
      some (0b111111111, 9), some (0b0010111, 7), some (0b11000111, 8)] := by decide +kernel

/-! ## The Bit Source: section 2.1 -/

theorem test_B2 : outcome (readBits 7 (presenting .idle [0x80, 0x01])) = (some 0, 1, 0) ∧
    outcome (readBits 2 { presenting .idle [0x01] with bitbuf := 1, bitcnt := 1 }) = (some 3, 7, 0) := by decide

theorem test_B3 : outcome (readBits 0 { stateAt .idle with inEnd := true }) = (some 0, 0, 0) := by decide

theorem test_B4 : outcome (readBit { stateAt .idle with inEnd := true }) = (none, 0, 1) := by decide

theorem test_B7 :
    outcome (readBits 5 { presenting .idle [0x1E] with bitbuf := 0b101, bitcnt := 3 }) = (some 21, 6, 0) := by decide

/-! ## Decoding a symbol: H1, H2, H3, H5 (the bits of a byte come least significant first) -/

theorem test_H : outcome (decodeSymbol (buildTable [3, 3, 3, 3, 3, 2, 4, 4] 15) 15 0 (presenting .idle [0b00])) =
      (some 5, 6, 0) ∧
    outcome (decodeSymbol (buildTable [3, 3, 3, 3, 3, 2, 4, 4] 15) 15 0 (presenting .idle [0b1111])) =
      (some 7, 4, 0) ∧
    outcome (decodeSymbol (buildTable [3, 3, 3, 3, 3, 2, 4, 4] 15) 15 0 (presenting .idle [0b110])) =
      (some 1, 5, 0) := by decide

theorem test_H5 : outcome (decodeSymbol (buildTable [1, 2] 15) 15 0 (presenting .idle [0xFF, 0xFF])) =
    (none, 1, 7) := by decide

/-! ## Single steps -/

/-- A block header placed by the host runs: BLOCK_FIXED selects the fixed tables (R345). -/
theorem test_step_placed :
    after (step (State.reset.withFetchWord 8 2)) (fun s => (s.fsm, s.btype, s.tsel)) =
      some (.huffSym .symbol, 1, false) := by decide

/-- A placed EOB runs (R232). -/
theorem test_step_eob : after (step (State.reset.withFetchWord 16 256)) (·.fsm) = some .blockEnd := by decide

/-- BTYPE 3 (X1): RESERVED_BLOCK_TYPE with 3. -/
theorem test_step_reserved :
    after (step { stateAt (.blockHdr .dispatch) with btype := 3 }) (fun s => (s.fsm, s.errCode, s.errInfo)) =
      some (.error, 2, 3) := by decide

/-- X2: LENGTH_COMPLEMENT_MISMATCH, NLEN above LEN. -/
theorem test_step_complement :
    after (step { stateAt (.stored .check) with storedLen := 5, storedNlen := 0xFEFA })
      (fun s => (s.errCode, s.errInfo)) = some (3, 0xFEFA0005) := by decide

/-- X4: code 16 first. -/
theorem test_step_rep16_first :
    after (step (stateAt (.dynHdr (.execCl 16)))) (fun s => (s.errCode, s.errInfo)) = some (6, 0x00010000) := by decide

/-- X9: the second run of 138 starts at 138, past 258. -/
theorem test_step_zero18_overflow :
    after (step { presenting (.dynHdr (.execCl 18)) [0x7F] with lenIdx := 138 }) (fun s => (s.errCode, s.errInfo)) =
      some (6, 0x0002008A) := by decide

/-- LEN_284 with extra bits 30 is 257 (R261). -/
theorem test_step_len284 :
    after (exec .len284 (presenting (.huffSym .execSym) [30])) (fun s => (s.curLen, s.bitcnt)) = some (257, 3) := by
  decide

/-- DIST_29 with extra bits all 1 is 32768 (R295). -/
theorem test_step_dist29 :
    after (exec .dist29 (presenting (.huffSym .execDist) [0xFF, 0xFF])) (fun s => (s.curDist, s.bitcnt)) =
      some (32768, 3) := by decide

/-- X3: a distance on an empty history. -/
theorem test_step_too_far :
    after (exec (.opBackref 3 1) (stateAt (.huffSym .execDist))) (fun s => (s.errCode, s.errInfo)) =
      some (8, 0x00030001) := by decide

/-- E4: one byte of the copy of `a`, at distance 1. -/
theorem test_step_copy :
    after (step { stateAt .copy with hist := [(0, 0x61)], wp := 1, filled := 1, wlog2 := 15, curDist := 1, copyRem := 8 })
      (fun s => (s.hist, s.output, s.wp, s.filled)) = some ([(0, 0x61), (1, 0x61)], [0x61], 2, 2) := by
  decide +kernel

/-- P6: the fifth stored byte in a window of 4 replaces the first. -/
theorem test_step_wrap :
    after (exec (.opLiteral 0x35) { stateAt (.stored (.op 0xD4)) with
        wlog2 := 2, hist := [(0, 0x31), (1, 0x32), (2, 0x33), (3, 0x34)], filled := 4 })
      (fun s => (s.hist, s.wp, s.filled, s.storedRem)) =
      some ([(0, 0x35), (1, 0x32), (2, 0x33), (3, 0x34)], 1, 4, 0) := by decide +kernel

/-! ## The notation of R111: P2, P4 and P5 -/

theorem test_assemble_P2 : assemble [.fixed true, .lit 0x61, .ref 8 1, .eob] = [0x4B, 0x84, 0x01, 0x00] := by
  decide +kernel

theorem test_assemble_P4 : assemble [.stored false 3 none [0x78, 0x79, 0x7A], .fixed true, .ref 6 3, .lit 0x21, .eob] =
    [0x00, 0x03, 0x00, 0xFC, 0xFF, 0x78, 0x79, 0x7A, 0x83, 0x20, 0x45, 0x00] := by decide +kernel

theorem test_assemble_P5 : assemble [.dynamic true 258 1 18 [(1, 3), (2, 2), (4, 3), (16, 2), (18, 2)], .cl18 97, .cl 4,
    .cl16 3, .cl16 4, .cl18 138, .cl18 13, .cl 2, .cl 2, .cl 1, .lit 0x61, .lit 0x62, .ref 3 1, .lit 0x68, .eob] =
    [0x0D, 0xC0, 0x05, 0x01, 0x00, 0x00, 0x0C, 0x80, 0xB0, 0xAC, 0x17, 0xEB, 0x9F, 0x00, 0x16, 0xA9, 0x07] := by
  decide +kernel

/-! ## Witnesses: for each statement with hypotheses, states and operands that meet all of them -/

theorem witness_DecodeOfEncode : (Instr.opBackref 258 32768).wellFormed = true ∧ (Instr.lit 255).wellFormed = true := by
  decide

theorem witness_EncodeOfDecode :
    (Format.blockHdr ≠ .windowOp ∧ (7 : BitVec 25).toNat < 2 ^ Format.width .blockHdr ∧
      decode .blockHdr 7 = .ok (.blockReserved true)) ∧
    (Format.clSym ≠ .windowOp ∧ (18 : BitVec 25).toNat < 2 ^ Format.width .clSym ∧
      decode .clSym 18 = .ok .clZero18) := by decide

/-- Both sides of each bound. -/
theorem witness_RejectedWords :
    ((288 : BitVec 25).toNat < 2 ^ Format.width .litLenSym ∧ decode .litLenSym 288 = .error .noSuchLitLenSymbol ∧
      decode .litLenSym 287 = .ok .len287) ∧
    ((19 : BitVec 25).toNat < 2 ^ Format.width .clSym ∧ decode .clSym 19 = .error .noSuchCodeLenSymbol ∧
      decode .clSym 18 = .ok .clZero18) ∧
    ((7 : BitVec 25).toNat < 2 ^ Format.width .windowOp ∧ decode .windowOp 7 = .error .reservedOpTag ∧
      decode .windowOp 6 = .ok (.opBackref 4 1)) := by decide

theorem witness_StepRunsDecoded :
    (stateAt (.blockHdr .dispatch)).rst = false ∧ (stateAt (.blockHdr .dispatch)).start = false ∧
    decodeBlockHdr ((stateAt (.blockHdr .dispatch)).btype ++ BitVec.ofBool (stateAt (.blockHdr .dispatch)).bfinal) =
      .ok (.blockStored false) ∧
    decodeLitLen (stateAt (.huffSym .execSym)).curSym = .ok (.lit 0) ∧
    decodeDist (stateAt (.huffSym .execDist)).curDsym = .ok .dist0 ∧
    decodeCodeLen 18 = .ok .clZero18 ∧ decodeOp 0x184 = .ok (.opLiteral 0x61) ∧
    decodeOp 0x1FFFFFE = .ok (.opBackref 258 32768) := by decide

theorem witness_PlacedWordRuns : decodeTableWord 16 287 = some .len287 ∧ decodeTableWord 8 31 = some .dist31 := by decide

/-- A table with an absent symbol, a first and a last one. -/
theorem witness_CanonicalCodewords :
    (∀ l ∈ [0, 2, 1, 0, 3, 3], l ≤ 15) ∧ 0 < [0, 2, 1, 0, 3, 3].length ∧ 5 < [0, 2, 1, 0, 3, 3].length ∧
    [0, 2, 1, 0, 3, 3].getD 0 0 = 0 ∧ [0, 2, 1, 0, 3, 3].getD 5 0 ≠ 0 := by decide

theorem witness_InverseOfForward : (∀ l ∈ [0, 2, 1, 0, 3, 3], l ≤ 15) ∧
    (buildTable [0, 2, 1, 0, 3, 3] 15).inv 0b111 3 = some 5 := by decide

/-- Complete, and incomplete; the length arrays of T1 and T5. -/
theorem witness_LegalTablesPrefixFree : legalLengths [3, 3, 3, 3, 3, 2, 4, 4] 15 ∧ legalLengths [1, 2] 15 ∧
    (⟨0, 0b010, 3⟩ : TableEntry) ∈ buildTable [3, 3, 3, 3, 3, 2, 4, 4] 15 ∧
    (⟨1, 0b011, 3⟩ : TableEntry) ∈ buildTable [3, 3, 3, 3, 3, 2, 4, 4] 15 ∧
    codeBits 0b010 3 <+: codeBits 0b010 3 := by
  refine ⟨⟨by decide, by decide⟩, ⟨by decide, by decide⟩, by decide, by decide, List.prefix_refl _⟩

/-- The literal/length, and the code-length alphabet, each as long as it can be. -/
theorem witness_CodewordWidths : (List.replicate 288 15).length ≤ 288 ∧ (∀ l ∈ List.replicate 288 15, l ≤ 15) ∧
    (⟨0, 0, 15⟩ : TableEntry) ∈ buildTable [15] 15 ∧ (List.replicate 19 7).length ≤ 288 ∧
    (∀ l ∈ List.replicate 19 7, l ≤ 7) ∧ (⟨18, 18, 7⟩ : TableEntry) ∈ buildTable (List.replicate 19 7) 7 := by
  decide +kernel

/-- Exactly 9 and exactly 5 bits. -/
theorem witness_FixedTablesComplete :
    let s : State := { presenting (.huffSym .symbol) [0] with bitcnt := 1 }
    let t : State := { stateAt (.huffSym .dist) with bitcnt := 5 }
    (s.rst = false ∧ s.start = false ∧ s.inReady = false ∧ s.tsel = false ∧ s.fsm = .huffSym .symbol ∧
      9 ≤ s.unread.length) ∧
    (t.rst = false ∧ t.start = false ∧ t.inReady = false ∧ t.tsel = false ∧ t.fsm = .huffSym .dist ∧
      5 ≤ t.unread.length) := by decide

/-- Codewords of 1 and of the longest length, in each alphabet. -/
theorem witness_DecodeConsumesCodeword :
    let s (n : BitVec 4) : State :=
      { presenting (.huffSym .symbol) [0, 0] with tsel := true, llLen := [n], dLen := [n] }
    let c : State := { presenting (.dynHdr .symbol) [0] with clLen := [7] }
    ((s 1).rst = false ∧ (s 1).start = false ∧ (s 1).inReady = false ∧ 15 ≤ (s 1).unread.length) ∧
    ((s 1).llTable.noMatchBelow (s 1).unread 1 ∧ (s 1).llTable.matchAt (s 1).unread 1 = some 0) ∧
    ((s 15).llTable.noMatchBelow (s 15).unread 15 ∧ (s 15).llTable.matchAt (s 15).unread 15 = some 0) ∧
    ((s 15).dTable.noMatchBelow (s 15).unread 15 ∧ (s 15).dTable.matchAt (s 15).unread 15 = some 0) ∧
    (c.lenIdx.toNat < c.nCoded ∧ 7 ≤ c.unread.length ∧ c.clTable.noMatchBelow c.unread 7 ∧
      c.clTable.matchAt c.unread 7 = some 0) := by
  intro s c
  refine ⟨by decide, ⟨?_, by decide⟩, ⟨?_, by decide⟩, ⟨?_, by decide⟩, by decide, by decide, ?_, by decide⟩
  all_goals intro m h1 h2; interval_cases m <;> decide

theorem witness_DecodeWithoutCodeword :
    let s : State := { presenting (.huffSym .symbol) [0, 0] with tsel := true, llLen := [], dLen := [] }
    let c : State := { presenting (.dynHdr .symbol) [0] with clLen := [] }
    s.rst = false ∧ s.start = false ∧ s.inReady = false ∧ 15 ≤ s.unread.length ∧
    s.llTable.noMatchBelow s.unread 16 ∧ s.dTable.noMatchBelow s.unread 16 ∧
    c.lenIdx.toNat < c.nCoded ∧ 7 ≤ c.unread.length ∧ c.clTable.noMatchBelow c.unread 8 := by
  intro s c
  refine ⟨rfl, rfl, rfl, by decide, ?_, ?_, by decide, by decide, ?_⟩
  all_goals intro m _ _; rfl

/-- The last symbol of each alphabet, with a codeword of the longest length. -/
theorem witness_LegalTableRoundTrip :
    let s : State :=
      { presenting (.huffSym .symbol) [0, 0x80] with
        tsel := true, llLen := List.replicate 287 0 ++ [15], dLen := List.replicate 31 0 ++ [15] }
    let c : State := { presenting (.dynHdr .symbol) [0x80] with clLen := List.replicate 18 0 ++ [7] }
    (s.rst = false ∧ s.start = false ∧ s.inReady = false ∧ s.tsel = true ∧ s.unread = codeBits 0 15 ++ [true]) ∧
    (s.llLen.length = 288 ∧ legalLengths (s.llLen.map BitVec.toNat) 15 ∧ s.llTable.fwd 287 = some (0, 15)) ∧
    (s.dLen.length = 32 ∧ legalLengths (s.dLen.map BitVec.toNat) 15 ∧ s.dTable.fwd 31 = some (0, 15)) ∧
    (c.rst = false ∧ c.start = false ∧ c.inReady = false ∧ c.lenIdx.toNat < c.nCoded ∧ c.clLen.length = 19 ∧
      legalLengths (c.clLen.map BitVec.toNat) 7 ∧ c.clTable.fwd 18 = some (0, 7) ∧
      c.unread = codeBits 0 7 ++ [true]) := by
  intro s c
  refine ⟨⟨rfl, rfl, rfl, rfl, ?_⟩, ⟨?_, ⟨?_, ?_⟩, ?_⟩, ⟨?_, ⟨?_, ?_⟩, ?_⟩, rfl, rfl, rfl, ?_, rfl, ⟨?_, ?_⟩, ?_, ?_⟩ <;>
    decide +kernel

theorem witness_EmptyDistanceTable :
    let s : State := { presenting (.huffSym .dist) [0xFF, 0x7F] with tsel := true }
    s.rst = false ∧ s.start = false ∧ s.inReady = false ∧ s.fsm = .huffSym .dist ∧ s.tsel = true ∧
    s.dLen = List.replicate 32 0 ∧ 15 ≤ s.unread.length := by
  intro s
  exact ⟨rfl, rfl, rfl, rfl, rfl, rfl, by decide⟩

theorem witness_HeaderBits :
    let s (p : HdrPos) : State := { presenting (.blockHdr p) [] with bitbuf := 0b11, bitcnt := 2 }
    ∀ p, (s p).rst = false ∧ (s p).start = false ∧ (s p).inReady = false ∧ (s p).unread = [true, true] := by
  intro s p
  exact ⟨rfl, rfl, rfl, by cases p <;> decide⟩

theorem witness_BlockEndTestsFinal :
    let s (b : Bool) : State := { stateAt .blockEnd with bfinal := b }
    ∀ b, (s b).rst = false ∧ (s b).start = false ∧ (s b).fsm = .blockEnd ∧ (s b).bfinal = b := by
  intro s b
  exact ⟨rfl, rfl, rfl, rfl⟩

/-- StoredLengthBytes and StoredDataLoop: every position, with a byte presented. -/
theorem witness_Stored :
    let s (p : StoredPos) : State := presenting (.stored p) [0xFF]
    ∀ p, (s p).rst = false ∧ (s p).start = false ∧ (s p).fsm = .stored p ∧ (s p).input = [0xFF] := by
  intro s p
  exact ⟨rfl, rfl, rfl, rfl⟩

theorem witness_StoredDataLoop :
    (stateAt (.stored .data)).storedRem ≠ 0 ∧ { stateAt (.stored .data) with storedRem := 0 }.storedRem = 0 ∧
    { stateAt (.stored .data) with storedRem := 0xFFFF }.storedRem ≠ 0 := by decide

theorem witness_StoredComplementCheck :
    let s (n : BitVec 16) : State := { stateAt (.stored .check) with storedLen := 5, storedNlen := n }
    ((s 0xFFFA).rst = false ∧ (s 0xFFFA).start = false ∧ (s 0xFFFA).fsm = .stored .check ∧
      (s 0xFFFA).storedNlen = ~~~(s 0xFFFA).storedLen) ∧ (s 0xFEFA).storedNlen ≠ ~~~(s 0xFEFA).storedLen := by decide

theorem witness_StoredKeepsTables :
    (stateAt (.stored .align)).rst = false ∧ (stateAt (.stored .align)).fsm.name = .stored ∧
    ∃ t, step (stateAt (.stored .align)) = .next t := ⟨rfl, rfl, _, rfl⟩

/-- Exactly the bits needed. -/
theorem witness_HeaderCounts :
    let s (p : DynPos) (n : BitVec 4) : State := { stateAt (.dynHdr p) with bitcnt := n }
    ∀ p, (s p 5).rst = false ∧ (s p 5).start = false ∧ (s p 5).inReady = false ∧ 5 ≤ (s p 5).unread.length ∧
      4 ≤ (s p 4).unread.length := by
  intro s p
  exact ⟨rfl, rfl, rfl, le_refl 5, le_refl 4⟩

/-- The first, the last, and one past the last. -/
theorem witness_CodeLengthLengths :
    let s (i : Nat) : State := { stateAt (.dynHdr (.clLen i)) with hclen := 19, bitcnt := 3 }
    ∀ i, (s i).rst = false ∧ (s i).start = false ∧ (s i).inReady = false ∧ 3 ≤ (s i).unread.length ∧
      0 < (s i).hclen.toNat ∧ 18 < (s i).hclen.toNat ∧ (s i).hclen.toNat ≤ 19 := by
  intro s i
  exact ⟨rfl, rfl, rfl, le_refl 3, (by decide : 0 < 19), (by decide : 18 < 19), le_refl 19⟩

/-- A run that ends exactly at the last entry, for each of the three, and a verbatim length there. -/
theorem witness_CodeLengthSymbols :
    let s (idx : BitVec 9) : State := { presenting (.dynHdr .symbol) [0xFF] with lenIdx := idx }
    (s 0).lens.length = 320 ∧ (s 0).nCoded = 258 ∧ (s 257).lenIdx.toNat < 258 ∧ (s 252).lenIdx ≠ 0 ∧
    (s 252).inReady = false ∧ 7 ≤ (s 252).unread.length ∧
    (s 252).lenIdx.toNat + (3 + fieldValue ((s 252).unread.take 2)) = 258 ∧
    (s 248).lenIdx.toNat + (3 + fieldValue ((s 248).unread.take 3)) = 258 ∧
    (s 120).lenIdx.toNat + (11 + fieldValue ((s 120).unread.take 7)) = 258 := by
  intro s
  exact ⟨List.length_replicate, by decide, by decide, by decide, rfl, by decide, by decide, by decide, by decide⟩

theorem witness_RepeatWithoutPrevious : (stateAt (.dynHdr .symbol)).lenIdx = 0 := rfl

/-- A run one entry too long, for each of the three. -/
theorem witness_RepeatOverflow :
    let s (idx : BitVec 9) : State := { presenting (.dynHdr .symbol) [0xFF] with lenIdx := idx }
    (s 253).lenIdx ≠ 0 ∧ (s 253).inReady = false ∧ 7 ≤ (s 253).unread.length ∧ (s 0).nCoded = 258 ∧
    (s 253).lenIdx.toNat + (3 + fieldValue ((s 253).unread.take 2)) = 259 ∧
    (s 249).lenIdx.toNat + (3 + fieldValue ((s 249).unread.take 3)) = 259 ∧
    (s 121).lenIdx.toNat + (11 + fieldValue ((s 121).unread.take 7)) = 259 := by decide

/-- At the split, and with the last coded length just written. -/
theorem witness_SplitSelectsTables :
    let s : State := { stateAt (.dynHdr .symbol) with lenIdx := 258 }
    (s.rst = false ∧ s.start = false ∧ s.fsm = .dynHdr .symbol ∧ s.nCoded = s.lenIdx.toNat) ∧
    (stateAt (.dynHdr .split)).rst = false ∧ (stateAt (.dynHdr .split)).start = false ∧
    (stateAt (.dynHdr .split)).fsm = .dynHdr .split := by decide

/-- LiteralEmits, OpLiteralEmits and LiteralHolds: the last index of the smallest and of the largest window. -/
theorem witness_Literals :
    let s (w : BitVec 4) (p : BitVec 15) (r : Bool) : State :=
      { stateAt (.huffSym .execSym) with wlog2 := w, wp := p, outReady := r }
    (s 0 0 true).wp.toNat < (s 0 0 true).windowSize ∧ (s 15 32767 true).wp.toNat < (s 15 32767 true).windowSize ∧
    (∀ r, (s 0 0 r).outReady = r) ∧ (s 0 0 true).fsm.name ≠ .stored ∧ (stateAt (.stored .data)).fsm.name = .stored := by
  decide

theorem witness_LiteralHistoryBytes :
    (∃ t, exec (.lit 0x61) (stateAt (.huffSym .execSym)) = .next t) ∧
    (∃ t, exec (.opLiteral 0x61) { stateAt (.stored .data) with outReady := false } = .next t) ∧
    (stateAt (.huffSym .execSym)).hist.wf = true := ⟨⟨_, rfl⟩, ⟨_, rfl⟩, rfl⟩

/-- LengthsWithExtraBits and DistancesWithExtraBits: the fewest and the most extra bits, exactly there; the shortest and
the longest length. -/
theorem witness_ExtraBits :
    let s (n : BitVec 4) (l : BitVec 9) : State := { presenting (.huffSym .execSym) [0xFF] with bitcnt := n, curLen := l }
    ∀ l, (s 0 l).inReady = false ∧ 1 ≤ (s 1 l).unread.length ∧ 13 = (s 5 l).unread.length ∧
      (3 ≤ (s 0 3).curLen.toNat ∧ (s 0 258).curLen.toNat ≤ 258) := by
  intro s l
  exact ⟨rfl, by change 1 ≤ 9; decide, rfl, by decide, by decide⟩

theorem witness_SymbolFormulas :
    decode .litLenSym (BitVec.ofNat 25 257) = .ok .len257 ∧ decode .litLenSym (BitVec.ofNat 25 264) = .ok .len264 ∧
    decode .litLenSym (BitVec.ofNat 25 285) = .ok .len285 ∧ decode .distSym (BitVec.ofNat 25 0) = .ok .dist0 ∧
    decode .distSym (BitVec.ofNat 25 3) = .ok .dist3 ∧
    decode .litLenSym (BitVec.ofNat 25 265) = .ok .len265 ∧ decode .litLenSym (BitVec.ofNat 25 284) = .ok .len284 ∧
    decode .distSym (BitVec.ofNat 25 4) = .ok .dist4 ∧ decode .distSym (BitVec.ofNat 25 29) = .ok .dist29 := by decide

/-- A distance equal to `filled`, and one more, at both ends of the range. -/
theorem witness_BackReferenceCheck :
    let s (f : BitVec 16) : State := { stateAt (.huffSym .dist) with filled := f }
    (1 ≤ (s 1).filled.toNat ∧ (s 0).filled.toNat < 1) ∧ (32768 ≤ (s 32768).filled.toNat ∧ (s 32767).filled.toNat < 32768) := by
  decide

/-- A state in the middle of a copy in a window of one byte, where the distance is the window's size. -/
def copying : State :=
  { stateAt .copy with wlog2 := 0, hist := [(0, 0x61)], wp := 0, filled := 1, output := [0x61], curDist := 1, copyRem := 3 }

theorem witness_CopyOneByte :
    let s (r : BitVec 9) (ready : Bool) : State := { copying with copyRem := r, outReady := ready }
    ∀ r ∈ [(1 : BitVec 9), 258], ∀ ready, (s r ready).rst = false ∧ (s r ready).start = false ∧ (s r ready).fsm = .copy ∧
      (s r ready).copyRem ≠ 0 ∧ (s r ready).wp.toNat < (s r ready).windowSize ∧ (s r ready).outReady = ready ∧
      (s r ready).hist.read
        (((s r ready).wp.toNat + (s r ready).windowSize - (s r ready).curDist.toNat) % (s r ready).windowSize) =
        some 0x61 := by
  decide

/-- The invariant of a state in the middle of a copy. -/
theorem witness_copying_inv : copying.Inv where
  histWf := rfl
  sizes := ⟨List.length_replicate, List.length_replicate, List.length_replicate, List.length_replicate⟩
  bits := by decide
  window := by decide
  filledIs := rfl
  history := by
    intro k h1 h2 _
    obtain rfl : k = 1 := le_antisymm h2 h1
    decide
  ports := ⟨nofun, nofun, nofun, nofun⟩
  status := by decide
  position := by dsimp only [State.positionOk, copying, stateAt]; decide

theorem witness_CopyRepeatsLastBytes : copying.Inv ∧ copying.rst = false ∧ copying.start = false ∧ copying.fsm = .copy ∧
    copying.outReady = true := ⟨witness_copying_inv, rfl, rfl, rfl, rfl⟩

/-- A state with nothing in its history meets the invariant if its position does. -/
theorem inv_of_empty {s : State} (hh : s.hist = []) (ho : s.output = []) (hf : s.filled = 0) (hw : s.wp = 0)
    (hs : s.clLen.length = 19 ∧ s.lens.length = 320 ∧ s.llLen.length = 288 ∧ s.dLen.length = 32)
    (hb : s.bitcnt.toNat ≤ 8 ∧ s.bitbuf.toNat < 2 ^ s.bitcnt.toNat) (hi : s.inReady = false) (hv : s.outValid = false)
    (he : s.errCode.toNat ≤ 8 ∧ (s.errCode ≠ 0 ↔ s.fsm = .error)) (hp : s.positionOk) : s.Inv where
  histWf := by rw [hh]; rfl
  sizes := hs
  bits := hb
  window := by rw [hw, hf]; exact ⟨windowSize_pos s, Nat.zero_le _⟩
  filledIs := by simp [hf, ho]
  history := by
    intro k h1 h2
    rw [hf] at h2
    change k ≤ 0 at h2
    omega
  ports := by simp [hi, hv]
  status := he
  position := hp

/-- States that meet the invariant, one at each position. -/
theorem witness_inv_positions :
    ∀ p ∈ [Fsm.idle, .blockHdr .final, .blockHdr .type, .blockHdr .dispatch, .stored .align, .stored .lenLo,
      .stored (.lenHi 0), .stored .nlenLo, .stored (.nlenHi 0), .stored .check, .stored .data, .stored (.op 0x184),
      .dynHdr .hlit, .dynHdr .hdist, .dynHdr .hclen, .dynHdr (.clLen 0), .dynHdr (.clLen 4), .dynHdr .symbol,
      .dynHdr (.execCl 18), .dynHdr .split, .huffSym .symbol, .huffSym .execSym, .huffSym .dist, .huffSym .execDist,
      .huffSym (.op 0x16), .blockEnd, .done],
      (stateAt p).Inv := by
  intro p hp
  refine inv_of_empty rfl rfl rfl rfl
    ⟨List.length_replicate, List.length_replicate, List.length_replicate, List.length_replicate⟩ ?_ rfl rfl ?_ ?_
  · exact ⟨Nat.zero_le 8, by change 0 < 2 ^ 0; decide⟩
  · change (0 : BitVec 4).toNat ≤ 8 ∧ ((0 : BitVec 4) ≠ 0 ↔ p = .error)
    fin_cases hp <;> decide
  · fin_cases hp <;> dsimp only [State.positionOk, stateAt] <;> decide

/-- InvariantKept, NeverStops, OnlyListedTransitions: a state that meets the invariant, and its next state. -/
theorem witness_InvariantKept : (stateAt (.dynHdr .symbol)).Inv ∧ (stateAt (.dynHdr .symbol)).rst = false ∧
    (stateAt (.dynHdr .symbol)).start = false ∧ ∃ t, step (stateAt (.dynHdr .symbol)) = .next t :=
  ⟨witness_inv_positions _ (by decide), rfl, rfl, _, rfl⟩

/-- ReadWithoutByte: at a position that reads, nothing buffered and nothing presented, before and after the end. -/
theorem witness_ReadWithoutByte :
    let s (e : Bool) : State := { stateAt (.blockHdr .final) with inEnd := e }
    ∀ e, (s e).Inv ∧ (s e).rst = false ∧ (s e).start = false ∧ (s e).inReady = false ∧ (s e).reading = true ∧
      (s e).bitcnt = 0 ∧ (s e).input = [] ∧ (s e).inEnd = e := by
  intro s e
  have h := witness_inv_positions (.blockHdr .final) (by decide)
  exact ⟨⟨h.1, h.2, h.3, h.4, h.5, h.6, h.7, h.8, h.9⟩, rfl, rfl, rfl, rfl, rfl, rfl, rfl⟩

/-- ReadWithoutByte, the second part: one bit short of every field, and a codeword of the longest length one bit short in each
alphabet, before and after the end. -/
theorem witness_ReadWithoutByte_short :
    let f (p : Fsm) (n : BitVec 4) (e : Bool) : State := { stateAt p with bitcnt := n, inEnd := e }
    let w (e : Bool) : State :=
      { presenting (.huffSym .symbol) [0] with bitcnt := 6, tsel := true, llLen := [15], dLen := [15], inEnd := e }
    let c (e : Bool) : State := { stateAt (.dynHdr .symbol) with bitcnt := 6, clLen := [7], inEnd := e }
    (∀ p e, (f p 0 e).rst = false ∧ (f p 0 e).start = false ∧ (f p 0 e).inReady = false ∧ (f p 0 e).unread = [] ∧
      (f p 0 e).storedRem ≠ 0 ∧ 0 < (f p 0 e).hclen.toNat ∧ (f p 1 e).unread.length = 1 ∧
      (f p 2 e).unread.length = 2 ∧ (f p 3 e).unread.length = 3 ∧ (f p 4 e).unread.length = 4 ∧
      (f p 0 e).inEnd = e) ∧
    (∀ e, (w e).inReady = false ∧ (w e).unread.length = 14 ∧ (w e).llTable.noMatchBelow (w e).unread 15 ∧
      (w e).dTable.noMatchBelow (w e).unread 15) ∧
    (∀ e, (c e).inReady = false ∧ (c e).lenIdx.toNat < (c e).nCoded ∧ (c e).unread.length = 6 ∧
      (c e).clTable.noMatchBelow (c e).unread 7) := by
  intro f w c
  refine ⟨fun p e => ⟨rfl, rfl, rfl, rfl, nofun, Nat.zero_lt_succ 3, rfl, rfl, rfl, rfl, rfl⟩,
    fun e => ⟨rfl, rfl, ?_, ?_⟩, fun e => ⟨rfl, ?_, rfl, ?_⟩⟩
  · intro m h1 h2; cases e <;> interval_cases m <;> decide
  · intro m h1 h2; cases e <;> interval_cases m <;> decide
  · cases e <;> decide
  · intro m h1 h2; cases e <;> interval_cases m <;> decide

/-- H6: a codeword that the end of the input cuts short is IO_FAILURE, not INVALID_CODE. -/
theorem test_H6 : outcome (decodeSymbol (buildTable [1, 2] 15) 15 0
    { stateAt .idle with bitbuf := 0b11, bitcnt := 2, inEnd := true }) = (none, 0, 1) := by decide

/-- ExtraBitsCutShort: one bit short of the fewest and of the most extra bits, before and after the end. -/
theorem witness_ExtraBitsCutShort :
    let s (n : BitVec 4) (e : Bool) : State :=
      { stateAt (.huffSym .execSym) with bitcnt := n, bitbuf := 0, lenIdx := 1, inEnd := e }
    let t (e : Bool) : State := { presenting (.huffSym .execDist) [0xFF] with bitcnt := 4, inEnd := e }
    decode .litLenSym (BitVec.ofNat 25 265) = .ok .len265 ∧ lenExtra 265 = 1 ∧
    decode .distSym (BitVec.ofNat 25 29) = .ok .dist29 ∧ distExtra 29 = 13 ∧
    (∀ e, (s 0 e).inReady = false ∧ (s 0 e).unread.length = 0 ∧ (s 1 e).unread.length = 1 ∧
      (s 2 e).unread.length = 2 ∧ (s 6 e).unread.length = 6 ∧ (s 1 e).lenIdx ≠ 0 ∧ (s 1 e).inEnd = e) ∧
    (∀ e, (t e).inReady = false ∧ (t e).unread.length = 12 ∧ (t e).inEnd = e) := by decide

/-- StartBeginsStream and WaitingStates: each of the three states, with and without `start`. -/
theorem witness_Waiting :
    let s (p : Fsm) (b : Bool) : State := { stateAt p with start := b }
    ∀ p b, (s p b).rst = false ∧ (s p b).start = b ∧ (s p b).fsm = p := fun _ _ => ⟨rfl, rfl, rfl⟩

theorem witness_StartIgnoredWhileBusy :
    let s : State := { stateAt .blockEnd with start := true }
    s.rst = false ∧ s.start = true ∧ s.busy = true := by decide

/-- In a held copy that the host accepts at the same moment, with a `start` pending. -/
theorem witness_ResetFromAnyState :
    let s : State := { stateAt .copy with rst := true, start := true, outValid := true, outReady := true }
    s.rst = true ∧ s.start = true ∧ s.outValid = true ∧ s.outReady = true := ⟨rfl, rfl, rfl, rfl⟩

/-- An error without a read (BTYPE 3), and one after reads (a run one entry too long). -/
theorem witness_ErrorEntry :
    let s : State := { stateAt (.blockHdr .dispatch) with btype := 3 }
    let u : State := { presenting (.dynHdr (.execCl 18)) [0x7F] with lenIdx := 138 }
    (∃ t, step s = .next t ∧ s.fsm ≠ .error ∧ t.fsm = .error ∧ t.errCode ≠ 1 ∧ t.errCode ≠ 6 ∧ t.errCode ≠ 7) ∧
    (u.fsm ≠ .error ∧ after (step u) (fun t => (t.fsm, t.errCode)) = some (.error, 6)) :=
  ⟨⟨_, rfl, nofun, rfl, by decide, by decide, by decide⟩, by decide⟩

/-- OutputOnlyGrows, InputInOrder, WindowSizeFixed and NoLookahead: a step that emits, and one that takes a byte. -/
theorem witness_Steps :
    let s : State := { presenting (.blockHdr .final) [1] with wlog2 := 15 }
    let u : State := { stateAt (.huffSym .execSym) with wlog2 := 15 }
    s.rst = false ∧ (s.start = true → s.busy = true) ∧ s.bitcnt.toNat ≤ 7 ∧
    after (step s) (fun t => (t.input, t.cursor, t.bitcnt)) = some ([], 1, 7) ∧
    u.rst = false ∧ (u.start = true → u.busy = true) ∧ after (step u) (·.output) = some [0] := by decide

/-- InputHoldsChangeNothing: a state that holds. -/
theorem witness_InputHolds : (stateAt (.blockHdr .final)).Inv ∧ (stateAt (.blockHdr .final)).inEnd = false ∧
    ∃ h, step (stateAt (.blockHdr .final)) = .next h ∧ h.inReady = true :=
  ⟨witness_inv_positions _ (by decide), rfl, _, rfl, rfl⟩

/-- OutputHoldsChangeNothing: a state that holds. -/
theorem witness_OutputHolds :
    let s : State := { stateAt (.huffSym .execSym) with outReady := false }
    s.Inv ∧ s.outReady = false ∧ ∃ h, step s = .next h ∧ h.outValid = true := by
  have h := witness_inv_positions (.huffSym .execSym) (by decide)
  exact ⟨⟨h.1, h.2, h.3, h.4, h.5, h.6, h.7, h.8, h.9⟩, rfl, _, rfl, rfl⟩

end Sys2Proof.Tests
end

section
/-! PROOF. The invariant at reset. -/

namespace Sys2Proof.Machine

/-- The core after `rst` meets the invariant, whatever the host's ports and the output were: it is IDLE with an empty
history, nothing is buffered, held or in error (R51, R400). -/
theorem resetCore_inv (s : State) : (resetCore s).Inv where
  histWf := reset_hist_wf
  sizes := ⟨List.length_replicate, List.length_replicate, List.length_replicate, List.length_replicate⟩
  bits := ⟨Nat.zero_le 8, Nat.one_pos⟩
  window := ⟨windowSize_pos (resetCore s), Nat.zero_le _⟩
  filledIs := rfl
  history := by
    intro k hk hfilled
    have : k ≤ 0 := hfilled
    omega
  ports := ⟨nofun, nofun, nofun, nofun⟩
  status := ⟨Nat.zero_le 8, (absurd rfl ·), nofun⟩
  position := trivial

/-- `rst` leads from the reset state back to it. -/
theorem resetCore_reset : resetCore State.reset = State.reset := rfl

/-- Settles O51: the reset state is the core after `rst`. -/
theorem invariantAtReset : Obligations.InvariantAtReset := by
  unfold Obligations.InvariantAtReset
  rw [← resetCore_reset]
  exact resetCore_inv State.reset

end Sys2Proof.Machine
end

section
/-! PROOF. What a step without events runs at each position, and the first reads of a stored block. -/

namespace Sys2Proof.Machine

/-! ## A quiet step at a position where no instruction is fetched -/

theorem step_of_work {s : State} (hr : s.rst = false) (hs : s.start = false) (hf : fetch s = none) :
    step s = work s :=
  (step_quiet hr hs).trans (run_of_none hf)

theorem step_blockHdr {s : State} (hr : s.rst = false) (hs : s.start = false) {p : HdrPos}
    (hp : s.fsm = .blockHdr p) (hw : p ≠ .dispatch) : step s = workBlockHdr p s := by
  rw [step_of_work hr hs (by cases p <;> simp_all [fetch]), work, hp]

theorem step_stored {s : State} (hr : s.rst = false) (hs : s.start = false) {p : StoredPos}
    (hp : s.fsm = .stored p) (hw : ∀ w, p ≠ .op w) : step s = workStored p s := by
  rw [step_of_work hr hs (by cases p <;> simp_all [fetch]), work, hp]

theorem step_dynHdr {s : State} (hr : s.rst = false) (hs : s.start = false) {p : DynPos}
    (hp : s.fsm = .dynHdr p) (hw : ∀ c, p ≠ .execCl c) : step s = workDynHdr p s := by
  rw [step_of_work hr hs (by cases p <;> simp_all [fetch]), work, hp]

theorem step_huffSym {s : State} (hr : s.rst = false) (hs : s.start = false) {p : HuffPos}
    (hp : s.fsm = .huffSym p) (hw : p = .symbol ∨ p = .dist) : step s = workHuffSym p s := by
  rw [step_of_work hr hs (by rcases hw with rfl | rfl <;> simp [fetch, hp]), work, hp]

/-- A quiet step at a position where a word is fetched runs the instruction it decodes to. -/
theorem step_of_decode {s : State} (hr : s.rst = false) (hs : s.start = false) {f : Format} {w : BitVec 25} {i : Instr}
    (hf : fetch s = some (f, w)) (hd : decode f w = .ok i) : step s = exec i s :=
  (step_quiet hr hs).trans (run_of_decode hf hd)

/-- A raw byte that the host presents is read, and the work goes on with it (R136, R61). -/
theorem finish_readRawByte_of_input {s : State} {b : Byte} {rest : List Byte} (k : Byte → State → Result State)
    (h : s.input = b :: rest) :
    (readRawByte s).finish k = k b { s with input := rest, cursor := s.cursor + 1, inReady := false } := by
  simp [readRawByte, readByte, h, Flow.finish]

/-- Settles O20: `align` drops the buffered bits, and each of the four byte positions reads one raw byte. -/
theorem storedLengthBytes : Obligations.StoredLengthBytes := by
  intro s lo b rest hr hs
  refine ⟨fun hp => ?_, fun hp hi => ?_, fun hp hi => ?_, fun hp hi => ?_, fun hp hi => ?_⟩
  · rw [step_stored hr hs hp nofun]
    rfl
  all_goals
    rw [step_stored hr hs hp nofun]
    exact finish_readRawByte_of_input _ hi

end Sys2Proof.Machine
end

section
/-! PROOF. Literals: the byte written to the history, and the hold. -/

namespace Sys2Proof.Machine

/-- LIT is PUT, then the next symbol (R231). -/
theorem exec_lit (b : Byte) (s : State) :
    exec (.lit b) s = put b (fun u => { u with fsm := .huffSym .symbol }) s := rfl

/-- OP_LITERAL is PUT, then the return to the position's loop (R320). -/
theorem exec_opLiteral (b : Byte) (s : State) : exec (.opLiteral b) s = put b literalReturn s := rfl

/-- Settles O32: a PUT that the host does not accept (R65, log 17). -/
theorem literalHolds : Obligations.LiteralHolds := by
  intro s b hw hr
  rw [exec_lit, exec_opLiteral, put_held b _ hw hr, put_held b _ hw hr]
  exact ⟨rfl, rfl⟩

theorem literalReturn_hist (s : State) : (literalReturn s).hist = s.hist := by
  unfold literalReturn
  split <;> rfl

/-- PUT writes the byte at `wp`, held or not, when what follows it leaves the history alone (R324). -/
theorem put_hist {b : Byte} {k : State → State} {s t : State} (hk : ∀ u, (k u).hist = u.hist)
    (h : put b k s = .next t) : t.hist = s.hist.write s.wp.toNat b := by
  rcases put_cases b k s with ⟨-, -, h'⟩ | ⟨-, -, h'⟩ | ⟨-, h'⟩ <;> rw [h'] at h <;> cases h
  · simp [hk]
  · simp

/-- Settles O33: both literals write `hist[wp]` and nothing else of the history. -/
theorem literalHistoryBytes : Obligations.LiteralHistoryBytes := by
  intro s t b h
  have hwrite : t.hist = s.hist.write s.wp.toNat b := by
    rcases h with h | h
    · rw [exec_lit] at h
      exact put_hist (by intro _; rfl) h
    · rw [exec_opLiteral] at h
      exact put_hist literalReturn_hist h
  rw [hwrite]
  exact ⟨Memory.read_write_same _ _ _, fun a ha => Memory.read_write_other _ _ _ ha, fun hwf => Memory.write_wf hwf _ _⟩

end Sys2Proof.Machine
end

section
/-! PROOF. The two streams: no step puts input back or takes output back. -/

namespace Sys2Proof.Machine

/-! ## Work that emits nothing -/

/-- From `s` to `t` input was taken in order and counted, and nothing was emitted. -/
structure Takes (s t : State) : Prop where
  reads : Reads s t
  output : t.output = s.output

/-- Work that neither reads nor emits. -/
theorem Takes.of_same {s t : State} (h₁ : t.input = s.input) (h₂ : t.cursor = s.cursor) (h₃ : t.bitcnt = s.bitcnt)
    (h₄ : t.bitbuf = s.bitbuf) (h₅ : t.output = s.output) : Takes s t :=
  ⟨.of_same h₁ h₂ h₃ h₄, h₅⟩

theorem Takes.trans {s t u : State} (h : Takes s t) (h' : Takes t u) : Takes s u :=
  ⟨h.reads.trans h'.reads, h'.output.trans h.output⟩

theorem raise_takes (e : ErrKind) (info : BitVec 32) (s : State) : Takes s (raise e info s) :=
  .of_same rfl rfl rfl rfl rfl

theorem readByte_takes (s : State) : (readByte s).All (Takes s) := by
  have h := readByte_reads s
  unfold readByte at h ⊢
  cases hi : s.input with
  | cons b rest => rw [hi] at h; exact ⟨h, rfl⟩
  | nil => rw [hi] at h; cases he : s.inEnd <;> rw [he] at h <;> exact ⟨h, rfl⟩

theorem readBit_takes (s : State) : (readBit s).All (Takes s) := by
  have h := readBit_reads s
  rcases readBit_cases s with ⟨b, t, hr, -, hf, -⟩ | ⟨-, -, -, hr⟩ | ⟨-, -, -, hr⟩ <;> rw [hr] at h ⊢
  · exact ⟨h, by rw [hf]⟩
  · exact ⟨h, rfl⟩
  · exact ⟨h, rfl⟩

theorem readBits_takes (n : Nat) (s : State) : (readBits n s).All (Takes s) := by
  have h := readBits_reads n s
  rcases readBits_cases n s with ⟨v, t, hr, -, hf, -⟩ | ⟨t, hr, hf, -⟩ | ⟨t, hr, hf, -⟩ <;> rw [hr] at h ⊢
  · exact ⟨h, by rw [hf]⟩
  · exact ⟨h, by rw [hf]⟩
  · exact ⟨h, (raise_takes _ _ t).output.trans (by rw [hf])⟩

theorem decodeSymbol_takes (t : Table) (maxBits : Nat) (alph : BitVec 32) (s : State) :
    (decodeSymbol t maxBits alph s).All (Takes s) := by
  have h := decodeSymbol_reads t maxBits alph s
  rcases decodeSymbol_cases t maxBits alph s with
    ⟨sym, u, hr, -, hf, -⟩ | ⟨u, hr, hf, -⟩ | ⟨u, hr, hf, -⟩ | ⟨u, hr, hf⟩ <;> rw [hr] at h ⊢
  · exact ⟨h, by rw [hf]⟩
  · exact ⟨h, by rw [hf]⟩
  · exact ⟨h, (raise_takes _ _ u).output.trans (by rw [hf])⟩
  · exact ⟨h, (raise_takes _ _ u).output.trans (by rw [hf])⟩

/-- A read, and what follows it when it is done. -/
theorem finish_takes {α : Type} {f : Flow α} {k : α → State → Result State} {s u : State} (hf : f.All (Takes s))
    (hk : ∀ a t v, k a t = .next v → Takes t v) (h : f.finish k = .next u) : Takes s u := by
  cases f with
  | done a t => exact hf.trans (hk a t u h)
  | hold t => cases h; exact hf
  | failed t => cases h; exact hf

/-- A read that is followed by one update of the state. -/
theorem finish_next_takes {α : Type} {f : Flow α} {g : α → State → State} {s u : State}
    (h : f.finish (fun a t => .next (g a t)) = .next u) (hf : f.All (Takes s)) (hg : ∀ a t, Takes t (g a t)) :
    Takes s u :=
  finish_takes hf (fun a t v hv => by cases hv; exact hg a t) h

theorem repeatRun_takes {base n : Nat} {v : BitVec 4} {s t : State} (h : repeatRun base n v s = .next t) :
    Takes s t := by
  refine finish_takes (readBits_takes n s) (fun x u w hw => ?_) h
  split at hw <;> cases hw <;> exact .of_same rfl rfl rfl rfl rfl

/-! ## What a run does to the streams -/

/-- From `s` to `t` input was taken in order and counted, and at most one byte was emitted. -/
structure Progress (s t : State) : Prop where
  reads : Reads s t
  output : t.output = s.output ∨ ∃ b, t.output = s.output ++ [b]

theorem Progress.of_same {s t : State} (h₁ : t.input = s.input) (h₂ : t.cursor = s.cursor) (h₃ : t.bitcnt = s.bitcnt)
    (h₄ : t.bitbuf = s.bitbuf) (h₅ : t.output = s.output) : Progress s t :=
  ⟨.of_same h₁ h₂ h₃ h₄, .inl h₅⟩

theorem Takes.progress {s t : State} (h : Takes s t) : Progress s t := ⟨h.reads, .inl h.output⟩

/-- Up to `k`, an accepted PUT takes no input (R324). -/
theorem advance_emit_reads (a : Nat) (b : Byte) (s : State) : Reads s (advance (emit b (memWrite a b s))) :=
  .of_same rfl rfl rfl rfl

/-- PUT emits one byte or holds (R324). -/
theorem put_progress {b : Byte} {k : State → State} {s t : State} (hk : ∀ u, Takes u (k u))
    (h : put b k s = .next t) : Progress s t := by
  rcases put_cases b k s with ⟨-, -, h'⟩ | ⟨-, -, h'⟩ | ⟨-, h'⟩ <;> rw [h'] at h <;> cases h
  · have hafter := hk (advance (emit b (memWrite s.wp.toNat b s)))
    exact ⟨(advance_emit_reads _ b s).trans hafter.reads, .inr ⟨b, hafter.output⟩⟩
  · exact .of_same rfl rfl rfl rfl rfl

theorem literalReturn_takes (s : State) : Takes s (literalReturn s) := by
  unfold literalReturn
  split <;> exact .of_same rfl rfl rfl rfl rfl

/-- The meanings the rows of the opcode table share, with the operands of each row left open. -/
inductive Meaning : (State → Result State) → Prop
  | blockStored (final : Bool) : Meaning (execBlockStored final)
  | blockFixed (final : Bool) : Meaning (execBlockFixed final)
  | blockDynamic (final : Bool) : Meaning (execBlockDynamic final)
  | blockReserved (final : Bool) : Meaning (execBlockReserved final)
  | lit (b : Byte) : Meaning (execLit b)
  | endOfBlock : Meaning execOpEndOfBlock
  | lengthExact (length : Nat) : Meaning (lengthExact length)
  | lengthExtra (base n : Nat) : Meaning (lengthExtra base n)
  | invalidLength (sym : BitVec 32) : Meaning (invalidLength sym)
  | distanceExact (distance : Nat) : Meaning (distanceExact distance)
  | distanceExtra (base n : Nat) : Meaning (distanceExtra base n)
  | invalidDistance (sym : BitVec 32) : Meaning (invalidDistance sym)
  | clLen (v : BitVec 4) : Meaning (execClLen v)
  | clRep16 : Meaning execClRep16
  | zeroRun (base n : Nat) : Meaning (repeatRun base n 0)
  | opLiteral (b : Byte) : Meaning (execOpLiteral b)
  | opBackref (l d : Nat) : Meaning (execOpBackref l d)

/-- Every row of the opcode table has one of the shared meanings. -/
theorem exec_meaning (i : Instr) : Meaning (exec i) := by
  cases i
  case blockStored final => exact .blockStored final
  case blockFixed final => exact .blockFixed final
  case blockDynamic final => exact .blockDynamic final
  case blockReserved final => exact .blockReserved final
  case lit b => exact .lit b
  case eob | opEndOfBlock => exact .endOfBlock
  case len286 | len287 => exact .invalidLength _
  case dist30 | dist31 => exact .invalidDistance _
  case len257 | len258 | len259 | len260 | len261 | len262 | len263 | len264 | len285 => exact .lengthExact _
  case dist0 | dist1 | dist2 | dist3 => exact .distanceExact _
  case clLen v => exact .clLen v
  case clRep16 => exact .clRep16
  case clZero17 | clZero18 => exact .zeroRun _ _
  case opLiteral b => exact .opLiteral b
  case opBackref l d => exact .opBackref l d
  case dist4 | dist5 | dist6 | dist7 | dist8 | dist9 | dist10 | dist11 | dist12 | dist13 | dist14 | dist15 | dist16
    | dist17 | dist18 | dist19 | dist20 | dist21 | dist22 | dist23 | dist24 | dist25 | dist26 | dist27 | dist28
    | dist29 => exact .distanceExtra _ _
  all_goals exact .lengthExtra _ _

theorem Meaning.progress {m : State → Result State} (hm : Meaning m) {s t : State} (h : m s = .next t) :
    Progress s t := by
  cases hm with
  | lit b =>
    unfold execLit windowLiteral at h
    exact put_progress (by intro u; exact .of_same rfl rfl rfl rfl rfl) h
  | opLiteral b => exact put_progress literalReturn_takes h
  | lengthExtra base n =>
    exact (finish_next_takes h (readBits_takes n s) fun _ _ => .of_same rfl rfl rfl rfl rfl).progress
  | distanceExtra base n =>
    exact (finish_next_takes h (readBits_takes n s) fun _ _ => .of_same rfl rfl rfl rfl rfl).progress
  | zeroRun base n => exact (repeatRun_takes h).progress
  | clRep16 =>
    unfold execClRep16 at h
    split at h
    · cases h; exact (raise_takes _ _ s).progress
    · exact (repeatRun_takes h).progress
  | opBackref l d =>
    cases h
    rcases windowBackref_cases l d s with ⟨-, h'⟩ | ⟨-, h'⟩ <;> rw [h'] <;>
      exact .of_same rfl rfl rfl rfl rfl
  | blockStored | blockFixed | blockDynamic | blockReserved | endOfBlock | lengthExact | invalidLength | distanceExact
    | invalidDistance | clLen => cases h; exact .of_same rfl rfl rfl rfl rfl


/-! ## What the work between instructions does to the streams -/

theorem workBlockHdr_takes {p : HdrPos} {s t : State} (h : workBlockHdr p s = .next t) : Takes s t := by
  cases p with
  | final => exact finish_next_takes h (readBit_takes s) fun _ _ => .of_same rfl rfl rfl rfl rfl
  | type => exact finish_next_takes h (readBits_takes 2 s) fun _ _ => .of_same rfl rfl rfl rfl rfl
  | dispatch => cases h; exact .of_same rfl rfl rfl rfl rfl

theorem align_reads (s : State) : Reads s (align s) where
  taken := ⟨[], rfl, rfl⟩
  bits _ := ⟨Nat.zero_le 8, Nat.one_pos⟩
  lazy _ := Nat.zero_le 7

theorem workStored_takes {p : StoredPos} {s t : State} (h : workStored p s = .next t) : Takes s t := by
  cases p with
  | align => cases h; exact ⟨(align_reads s).trans (.of_same rfl rfl rfl rfl), rfl⟩
  | lenLo | lenHi | nlenLo | nlenHi =>
    exact finish_next_takes h (readByte_takes s) fun _ _ => .of_same rfl rfl rfl rfl rfl
  | check => simp only [workStored] at h; split at h <;> cases h <;> exact .of_same rfl rfl rfl rfl rfl
  | data =>
    simp only [workStored] at h
    split at h
    · cases h; exact .of_same rfl rfl rfl rfl rfl
    · exact finish_next_takes h (readByte_takes s) fun _ _ => .of_same rfl rfl rfl rfl rfl
  | op => cases h; exact .of_same rfl rfl rfl rfl rfl

theorem workDynHdr_takes {p : DynPos} {s t : State} (h : workDynHdr p s = .next t) : Takes s t := by
  cases p with
  | hlit | hdist | hclen => exact finish_next_takes h (readBits_takes _ s) fun _ _ => .of_same rfl rfl rfl rfl rfl
  | clLen i =>
    simp only [workDynHdr] at h
    split at h
    · exact finish_next_takes h (readBits_takes 3 s) fun _ _ => .of_same rfl rfl rfl rfl rfl
    · cases h; exact .of_same rfl rfl rfl rfl rfl
  | symbol =>
    simp only [workDynHdr] at h
    split at h
    · exact finish_next_takes h (decodeSymbol_takes _ _ _ s) fun _ _ => .of_same rfl rfl rfl rfl rfl
    · cases h; exact .of_same rfl rfl rfl rfl rfl
  | execCl | split => cases h; exact .of_same rfl rfl rfl rfl rfl

theorem workHuffSym_takes {p : HuffPos} {s t : State} (h : workHuffSym p s = .next t) : Takes s t := by
  cases p with
  | symbol | dist => exact finish_next_takes h (decodeSymbol_takes _ _ _ s) fun _ _ => .of_same rfl rfl rfl rfl rfl
  | execSym | execDist | op => cases h; exact .of_same rfl rfl rfl rfl rfl

theorem copyReturn_takes (s : State) : Takes s (copyReturn s) := .of_same rfl rfl rfl rfl rfl

theorem workCopy_progress {s t : State} (h : workCopy s = .next t) : Progress s t := by
  unfold workCopy at h
  split at h
  · cases h; exact .of_same rfl rfl rfl rfl rfl
  · split at h
    · exact put_progress copyReturn_takes h
    · cases h

theorem work_progress {s t : State} (h : work s = .next t) : Progress s t := by
  unfold work at h
  cases hp : s.fsm <;> rw [hp] at h
  case blockHdr => exact (workBlockHdr_takes h).progress
  case stored => exact (workStored_takes h).progress
  case dynHdr => exact (workDynHdr_takes h).progress
  case huffSym => exact (workHuffSym_takes h).progress
  case copy => exact workCopy_progress h
  case idle | blockEnd | done | error => cases h; exact .of_same rfl rfl rfl rfl rfl

/-- Every run of the core takes input in order and emits at most one byte. -/
theorem run_progress {s t : State} (h : run s = .next t) : Progress s t := by
  rcases run_cases s with ⟨f, w, i, -, -, hr⟩ | ⟨f, w, e, -, -, hr⟩ | ⟨-, hr⟩ <;> rw [hr] at h
  · exact (exec_meaning i).progress h
  · cases h
  · exact work_progress h

/-! ## The two streams over a step -/

/-- Settles O55: `rst` leaves the output with the host (R401), and a run emits at most one byte. -/
theorem outputOnlyGrows : Obligations.OutputOnlyGrows := by
  intro s t hstart h
  rcases step_cases s with ⟨-, hs⟩ | ⟨hr, hs, hb, -⟩ | ⟨-, -, hs⟩
  · rw [hs] at h; cases h; exact .inl rfl
  · exact absurd ((hstart hr hs).symm.trans hb) nofun
  · rw [hs] at h; exact (run_progress h).output

/-- Settles O56: without `start` and `rst` a step is a run, which takes its input in order. -/
theorem inputInOrder : Obligations.InputInOrder := by
  intro s t hr hstart h
  rw [step_of_no_event hr hstart] at h
  exact (run_progress h).reads.taken

end Sys2Proof.Machine
end

section
/-! PROOF. Reads that are cut short: every bit there is taken, then the core holds or raises IO_FAILURE. -/

namespace Sys2Proof.Machine

/-- `t` is `s` but for what any read of input may change: the Bit Source, the field and the walk registers and
`in_ready`. -/
def onlyRead (s t : State) : Prop :=
  t = { s with
    inReady := t.inReady, fldAcc := t.fldAcc, fldCnt := t.fldCnt, walkBits := t.walkBits, walkLen := t.walkLen
    bitbuf := t.bitbuf, bitcnt := t.bitcnt, input := t.input, cursor := t.cursor }

theorem onlyRead_of_onlyField {s t : State} (h : onlyField s t) : onlyRead s t := by
  unfold onlyField onlyRead at *
  rw [h]

theorem onlyRead_of_onlyWalk {s t : State} (h : onlyWalk s t) : onlyRead s t := by
  unfold onlyWalk onlyRead at *
  rw [h]

/-- `r` is the answer of a read from `s` that was cut short (R62, R63, R138, R164): every bit there is taken; the core
holds while the input has not ended, and raises IO_FAILURE(0) once it has. Up to there only what `only` allows has
changed. -/
def CutShort (only : State → State → Prop) (s : State) (r : Result State) : Prop :=
  (s.inEnd = false → ∃ t, r = .next t ∧ t.unread = [] ∧ only s t ∧ t.inReady = true) ∧
  (s.inEnd = true → ∃ t, r = .next (raise .ioFailure 0 t) ∧ t.unread = [] ∧ only s t)

theorem CutShort.mono {only only' : State → State → Prop} {s : State} {r : Result State} (h : CutShort only s r)
    (himp : ∀ t, only s t → only' s t) : CutShort only' s r := by
  refine ⟨fun he => ?_, fun he => ?_⟩
  · obtain ⟨t, ht, hu, hf, hi⟩ := h.1 he
    exact ⟨t, ht, hu, himp t hf, hi⟩
  · obtain ⟨t, ht, hu, hf⟩ := h.2 he
    exact ⟨t, ht, hu, himp t hf⟩

/-- The error state a cut-short read enters once the input has ended. -/
theorem CutShort.error {only : State → State → Prop} {s : State} {r : Result State} (h : CutShort only s r)
    (he : s.inEnd = true) : ∃ t, r = .next t ∧ t.fsm = .error ∧ t.errCode = 1 ∧ t.errInfo = 0 ∧ t.unread = [] := by
  obtain ⟨t, ht, hu, -⟩ := h.2 he
  exact ⟨_, ht, rfl, rfl, rfl, hu⟩

/-! ## The four reads -/

theorem finish_readBits_short {s : State} {n : Nat} (k : Nat → State → Result State) (hr : s.inReady = false)
    (hu : s.unread.length < n) : CutShort onlyField s ((readBits n s).finish k) := by
  refine ⟨fun he => ?_, fun he => ?_⟩
  · obtain ⟨t, ht, hn, hf, hi⟩ := (readBits_short hr hu).1 he
    exact ⟨t, by rw [ht]; rfl, hn, hf, hi⟩
  · obtain ⟨t, ht, hn, hf⟩ := (readBits_short hr hu).2 he
    exact ⟨t, by rw [ht]; rfl, hn, hf⟩

theorem finish_decodeSymbol_short {t : Table} {maxBits : Nat} {alph : BitVec 32} {s : State}
    (k : Nat → State → Result State) (hr : s.inReady = false) (hmax : maxBits ≤ 15) (hu : s.unread.length < maxBits)
    (hno : t.noMatchBelow s.unread (s.unread.length + 1)) :
    CutShort onlyWalk s ((decodeSymbol t maxBits alph s).finish k) := by
  obtain ⟨hhold, hfail⟩ := decodeSymbol_short (alph := alph) hr hmax hu hno
  refine ⟨fun he => ?_, fun he => ?_⟩
  · obtain ⟨u, h, hn, hf, hi⟩ := hhold he
    exact ⟨u, by rw [h]; rfl, hn, hf, hi⟩
  · obtain ⟨u, h, hn, hf⟩ := hfail he
    exact ⟨u, by rw [h]; rfl, hn, hf⟩

theorem finish_readBit_short {s : State} (k : Bool → State → Result State) (hu : s.unread = []) :
    CutShort onlyRead s ((readBit s).finish k) := by
  refine ⟨fun he => ?_, fun he => ?_⟩
  · exact ⟨{ s with inReady := true }, by rw [(readBit_short hu).1 he]; rfl, hu, rfl, rfl⟩
  · exact ⟨s, by rw [(readBit_short hu).2 he]; rfl, hu, rfl⟩

/-- With no bit there, no byte is presented. -/
theorem input_of_unread_nil {s : State} (hu : s.unread = []) : s.input = [] := by
  cases hi : s.input with
  | nil => rfl
  | cons b rest => simp [State.unread, hi, byteBits] at hu

theorem finish_readRawByte_short {s : State} (k : Byte → State → Result State) (hu : s.unread = []) :
    CutShort onlyRead s ((readRawByte s).finish k) := by
  rcases finish_readRawByte_cases k s with ⟨b, rest, hi, -⟩ | ⟨-, he, h⟩ | ⟨-, he, h⟩
  · exact absurd (hi.symm.trans (input_of_unread_nil hu)) nofun
  · exact ⟨fun _ => ⟨_, h, hu, rfl, rfl⟩, fun he' => absurd (he.symm.trans he') nofun⟩
  · exact ⟨fun he' => absurd (he.symm.trans he') nofun, fun _ => ⟨s, h, hu, rfl⟩⟩

/-! ## Extra bits -/

/-- The instruction has `n` extra bits in state `s`: the length symbols 265 to 284, the distance symbols 4 to 29, and the
three repeats (R233, R265, R193 to R195). -/
def extraBits (s : State) (i : Instr) (n : Nat) : Prop :=
  (∃ v, 265 ≤ v ∧ v ≤ 284 ∧ decode .litLenSym (BitVec.ofNat 25 v) = .ok i ∧ n = lenExtra v) ∨
  (∃ d, 4 ≤ d ∧ d ≤ 29 ∧ decode .distSym (BitVec.ofNat 25 d) = .ok i ∧ n = distExtra d) ∨
  (i = .clRep16 ∧ n = 2 ∧ s.lenIdx ≠ 0) ∨ (i = .clZero17 ∧ n = 3) ∨ (i = .clZero18 ∧ n = 7)

/-- Each of the length symbols 265 to 284 reads the formula's number of extra bits (R242 to R261). -/
theorem exec_lengthSymbol {v : Nat} {i : Instr} (h1 : 265 ≤ v) (h2 : v ≤ 284)
    (hd : decode .litLenSym (BitVec.ofNat 25 v) = .ok i) :
    ∃ base, exec i = lengthExtra base (lenExtra v) := by
  interval_cases v <;> (injection hd with hd; subst hd; exact ⟨_, rfl⟩)

/-- Each of the distance symbols 4 to 29 reads the formula's number of extra bits (R270 to R295). -/
theorem exec_distanceSymbol {d : Nat} {i : Instr} (h1 : 4 ≤ d) (h2 : d ≤ 29)
    (hd : decode .distSym (BitVec.ofNat 25 d) = .ok i) :
    ∃ base, exec i = distanceExtra base (distExtra d) := by
  interval_cases d <;> (injection hd with hd; subst hd; exact ⟨_, rfl⟩)

/-- The meaning of an instruction with `n` extra bits begins with `read_bits(n)`. -/
theorem exec_of_extraBits {s : State} {i : Instr} {n : Nat} (h : extraBits s i n) :
    ∃ k, exec i s = (readBits n s).finish k := by
  rcases h with ⟨v, h1, h2, hd, rfl⟩ | ⟨d, h1, h2, hd, rfl⟩ | ⟨rfl, rfl, hidx⟩ | ⟨rfl, rfl⟩ | ⟨rfl, rfl⟩
  · obtain ⟨base, hb⟩ := exec_lengthSymbol h1 h2 hd
    exact ⟨_, congrFun hb s⟩
  · obtain ⟨base, hb⟩ := exec_distanceSymbol h1 h2 hd
    exact ⟨_, congrFun hb s⟩
  · exact ⟨_, if_neg hidx⟩
  · exact ⟨_, rfl⟩
  · exact ⟨_, rfl⟩

theorem exec_extraBits_short {s : State} {i : Instr} {n : Nat} (h : extraBits s i n) (hr : s.inReady = false)
    (hu : s.unread.length < n) : CutShort onlyField s (exec i s) := by
  obtain ⟨k, hk⟩ := exec_of_extraBits h
  rw [hk]
  exact finish_readBits_short k hr hu

/-- Settles O50: every form with extra bits begins with their read, which is cut short. -/
theorem extraBitsCutShort : Obligations.ExtraBitsCutShort := by
  intro s i n hx hr hu
  have hcut := exec_extraBits_short hx hr hu
  refine ⟨fun he => ?_, hcut.error⟩
  obtain ⟨t, ht, hn, hf, hi⟩ := hcut.1 he
  refine ⟨t, ht, hn, ?_⟩
  rwa [onlyField, hi] at hf

/-! ## Reads between instructions -/

/-- The core stands at a read between instructions and the bits there are fewer than it needs. -/
def State.shortOfBits (s : State) : Prop :=
  (s.fsm = .blockHdr .final ∧ s.unread.length < 1) ∨ (s.fsm = .blockHdr .type ∧ s.unread.length < 2) ∨
  (s.fsm = .dynHdr .hlit ∧ s.unread.length < 5) ∨ (s.fsm = .dynHdr .hdist ∧ s.unread.length < 5) ∨
  (s.fsm = .dynHdr .hclen ∧ s.unread.length < 4) ∨
  (∃ i, s.fsm = .dynHdr (.clLen i) ∧ i < s.hclen.toNat ∧ s.unread.length < 3) ∨
  (s.fsm = .huffSym .symbol ∧ s.unread.length < 15 ∧ s.llTable.noMatchBelow s.unread (s.unread.length + 1)) ∨
  (s.fsm = .huffSym .dist ∧ s.unread.length < 15 ∧ s.dTable.noMatchBelow s.unread (s.unread.length + 1)) ∨
  (s.fsm = .dynHdr .symbol ∧ s.lenIdx.toNat < s.nCoded ∧ s.unread.length < 7 ∧
    s.clTable.noMatchBelow s.unread (s.unread.length + 1)) ∨
  ((s.fsm = .stored .lenLo ∨ (∃ lo, s.fsm = .stored (.lenHi lo)) ∨ s.fsm = .stored .nlenLo ∨
    (∃ lo, s.fsm = .stored (.nlenHi lo)) ∨ s.fsm = .stored .data ∧ s.storedRem ≠ 0) ∧ s.unread = [])

/-- A quiet step at a read between instructions that is short of bits. -/
theorem step_shortOfBits {s : State} (hr : s.rst = false) (hs : s.start = false) (hi : s.inReady = false)
    (h : s.shortOfBits) : CutShort onlyRead s (step s) := by
  have hfield {n : Nat} (k : Nat → State → Result State) (hu : s.unread.length < n) :
      CutShort onlyRead s ((readBits n s).finish k) :=
    (finish_readBits_short k hi hu).mono fun _ => onlyRead_of_onlyField
  rcases h with ⟨hp, hu⟩ | ⟨hp, hu⟩ | ⟨hp, hu⟩ | ⟨hp, hu⟩ | ⟨hp, hu⟩ | ⟨i, hp, hlt, hu⟩ | ⟨hp, hu, hno⟩ |
    ⟨hp, hu, hno⟩ | ⟨hp, hlt, hu, hno⟩ | ⟨hp, hu⟩
  · rw [step_blockHdr hr hs hp nofun]
    exact finish_readBit_short _ (List.length_eq_zero_iff.1 (by omega))
  · rw [step_blockHdr hr hs hp nofun]
    exact hfield _ hu
  · rw [step_dynHdr hr hs hp nofun]
    exact hfield _ hu
  · rw [step_dynHdr hr hs hp nofun]
    exact hfield _ hu
  · rw [step_dynHdr hr hs hp nofun]
    exact hfield _ hu
  · rw [step_dynHdr hr hs hp nofun, workDynHdr, if_pos hlt]
    exact hfield _ hu
  · rw [step_huffSym hr hs hp (.inl rfl)]
    exact (finish_decodeSymbol_short _ hi (le_refl 15) hu hno).mono fun _ => onlyRead_of_onlyWalk
  · rw [step_huffSym hr hs hp (.inr rfl)]
    exact (finish_decodeSymbol_short _ hi (le_refl 15) hu hno).mono fun _ => onlyRead_of_onlyWalk
  · rw [step_dynHdr hr hs hp nofun, workDynHdr, if_pos hlt]
    exact (finish_decodeSymbol_short _ hi (by decide) hu hno).mono fun _ => onlyRead_of_onlyWalk
  · rcases hp with hp | ⟨lo, hp⟩ | hp | ⟨lo, hp⟩ | ⟨hp, hrem⟩ <;> rw [step_stored hr hs hp nofun]
    on_goal 5 => rw [workStored, if_neg hrem]
    all_goals exact finish_readRawByte_short _ hu

/-! ## Every position that reads, with no bit there -/

theorem noMatchBelow_nil (t : Table) : t.noMatchBelow [] 1 := by
  intro m h1 h2
  omega

/-- The length symbols with extra bits have them, and at least one. -/
theorem extraBits_lengthSymbol (s : State) {v : Nat} (h1 : 265 ≤ v) (h2 : v ≤ 284) :
    ∃ i, decode .litLenSym (BitVec.ofNat 25 v) = .ok i ∧ extraBits s i (lenExtra v) ∧ 0 < lenExtra v := by
  obtain ⟨i, hd⟩ : ∃ i, decode .litLenSym (BitVec.ofNat 25 v) = .ok i := by interval_cases v <;> exact ⟨_, rfl⟩
  refine ⟨i, hd, .inl ⟨v, h1, h2, hd, rfl⟩, ?_⟩
  rw [lenExtra, if_neg (by omega)]
  omega

/-- The distance symbols with extra bits have them, and at least one. -/
theorem extraBits_distanceSymbol (s : State) {d : Nat} (h1 : 4 ≤ d) (h2 : d ≤ 29) :
    ∃ i, decode .distSym (BitVec.ofNat 25 d) = .ok i ∧ extraBits s i (distExtra d) ∧ 0 < distExtra d := by
  obtain ⟨i, hd⟩ : ∃ i, decode .distSym (BitVec.ofNat 25 d) = .ok i := by interval_cases d <;> exact ⟨_, rfl⟩
  refine ⟨i, hd, .inr (.inl ⟨d, h1, h2, hd, rfl⟩), ?_⟩
  rw [distExtra, if_neg (by omega)]
  omega

/-- The repeats among the code-length symbols have extra bits, CL_REP16 when it has a previous length. -/
theorem extraBits_repeat {s : State} {c : BitVec 5} (h : 17 ≤ c.toNat ∨ c.toNat = 16 ∧ s.lenIdx ≠ 0)
    (h18 : c.toNat ≤ 18) : ∃ i n, decode .clSym (c.setWidth 25) = .ok i ∧ extraBits s i n ∧ 0 < n := by
  have hc : c = 17 ∨ c = 18 ∨ c = 16 ∧ s.lenIdx ≠ 0 := by
    rcases h with h | ⟨h, hidx⟩
    · rcases (by omega : c.toNat = 17 ∨ c.toNat = 18) with h | h
      · exact .inl (BitVec.eq_of_toNat_eq h)
      · exact .inr (.inl (BitVec.eq_of_toNat_eq h))
    · exact .inr (.inr ⟨BitVec.eq_of_toNat_eq h, hidx⟩)
  rcases hc with rfl | rfl | ⟨rfl, hidx⟩
  · exact ⟨.clZero17, 3, rfl, .inr (.inr (.inr (.inl ⟨rfl, rfl⟩))), by decide⟩
  · exact ⟨.clZero18, 7, rfl, .inr (.inr (.inr (.inr ⟨rfl, rfl⟩))), by decide⟩
  · exact ⟨.clRep16, 2, rfl, .inr (.inr (.inl ⟨rfl, rfl, hidx⟩)), by decide⟩

/-- The core stands at an instruction that has extra bits. -/
def State.atExtraBits (s : State) : Prop :=
  ∃ f w i n, fetch s = some (f, w) ∧ decode f w = .ok i ∧ extraBits s i n ∧ 0 < n

/-- Every position that reads is a read between instructions or an instruction with extra bits. -/
theorem shortOfBits_or_atExtraBits {s : State} (hpos : s.positionOk) (hread : s.reading = true) (hu : s.unread = []) :
    s.shortOfBits ∨ s.atExtraBits := by
  have hno (t : Table) := noMatchBelow_nil t
  unfold State.reading at hread
  unfold State.positionOk at hpos
  cases hp : s.fsm <;> rw [hp] at hread hpos
  case blockHdr p =>
    cases p with
    | final | type => exact .inl (by simp [State.shortOfBits, hp, hu])
    | dispatch => cases hread
  case stored p =>
    cases p with
    | lenLo | lenHi | nlenLo | nlenHi => exact .inl (by simp [State.shortOfBits, hp, hu])
    | data =>
      have hrem : s.storedRem ≠ 0 := of_decide_eq_true hread
      exact .inl (by simpa [State.shortOfBits, hp, hu] using hrem)
    | align | check | op => cases hread
  case dynHdr p =>
    cases p with
    | hlit | hdist | hclen => exact .inl (by simp [State.shortOfBits, hp, hu])
    | clLen i => exact .inl (by simp [State.shortOfBits, hp, hu, of_decide_eq_true hread])
    | symbol => exact .inl (by simp [State.shortOfBits, hp, hu, hno, of_decide_eq_true hread])
    | execCl c =>
      obtain ⟨-, -, -, -, -, h18⟩ := hpos
      obtain ⟨i, n, hx⟩ := extraBits_repeat (of_decide_eq_true hread) h18
      exact .inr ⟨_, _, i, n, by rw [fetch, hp], hx⟩
    | split => cases hread
  case huffSym p =>
    cases p with
    | symbol | dist => exact .inl (by simp [State.shortOfBits, hp, hu, hno])
    | execSym =>
      obtain ⟨h1, h2⟩ := of_decide_eq_true hread
      obtain ⟨i, hx⟩ := extraBits_lengthSymbol s h1 h2
      rw [BitVec.ofNat_toNat] at hx
      exact .inr ⟨_, _, i, _, by rw [fetch, hp], hx⟩
    | execDist =>
      obtain ⟨h1, h2⟩ := of_decide_eq_true hread
      obtain ⟨i, hx⟩ := extraBits_distanceSymbol s h1 h2
      rw [BitVec.ofNat_toNat] at hx
      exact .inr ⟨_, _, i, _, by rw [fetch, hp], hx⟩
    | op => cases hread
  case idle | copy | blockEnd | done | error => cases hread

/-- A step at a position that reads, with no bit there. -/
theorem step_reading_short {s : State} (hr : s.rst = false) (hs : s.start = false) (hi : s.inReady = false)
    (hpos : s.positionOk) (hread : s.reading = true) (hu : s.unread = []) : CutShort onlyRead s (step s) := by
  rcases shortOfBits_or_atExtraBits hpos hread hu with h | ⟨f, w, i, n, hf, hd, hx, hn⟩
  · exact step_shortOfBits hr hs hi h
  · rw [step_of_decode hr hs hf hd]
    exact (exec_extraBits_short hx hi (by rw [hu]; exact hn)).mono fun _ => onlyRead_of_onlyField

/-- Settles O49: with no bit there the cursor stands still because there is no input to take (O56). -/
theorem readWithoutByte : Obligations.ReadWithoutByte := by
  refine ⟨fun s hinv hr hs hi hread hcnt hin => ?_, fun s hr hs hi hshort => ?_⟩
  · have hcut := step_reading_short hr hs hi hinv.position hread (unread_nil hin hcnt)
    refine ⟨fun he => ?_, fun he => ?_⟩
    · obtain ⟨t, ht, hu, hf, hready⟩ := hcut.1 he
      exact ⟨t, ht, hready, by rw [hf], hu, by rw [hf], by rw [hf]⟩
    · obtain ⟨t, ht, hfsm, hcode, hinfo, -⟩ := hcut.error he
      refine ⟨t, ht, hfsm, hcode, hinfo, ?_⟩
      obtain ⟨taken, htaken, hcursor⟩ := inputInOrder s t hr (by simp [hs]) ht
      obtain ⟨rfl, -⟩ := List.append_eq_nil_iff.1 (htaken.symm.trans hin)
      exact hcursor
  · have hcut := step_shortOfBits hr hs hi hshort
    refine ⟨fun he => ?_, hcut.error⟩
    obtain ⟨t, ht, hu, hf, hready⟩ := hcut.1 he
    refine ⟨t, ht, hu, ?_⟩
    rwa [onlyRead, hready] at hf

end Sys2Proof.Machine
end

section
/-! PROOF. The decoder and the encoder agree: what each decoder answers to each word of its format. -/

namespace Sys2Proof

/-! ## The decoder of an encoded word -/

/-- The top bit of a word is clear exactly when the word fits the bits below it. -/
theorem topBit_eq_false_iff {n : Nat} (w : BitVec (n + 1)) : w.getLsbD n = false ↔ w.toNat < 2 ^ n := by
  have h := w.getLsbD_last
  rw [Nat.add_sub_cancel] at h
  rw [h, decide_eq_false_iff_not, Nat.not_le]

/-- Widening a word by one bit leaves the new top bit clear. -/
theorem topBit_setWidth_succ {n : Nat} (w : BitVec n) : (w.setWidth (n + 1)).getLsbD n = false := by
  simp

theorem decode_blockHdr_setWidth (w : BitVec 3) : decode .blockHdr (w.setWidth 25) = decodeBlockHdr w :=
  congrArg decodeBlockHdr ((BitVec.setWidth_setWidth_of_le w (by decide)).trans (BitVec.setWidth_eq w))

theorem decode_lit (b : Byte) : decode .litLenSym (b.setWidth 25) = .ok (.lit b) := by
  have hw : (b.setWidth 25).setWidth 9 = b.setWidth 9 := BitVec.setWidth_setWidth_of_le b (by decide)
  have hb : (b.setWidth 9).setWidth 8 = b :=
    (BitVec.setWidth_setWidth_of_le b (by decide)).trans (BitVec.setWidth_eq b)
  rw [decode, hw, decodeLitLen, if_pos (topBit_setWidth_succ b), hb]

theorem decode_clLen (v : BitVec 4) : decode .clSym (v.setWidth 25) = .ok (.clLen v) := by
  have hw : (v.setWidth 25).setWidth 5 = v.setWidth 5 := BitVec.setWidth_setWidth_of_le v (by decide)
  have hv : (v.setWidth 5).setWidth 4 = v :=
    (BitVec.setWidth_setWidth_of_le v (by decide)).trans (BitVec.setWidth_eq v)
  rw [decode, hw, decodeCodeLen, if_pos (topBit_setWidth_succ v), hv]

/-- The three fields of an op word, from the lowest: the tag, the byte or length field, the distance field (R107). -/
theorem opWord_fields (d : BitVec 15) (l : BitVec 8) (tag : BitVec 2) :
    ((d ++ l : BitVec 23) ++ tag : BitVec 25).extractLsb' 0 2 = tag ∧
    ((d ++ l : BitVec 23) ++ tag : BitVec 25).extractLsb' 2 8 = l ∧
    ((d ++ l : BitVec 23) ++ tag : BitVec 25).extractLsb' 10 15 = d := by
  refine ⟨BitVec.extractLsb'_append_eq_right, ?_, ?_⟩
  · rw [BitVec.extractLsb'_append_eq_of_le (le_refl 2)]
    exact BitVec.extractLsb'_append_eq_right
  · rw [BitVec.extractLsb'_append_eq_of_le (by decide)]
    exact BitVec.extractLsb'_append_eq_left

theorem decodeOp_opLiteralWord (b : Byte) : decodeOp (opLiteralWord b) = .ok (.opLiteral b) := by
  obtain ⟨htag, hbyte, -⟩ := opWord_fields 0#15 b 0#2
  rw [decodeOp, opLiteralWord, htag, hbyte]
  rfl

/-- The length less 3 fits its 8 bits and the distance less 1 its 15, so the biases give both back (R107). -/
theorem decodeOp_opBackrefWord {l d : Nat} (hl : 3 ≤ l ∧ l ≤ 258) (hd : 1 ≤ d ∧ d ≤ 32768) :
    decodeOp (opBackrefWord l d) = .ok (.opBackref l d) := by
  obtain ⟨htag, hlen, hdist⟩ := opWord_fields (BitVec.ofNat 15 (d - 1)) (BitVec.ofNat 8 (l - 3)) 2#2
  have hl' : (BitVec.ofNat 8 (l - 3)).toNat + 3 = l := by
    rw [BitVec.toNat_ofNat]
    omega
  have hd' : (BitVec.ofNat 15 (d - 1)).toNat + 1 = d := by
    rw [BitVec.toNat_ofNat]
    omega
  rw [decodeOp, opBackrefWord, htag, hlen, hdist, hl', hd']
  rfl

/-- Settles O2: the instructions with an operand by the lemma of their format, the others by their one word. -/
theorem decodeOfEncode : Obligations.DecodeOfEncode := by
  intro i hwf
  cases i
  case blockStored final | blockFixed final | blockDynamic final | blockReserved final =>
    exact (decode_blockHdr_setWidth _).trans (by cases final <;> rfl)
  case lit b => exact decode_lit b
  case clLen v => exact decode_clLen v
  case opLiteral b => exact decodeOp_opLiteralWord b
  case opBackref l d =>
    obtain ⟨hl₁, hl₂, hd⟩ := of_decide_eq_true hwf
    exact decodeOp_opBackrefWord ⟨hl₁, hl₂⟩ hd
  all_goals rfl

/-! ## What each decoder answers -/

theorem eq_ofNat_toNat {n : Nat} (w : BitVec n) : w = BitVec.ofNat n w.toNat := by
  simp

/-- Every block header word is the header of its kind and its BFINAL (R91, R92). -/
theorem decodeBlockHdr_answer (w : BitVec 3) :
    ∃ i, decodeBlockHdr w = .ok i ∧ encode i = (.blockHdr, w.setWidth 25) := by
  have hn := w.isLt
  rw [eq_ofNat_toNat w]
  generalize w.toNat = n at hn ⊢
  interval_cases n <;> exact ⟨_, rfl, rfl⟩

/-- Every distance symbol 0 to 31 has its instruction (R101). -/
theorem decodeDist_answer (w : BitVec 5) : ∃ i, decodeDist w = .ok i ∧ encode i = (.distSym, w.setWidth 25) := by
  have hn := w.isLt
  rw [eq_ofNat_toNat w]
  generalize w.toNat = n at hn ⊢
  interval_cases n <;> exact ⟨_, rfl, rfl⟩

/-- A word below half its range is its own low bits. -/
theorem setWidth_lowBits {n : Nat} {w : BitVec (n + 1)} (h : w.toNat < 2 ^ n) :
    (w.setWidth n).setWidth 25 = w.setWidth 25 := by
  apply BitVec.eq_of_toNat_eq
  simp only [BitVec.toNat_setWidth, Nat.mod_eq_of_lt h]

/-- The literal/length symbols 0 to 287 have their instruction, and no other word has one (R99). -/
theorem decodeLitLen_answer (w : BitVec 9) :
    (287 < w.toNat ∧ decodeLitLen w = .error .noSuchLitLenSymbol) ∨
    (w.toNat ≤ 287 ∧ ∃ i, decodeLitLen w = .ok i ∧ encode i = (.litLenSym, w.setWidth 25)) := by
  by_cases hlit : w.toNat < 256
  · have htop : w.getLsbD 8 = false := (topBit_eq_false_iff w).2 hlit
    exact .inr ⟨by omega, .lit (w.setWidth 8), if_pos htop, congrArg _ (setWidth_lowBits hlit)⟩
  · by_cases hmax : w.toNat ≤ 287
    · have hmin : 256 ≤ w.toNat := by omega
      refine .inr ⟨hmax, ?_⟩
      rw [eq_ofNat_toNat w]
      generalize w.toNat = n at hmin hmax ⊢
      interval_cases n <;> exact ⟨_, rfl, rfl⟩
    · have htop : ¬ w.getLsbD 8 = false := mt (topBit_eq_false_iff w).1 hlit
      refine .inl ⟨by omega, ?_⟩
      rw [decodeLitLen, if_neg htop]
      split
      on_goal 33 => rfl
      all_goals omega

/-- The code-length symbols 0 to 18 have their instruction, and no other word has one (R102). -/
theorem decodeCodeLen_answer (w : BitVec 5) :
    (18 < w.toNat ∧ decodeCodeLen w = .error .noSuchCodeLenSymbol) ∨
    (w.toNat ≤ 18 ∧ ∃ i, decodeCodeLen w = .ok i ∧ encode i = (.clSym, w.setWidth 25)) := by
  by_cases hlen : w.toNat < 16
  · have htop : w.getLsbD 4 = false := (topBit_eq_false_iff w).2 hlen
    exact .inr ⟨by omega, .clLen (w.setWidth 4), if_pos htop, congrArg _ (setWidth_lowBits hlen)⟩
  · by_cases hmax : w.toNat ≤ 18
    · have hmin : 16 ≤ w.toNat := by omega
      refine .inr ⟨hmax, ?_⟩
      rw [eq_ofNat_toNat w]
      generalize w.toNat = n at hmin hmax ⊢
      interval_cases n <;> exact ⟨_, rfl, rfl⟩
    · have htop : ¬ w.getLsbD 4 = false := mt (topBit_eq_false_iff w).1 hlen
      refine .inl ⟨by omega, ?_⟩
      rw [decodeCodeLen, if_neg htop]
      split
      on_goal 4 => rfl
      all_goals omega

/-- An op word is rejected exactly when its tag is `11`, and the operands of what it decodes to are in range (R107). -/
theorem decodeOp_answer (w : BitVec 25) :
    (w.toNat % 4 = 3 ∧ decodeOp w = .error .reservedOpTag) ∨
    (w.toNat % 4 ≠ 3 ∧ ∃ i, decodeOp w = .ok i ∧ i.wellFormed = true) := by
  have htag : (w.extractLsb' 0 2).toNat = w.toNat % 4 := BitVec.extractLsb'_toNat 0 2 w
  have hlt := Nat.mod_lt w.toNat (show 0 < 4 by decide)
  have hl := (w.extractLsb' 2 8).isLt
  have hd := (w.extractLsb' 10 15).isLt
  unfold decodeOp
  rw [htag]
  generalize w.toNat % 4 = tag at hlt
  interval_cases tag
  · exact .inr ⟨by decide, _, rfl, rfl⟩
  · exact .inr ⟨by decide, _, rfl, rfl⟩
  · exact .inr ⟨by decide, _, rfl, decide_eq_true (by omega)⟩
  · exact .inl ⟨rfl, rfl⟩

/-! ## All five formats -/

/-- An instruction of a stream format is well formed: only the back-reference of the op words has operands that can be
out of range. -/
theorem wellFormed_of_stream {i : Instr} (h : (encode i).1 ≠ .windowOp) : i.wellFormed = true := by
  cases i
  case opBackref => exact absurd rfl h
  all_goals rfl

/-- The words without an instruction (R99, R102, R107). -/
def NoInstr (f : Format) (w : BitVec 25) : Prop :=
  (f = .litLenSym ∧ 287 < w.toNat) ∨ (f = .clSym ∧ 18 < w.toNat) ∨ (f = .windowOp ∧ w.toNat % 4 = 3)

/-- A word that fits its format's width is its own low bits. -/
theorem setWidth_of_fits {n : Nat} {w : BitVec 25} (h : w.toNat < 2 ^ n) :
    (w.setWidth n).toNat = w.toNat ∧ (w.setWidth n).setWidth 25 = w := by
  have hlow : (w.setWidth n).toNat = w.toNat := by rw [BitVec.toNat_setWidth, Nat.mod_eq_of_lt h]
  exact ⟨hlow, BitVec.eq_of_toNat_eq (by rw [BitVec.toNat_setWidth, hlow, Nat.mod_eq_of_lt w.isLt])⟩

/-- What the decoder answers to a word that fits its format: an error, exactly for the words without an instruction, or
a well-formed instruction, which in the stream formats has that word. -/
theorem decode_answer {f : Format} {w : BitVec 25} (hw : w.toNat < 2 ^ f.width) :
    (NoInstr f w ∧ ∃ e, decode f w = .error e) ∨
    (¬ NoInstr f w ∧ ∃ i, decode f w = .ok i ∧ i.wellFormed = true ∧ (f ≠ .windowOp → encode i = (f, w))) := by
  have hstream {i : Instr} (hf : f ≠ .windowOp) (he : encode i = (f, w)) :
      i.wellFormed = true ∧ (f ≠ .windowOp → encode i = (f, w)) :=
    ⟨wellFormed_of_stream (by rwa [he]), fun _ => he⟩
  cases f
  case blockHdr =>
    obtain ⟨-, hback⟩ := setWidth_of_fits (n := 3) hw
    obtain ⟨i, hd, he⟩ := decodeBlockHdr_answer (w.setWidth 3)
    exact .inr ⟨by simp [NoInstr], i, hd, hstream nofun (he.trans (congrArg _ hback))⟩
  case distSym =>
    obtain ⟨-, hback⟩ := setWidth_of_fits (n := 5) hw
    obtain ⟨i, hd, he⟩ := decodeDist_answer (w.setWidth 5)
    exact .inr ⟨by simp [NoInstr], i, hd, hstream nofun (he.trans (congrArg _ hback))⟩
  case litLenSym =>
    obtain ⟨hval, hback⟩ := setWidth_of_fits (n := 9) hw
    rcases decodeLitLen_answer (w.setWidth 9) with ⟨h, hd⟩ | ⟨h, i, hd, he⟩ <;> rw [hval] at h
    · exact .inl ⟨.inl ⟨rfl, h⟩, _, hd⟩
    · exact .inr ⟨by simpa [NoInstr] using h, i, hd, hstream nofun (he.trans (congrArg _ hback))⟩
  case clSym =>
    obtain ⟨hval, hback⟩ := setWidth_of_fits (n := 5) hw
    rcases decodeCodeLen_answer (w.setWidth 5) with ⟨h, hd⟩ | ⟨h, i, hd, he⟩ <;> rw [hval] at h
    · exact .inl ⟨.inr (.inl ⟨rfl, h⟩), _, hd⟩
    · exact .inr ⟨by simpa [NoInstr] using h, i, hd, hstream nofun (he.trans (congrArg _ hback))⟩
  case windowOp =>
    rcases decodeOp_answer w with ⟨h, hd⟩ | ⟨h, i, hd, hwf⟩
    · exact .inl ⟨.inr (.inr ⟨rfl, h⟩), _, hd⟩
    · exact .inr ⟨by simpa [NoInstr] using h, i, hd, hwf, (absurd rfl ·)⟩

/-- Settles O3: what decodes in a stream format has the word it was decoded from. -/
theorem encodeOfDecode : Obligations.EncodeOfDecode := by
  intro f w i hf hw hdec
  rcases decode_answer hw with ⟨-, e, hd⟩ | ⟨-, j, hd, -, he⟩
  · exact absurd (hd.symm.trans hdec) nofun
  · obtain rfl : j = i := Except.ok.inj (hd.symm.trans hdec)
    exact he hf

/-- Settles O4: the decoder answers with an error exactly for the words without an instruction. -/
theorem rejectedWords : Obligations.RejectedWords := by
  intro f w hw
  rcases decode_answer hw with ⟨hno, e, hd⟩ | ⟨hno, j, hd, hwf, -⟩
  · exact ⟨iff_of_true ⟨e, hd⟩ hno, fun i hdec => absurd (hd.symm.trans hdec) nofun⟩
  · refine ⟨iff_of_false (fun ⟨e, herr⟩ => absurd (hd.symm.trans herr) nofun) hno, fun i hdec => ?_⟩
    obtain rfl : j = i := Except.ok.inj (hd.symm.trans hdec)
    exact hwf

/-- Settles O1: each word is closed, so the decoder evaluates on it. -/
theorem specWordsDecode : Obligations.SpecWordsDecode := by
  unfold Obligations.SpecWordsDecode
  decide

end Sys2Proof
end

section
/-! PROOF. The block headers and the reads of the header fields. -/

namespace Sys2Proof.Machine

/-- Settles O18: each block header's meaning is one update of the state. -/
theorem blockHeaders : Obligations.BlockHeaders :=
  fun _ _ => ⟨rfl, rfl, rfl, rfl⟩

/-! ## A header read that has its bits -/

/-- A read of one bit and the update that follows it, when the bit is there and no read is held. -/
theorem readBit_next {s : State} {b : Bool} {rest : List Bool} (k : Bool → State → State) (hr : s.inReady = false)
    (hu : s.unread = b :: rest) :
    ∃ t, (readBit s).finish (fun b s => .next (k b s)) = .next (k b t) ∧ t.unread = rest ∧
      t = { s with bitbuf := t.bitbuf, bitcnt := t.bitcnt, input := t.input, cursor := t.cursor } := by
  obtain ⟨t, ht, hrest, honly, hready⟩ := readBit_of_unread hu
  refine ⟨t, by rw [ht]; rfl, hrest, ?_⟩
  rwa [onlyInput, hready, ← hr] at honly

/-- A read of a field and the update that follows it, when the field's bits are there and no read is held (R133). -/
theorem readBits_next {s : State} {n : Nat} (k : Nat → State → State) (hr : s.inReady = false) (hn : n ≤ 16)
    (hu : n ≤ s.unread.length) :
    ∃ t, (readBits n s).finish (fun x s => .next (k x s)) = .next (k (fieldValue (s.unread.take n)) t) ∧
      t.unread = s.unread.drop n ∧
      t = { s with
        fldAcc := t.fldAcc, fldCnt := t.fldCnt
        bitbuf := t.bitbuf, bitcnt := t.bitcnt, input := t.input, cursor := t.cursor } := by
  obtain ⟨t, hrest, honly, hready, ht⟩ := finish_readBits_of_unread (fun x s => .next (k x s)) hr hn hu
  refine ⟨t, ht, hrest, ?_⟩
  rwa [onlyField, hready, ← hr] at honly

/-- The value of a field that is there is below `2^n`. -/
theorem fieldValue_take_lt {bits : List Bool} {n : Nat} (h : n ≤ bits.length) : fieldValue (bits.take n) < 2 ^ n := by
  have hlt := fieldValue_lt (bits.take n)
  rwa [List.length_take_of_le h] at hlt

/-- A field of two bits as a word: its first bit is bit 0 (R69). -/
theorem ofNat_fieldValue_pair (b b' : Bool) :
    BitVec.ofNat 2 (fieldValue [b, b']) = BitVec.ofBool b' ++ BitVec.ofBool b := by
  cases b <;> cases b' <;> rfl

/-- Settles O17: BFINAL is a read of one bit, BTYPE of a field of two. -/
theorem headerBits : Obligations.HeaderBits := by
  intro s b b' rest hr hs hi
  refine ⟨fun hp hu => ?_, fun hp hu => ?_⟩ <;> rw [step_blockHdr hr hs hp nofun]
  · obtain ⟨t, ht, hrest, hframe⟩ :=
      readBit_next (fun b s => { s with bfinal := b, fsm := .blockHdr .type }) hi hu
    exact ⟨_, ht, rfl, rfl, hrest, by rw [hframe]⟩
  · obtain ⟨t, ht, hrest, hframe⟩ :=
      readBits_next (n := 2) (fun x s => { s with btype := BitVec.ofNat 2 x, fsm := .blockHdr .dispatch }) hi
        (by decide) (by simp [hu])
    rw [hu] at ht hrest
    exact ⟨_, ht, ofNat_fieldValue_pair b b', rfl, hrest, by rw [hframe]⟩

/-! ## The three header counts (R104): each fits its register -/

theorem hlitOf_toNat {x : Nat} (h : x < 2 ^ 5) : (hlitOf x).toNat = x + 257 := by
  rw [hlitOf, BitVec.toNat_ofNat]
  omega

theorem hdistOf_toNat {x : Nat} (h : x < 2 ^ 5) : (hdistOf x).toNat = x + 1 := by
  rw [hdistOf, BitVec.toNat_ofNat]
  omega

theorem hclenOf_toNat {x : Nat} (h : x < 2 ^ 4) : (hclenOf x).toNat = x + 4 := by
  rw [hclenOf, BitVec.toNat_ofNat]
  omega

/-- Settles O24: each count is a read of a field, which with its bias fits the register. -/
theorem headerCounts : Obligations.HeaderCounts := by
  intro s hr hs hi
  refine ⟨fun hp hu => ?_, fun hp hu => ?_, fun hp hu => ?_⟩ <;> rw [step_dynHdr hr hs hp nofun]
  · obtain ⟨t, ht, hrest, hframe⟩ :=
      readBits_next (fun x s => { s with hlit := hlitOf x, fsm := .dynHdr .hdist }) hi (by decide) hu
    exact ⟨_, ht, hlitOf_toNat (fieldValue_take_lt hu), rfl, hrest, by rw [hframe]⟩
  · obtain ⟨t, ht, hrest, hframe⟩ :=
      readBits_next (fun x s => { s with hdist := hdistOf x, fsm := .dynHdr .hclen }) hi (by decide) hu
    exact ⟨_, ht, hdistOf_toNat (fieldValue_take_lt hu), rfl, hrest, by rw [hframe]⟩
  · obtain ⟨t, ht, hrest, hframe⟩ :=
      readBits_next (fun x s => { s with
        hclen := hclenOf x, clLen := List.replicate Config.nCodeLen 0, fsm := .dynHdr (.clLen 0) }) hi (by decide) hu
    exact ⟨_, ht, hclenOf_toNat (fieldValue_take_lt hu), rfl, rfl, hrest, by rw [hframe]⟩

/-- Settles O25: below `hclen` the loop reads a field of three bits into `CL_ORDER[i]`, and at `hclen` it ends. -/
theorem codeLengthLengths : Obligations.CodeLengthLengths := by
  intro s i hr hs hi hp
  rw [step_dynHdr hr hs hp nofun, workDynHdr]
  refine ⟨fun hlt _ hu => ?_, fun hend => if_neg (by omega)⟩
  rw [if_pos hlt]
  obtain ⟨t, ht, hrest, hframe⟩ := readBits_next (setClLen i) hi (by decide) hu
  exact ⟨_, ht, rfl, hrest, by rw [hframe]; rfl, by rw [hframe]; rfl⟩

end Sys2Proof.Machine
end

section
/-! PROOF. The codewords of the fixed tables, and the formulas of the length and distance symbols. -/

namespace Sys2Proof.Machine

/-! ## The codewords of a symbol and of a run of symbols -/

/-- A symbol of nonzero length has the codeword of R154: `next[l]` as it starts, counted on by the earlier symbols of
the same length. -/
theorem fwd_buildTable {lens : List Nat} {maxBits s l : Nat} (hmax : ∀ l ∈ lens, l ≤ maxBits) (hs : lens[s]? = some l)
    (hl : l ≠ 0) : (buildTable lens maxBits).fwd s = some (firstCode lens l + (lens.take s).count l, l) := by
  have hrow := (mem_buildTable hmax _).2 ⟨s, l, hs, hl, rfl⟩
  unfold Table.fwd
  cases hfind : (buildTable lens maxBits).find? (fun e => e.sym == s) with
  | none => exact absurd (List.find?_eq_none.1 hfind _ hrow) (by simp)
  | some e =>
    obtain ⟨i, m, hi, -, rfl⟩ := (mem_buildTable hmax e).1 (List.mem_of_find?_eq_some hfind)
    obtain rfl : i = s := by simpa using List.find?_some hfind
    obtain rfl : m = l := Option.some.inj (hi.symm.trans hs)
    rfl

/-- The codewords of a run of equal lengths are consecutive: they begin where the earlier symbols of that length end. -/
theorem fwd_of_run {lens pre : List Nat} {maxBits n l k : Nat} (p first : Nat) (hmax : ∀ m ∈ lens, m ≤ maxBits)
    (hrun : pre ++ List.replicate n l <+: lens) (hp : pre.length = p) (hl : l ≠ 0)
    (hfirst : firstCode lens l + pre.count l = first) (hk : k < n) :
    (buildTable lens maxBits).fwd (p + k) = some (first + k, l) := by
  subst hp
  obtain ⟨post, rfl⟩ := hrun
  rw [List.append_assoc] at hmax hfirst ⊢
  have hlen : (pre ++ (List.replicate n l ++ post))[pre.length + k]? = some l := by
    rw [List.getElem?_append_right (Nat.le_add_right _ _), Nat.add_sub_cancel_left,
      List.getElem?_append_left (by simpa using hk), List.getElem?_replicate_of_lt hk]
  have hcount : ((pre ++ (List.replicate n l ++ post)).take (pre.length + k)).count l = pre.count l + k := by
    rw [List.take_length_add_append, List.take_append_of_le_length (by simpa using hk.le)]
    simp [List.take_replicate, Nat.min_eq_left hk.le]
  rw [fwd_buildTable hmax hlen hl, hcount, ← Nat.add_assoc, hfirst]

/-! ## The fixed tables -/

/-- The four runs of `FIXED_LL_LEN` (R158). -/
theorem fixedLLLen_runs :
    [] ++ List.replicate 144 8 <+: fixedLLLen ∧
    List.replicate 144 8 ++ List.replicate 112 9 <+: fixedLLLen ∧
    List.replicate 144 8 ++ List.replicate 112 9 ++ List.replicate 24 7 <+: fixedLLLen ∧
    List.replicate 144 8 ++ List.replicate 112 9 ++ List.replicate 24 7 ++ List.replicate 8 8 <+: fixedLLLen := by
  have h₃ := List.prefix_append (List.replicate 144 8 ++ List.replicate 112 9 ++ List.replicate 24 7)
    (List.replicate 8 8)
  have h₂ := (List.prefix_append (List.replicate 144 8 ++ List.replicate 112 9) (List.replicate 24 7)).trans h₃
  exact ⟨(List.prefix_append _ _).trans h₂, h₂, h₃, List.prefix_rfl⟩

theorem fixedLLLen_le : ∀ l ∈ fixedLLLen, l ≤ Config.maxBitsLL := by
  simp only [fixedLLLen, List.mem_append, List.mem_replicate, Config.maxBitsLL]
  omega

/-- How often each length stands in `FIXED_LL_LEN`. -/
theorem count_fixedLLLen (l : Nat) :
    fixedLLLen.count l = if l = 7 then 24 else if l = 8 then 152 else if l = 9 then 112 else 0 := by
  simp only [fixedLLLen, List.count_append, List.count_replicate, beq_iff_eq]
  split_ifs <;> omega

/-- The first codewords of the three lengths in use. -/
theorem firstCode_fixedLLLen :
    firstCode fixedLLLen 7 = 0 ∧ firstCode fixedLLLen 8 = 0x30 ∧ firstCode fixedLLLen 9 = 0x190 := by
  simp [firstCode, lenCount, count_fixedLLLen]

theorem fixedDLen_le : ∀ l ∈ fixedDLen, l ≤ Config.maxBitsD := by
  simp only [fixedDLen, List.mem_replicate, Config.maxBitsD]
  omega

/-- `FIXED_D_LEN` (R159) has no length below 5. -/
theorem firstCode_fixedDLen : firstCode fixedDLen 5 = 0 := by
  simp [firstCode, lenCount, fixedDLen]

/-- Settles O11: each formula is that of one run of equal lengths. -/
theorem fixedCodewords : Obligations.FixedCodewords := by
  obtain ⟨h7, h8, h9⟩ := firstCode_fixedLLLen
  obtain ⟨run₁, run₂, run₃, run₄⟩ := fixedLLLen_runs
  have runD : [] ++ List.replicate 32 5 <+: fixedDLen := List.prefix_rfl
  refine ⟨fun s hs => ?_, fun s hs => ?_, fun s hs => ?_, fun s hs => ?_, fun d hd => ?_⟩
  · have h := fwd_of_run 0 0x30 fixedLLLen_le run₁ rfl (by decide) (by simp [h8]) hs
    rwa [Nat.zero_add] at h
  · exact fwd_of_run 144 0x190 fixedLLLen_le run₂ (by simp [-List.reduceReplicate]) (by decide)
      (by simp [-List.reduceReplicate, h9, List.count_replicate]) hs
  · have h := fwd_of_run 256 0 fixedLLLen_le run₃ (by simp [-List.reduceReplicate]) (by decide)
      (by simp [-List.reduceReplicate, h7, List.count_replicate]) hs
    rwa [Nat.zero_add] at h
  · exact fwd_of_run 280 0xC0 fixedLLLen_le run₄ (by simp [-List.reduceReplicate]) (by decide)
      (by simp [-List.reduceReplicate, h8, List.count_replicate]) hs
  · have h := fwd_of_run 0 0 fixedDLen_le runD rfl (by decide) (by simp [firstCode_fixedDLen]) hd
    rwa [Nat.zero_add] at h

/-! ## The formulas -/

/-- Two instructions decoded from one word are the same, so the meaning of the one is that of the other. -/
theorem exec_eq_of_decode {f : Format} {w : BitVec 25} {i j : Instr} {s : State} {r : Result State}
    (hi : decode f w = .ok i) (hj : decode f w = .ok j) (hr : exec j s = r) : exec i s = r := by
  obtain rfl : j = i := Except.ok.inj (hj.symm.trans hi)
  exact hr

/-- Settles O40: the formulas and the meanings are compared symbol by symbol, the meaning being that of the
instruction the symbol decodes to. -/
theorem symbolFormulas : Obligations.SymbolFormulas := by
  refine ⟨rfl, rfl, fun s h₁ h₂ => ?_, rfl, rfl, rfl, fun d hd => ?_, rfl, fun s h₁ h₂ i hdec st => ?_,
    fun s h₁ h₂ i hdec st => ?_, fun d hd i hdec st => ?_, fun d h₁ h₂ i hdec st => ?_⟩
  · interval_cases s <;> rfl
  · interval_cases d <;> rfl
  · rcases h₂ with h₂ | rfl
    · interval_cases s <;> exact exec_eq_of_decode hdec rfl rfl
    · exact exec_eq_of_decode hdec rfl rfl
  · interval_cases s <;> exact exec_eq_of_decode hdec rfl rfl
  · interval_cases d <;> exact exec_eq_of_decode hdec rfl rfl
  · interval_cases d <;> exact exec_eq_of_decode hdec rfl rfl

end Sys2Proof.Machine
end

section
/-! PROOF. The bit buffer between steps: no whole byte stands unread. -/

namespace Sys2Proof.Machine

/-- Settles O57: `rst` and `start` empty the bit buffer, and a run only buffers a byte to take its first bit. -/
theorem noLookahead : Obligations.NoLookahead := by
  intro s t hcnt h
  rcases step_cases s with ⟨-, hs⟩ | ⟨-, -, -, hs⟩ | ⟨-, -, hs⟩ <;> rw [hs] at h
  · cases h; exact Nat.zero_le 7
  · cases h; exact Nat.zero_le 7
  · exact (run_progress h).reads.lazy hcnt

end Sys2Proof.Machine
end

section
/-! PROOF. The window over one PUT: the history mirrors the output before, during and after it. -/

namespace Sys2Proof.Machine

/-! ## Indices of the history (R67) -/

/-- A distance up to the window's size is counted back from `wp`, around the window's start. -/
theorem histIndex_eq {s : State} (hw : s.wp.toNat < s.windowSize) {k : Nat} (hk : k ≤ s.windowSize) :
    s.histIndex k = if k ≤ s.wp.toNat then s.wp.toNat - k else s.wp.toNat + s.windowSize - k := by
  unfold State.histIndex
  split
  · rw [Nat.sub_add_comm ‹_›, Nat.add_mod_right, Nat.mod_eq_of_lt (by omega)]
  · exact Nat.mod_eq_of_lt (by omega)

/-- Only the distance of the whole window leads back to `wp`. -/
theorem histIndex_ne_wp {s : State} (hw : s.wp.toNat < s.windowSize) {k : Nat} (h1 : 1 ≤ k) (hk : k < s.windowSize) :
    s.histIndex k ≠ s.wp.toNat := by
  rw [histIndex_eq hw hk.le]
  split_ifs <;> omega

theorem histIndex_windowSize {s : State} (hw : s.wp.toNat < s.windowSize) :
    s.histIndex s.windowSize = s.wp.toNat := by
  have := windowSize_pos s
  rw [histIndex_eq hw le_rfl]
  split_ifs <;> omega

/-- After a byte every byte of the window is one further back. -/
theorem histIndex_advance {s : State} (hw : s.wp.toNat < s.windowSize) {k : Nat} (hk : k < s.windowSize) :
    (advance s).histIndex (k + 1) = s.histIndex k := by
  have hwp := advance_wp_toNat s
  have hw' : (advance s).wp.toNat < (advance s).windowSize := by
    rw [hwp]
    exact Nat.mod_lt _ (windowSize_pos s)
  rw [histIndex_eq hw' (by exact hk), histIndex_eq hw hk.le, hwp, advance_windowSize]
  rcases (by omega : s.wp.toNat + 1 = s.windowSize ∨ s.wp.toNat + 1 < s.windowSize) with h | h
  · rw [h, Nat.mod_self]
    split_ifs <;> omega
  · rw [Nat.mod_eq_of_lt h]
    split_ifs <;> omega

/-! ## A state that emits -/

/-- The positions that emit a byte: a literal, an op word, and the copy. -/
theorem emitting_cases {s : State} (h : s.emitting = true) :
    (∃ w, s.fsm = .stored (.op w)) ∨ s.fsm = .huffSym .execSym ∨ (∃ w, s.fsm = .huffSym (.op w)) ∨ s.fsm = .copy := by
  unfold State.emitting at h
  cases hp : s.fsm <;> rw [hp] at h
  case stored p =>
    cases p with
    | op w => exact .inl ⟨w, rfl⟩
    | align | lenLo | lenHi | nlenLo | nlenHi | check | data => cases h
  case huffSym p =>
    cases p with
    | execSym => exact .inr (.inl rfl)
    | op w => exact .inr (.inr (.inl ⟨w, rfl⟩))
    | symbol | dist | execDist => cases h
  case copy => exact .inr (.inr (.inr rfl))
  case idle | blockHdr | dynHdr | blockEnd | done | error => cases h

theorem not_reading_of_emitting {s : State} (h : s.emitting = true) : s.reading = false := by
  rcases emitting_cases h with ⟨w, hp⟩ | hp | ⟨w, hp⟩ | hp <;> simp only [State.reading, State.emitting, hp] at h ⊢
  have hlit := of_decide_eq_true h
  exact decide_eq_false (by omega)

theorem inStream_of_emitting {s : State} (h : s.emitting = true) : s.fsm ≠ .idle ∧ s.fsm ≠ .error := by
  rcases emitting_cases h with ⟨w, hp⟩ | hp | ⟨w, hp⟩ | hp <;> rw [hp] <;> exact ⟨nofun, nofun⟩

/-! ## PUT (R324) -/

/-- The core stands in a stream, meets the invariant and is held at neither port. -/
structure State.Running (s : State) : Prop where
  inv : s.Inv
  inReady : s.inReady = false
  outValid : s.outValid = false
  inStream : s.fsm ≠ .idle ∧ s.fsm ≠ .error

/-- Inside a stream `filled` is the output's length, saturating (R325). -/
theorem filled_of_inStream {s : State} (h : s.Inv) (hin : s.fsm ≠ .idle) :
    s.filled.toNat = min s.output.length s.windowSize := by
  rw [h.filledIs, if_neg hin]

/-- The position keeps its ranges when the window moves on: only a copy looks at the window, and `filled` does not
fall. -/
theorem positionOk_advance {s t : State} (he : s.emitting = true) (hp : s.positionOk)
    (hfill : s.filled.toNat ≤ t.filled.toNat)
    (ht : t = { s with
      hist := t.hist, output := t.output, outData := t.outData, outValid := t.outValid, wp := t.wp
      filled := t.filled }) : t.positionOk := by
  have hpos : t.fsm = s.fsm := by rw [ht]
  rcases emitting_cases he with ⟨w, hs⟩ | hs | ⟨w, hs⟩ | hs <;> simp only [State.positionOk, hpos, hs] at hp ⊢
  · rw [ht]; exact hp
  · rw [ht]; exact hp
  · exact hp
  · obtain ⟨hd, hle, hrem⟩ := hp
    rw [ht] at hfill ⊢
    exact ⟨hd, hle.trans hfill, hrem⟩

/-- A held PUT (R65): the byte stands at `wp`, where no byte the output still needs can be read. -/
theorem holdEmit_inv {s : State} {b : Byte} (h : s.Inv) (he : s.emitting = true)
    (hcopy : s.fsm = .copy → s.output[s.output.length - s.curDist.toNat]? = some b) :
    (holdEmit b (memWrite s.wp.toNat b s)).Inv where
  histWf := Memory.write_wf h.histWf _ _
  sizes := h.sizes
  bits := h.bits
  window := h.window
  filledIs := h.filledIs
  history := by
    intro k h1 hk hlt
    have hlt : k < s.windowSize := hlt rfl
    exact (Memory.read_write_other _ _ _ (histIndex_ne_wp h.window.1 h1 hlt)).trans (h.history k h1 hk fun _ => hlt)
  ports := ⟨h.ports.1, fun _ => he, fun _ => Memory.read_write_same _ _ _, fun _ => hcopy⟩
  status := h.status
  position := positionOk_advance he h.position le_rfl rfl

/-- Once the byte `b` is accepted, the history read `j + 1` back is the output `j + 1` back: `b` itself, or what was `j`
back before (R326, R329). -/
theorem read_write_advance {s : State} (b : Byte) (h : s.Inv) (hidle : s.fsm ≠ .idle) {j : Nat}
    (hj : j < s.windowSize) (hfill : j ≤ s.filled.toNat) :
    (s.hist.write s.wp.toNat b).read ((advance s).histIndex (j + 1)) = (s.output ++ [b])[s.output.length - j]? := by
  have hw := h.window.1
  have hlen := filled_of_inStream h hidle
  rw [histIndex_advance hw hj]
  cases j with
  | zero =>
    rw [histIndex_eq hw (Nat.zero_le _), if_pos (Nat.zero_le _)]
    simp
  | succ j =>
    rw [Memory.read_write_other _ _ _ (histIndex_ne_wp hw (by omega) hj), List.getElem?_append_left (by omega)]
    exact h.history _ (by omega) hfill fun _ => hj

/-- An accepted PUT (R64), up to what its caller does next. -/
theorem advance_emit_running {s : State} (b : Byte) (h : s.Inv) (he : s.emitting = true) :
    (advance (emit b (memWrite s.wp.toNat b s))).Running := by
  set u := emit b (memWrite s.wp.toNat b s)
  obtain ⟨hidle, herr⟩ := inStream_of_emitting he
  have hfill := h.window.2
  have hready : s.inReady = false := by simpa [not_reading_of_emitting he] using h.ports.1
  have hlen := filled_of_inStream h hidle
  have hfilled : (advance u).filled.toNat = min (s.filled.toNat + 1) s.windowSize := advance_filled_toNat u
  have hout : (advance u).output.length = s.output.length + 1 := List.length_append
  refine ⟨?_, hready, rfl, hidle, herr⟩
  exact {
    histWf := Memory.write_wf h.histWf _ _
    sizes := h.sizes
    bits := h.bits
    window := by
      rw [hfilled, advance_wp_toNat]
      exact ⟨Nat.mod_lt _ (windowSize_pos s), min_le_right _ _⟩
    filledIs := by
      rw [if_neg (show (advance u).fsm ≠ .idle from hidle), hfilled, hout, hlen]
      change _ = min _ s.windowSize
      omega
    history := by
      intro k h1 hk _
      obtain ⟨j, rfl⟩ : ∃ j, k = j + 1 := ⟨k - 1, by omega⟩
      rw [hfilled] at hk
      rw [hout, Nat.add_sub_add_right]
      exact read_write_advance b h hidle (by omega) (by omega)
    ports := ⟨fun hr => absurd (hready.symm.trans hr) nofun, nofun, nofun, nofun⟩
    status := h.status
    position := positionOk_advance he h.position (by rw [hfilled]; omega) rfl }

/-- PUT keeps the invariant, when what follows an accepted byte does. -/
theorem put_inv {b : Byte} {k : State → State} {s t : State} (h : s.Inv) (he : s.emitting = true)
    (hcopy : s.fsm = .copy → s.output[s.output.length - s.curDist.toNat]? = some b)
    (hk : ∀ u, u.Running → u.fsm = s.fsm → (k u).Inv) (ht : put b k s = .next t) : t.Inv := by
  rcases put_cases b k s with ⟨-, -, h'⟩ | ⟨-, -, h'⟩ | ⟨-, h'⟩ <;> rw [h'] at ht <;> cases ht
  · exact hk _ (advance_emit_running b h he) rfl
  · exact holdEmit_inv h he hcopy

/-- The byte a copy reads is the byte `cur_dist` back in the output (R323). While an `Emit` is held at the distance of
the whole window, the byte read is the held one. -/
theorem copy_byte_of_output {s : State} {b : Byte} (h : s.Inv) (hp : s.fsm = .copy)
    (hb : s.hist.read (s.histIndex s.curDist.toNat) = some b) :
    s.output[s.output.length - s.curDist.toNat]? = some b := by
  have hpos := h.position
  simp only [State.positionOk, hp] at hpos
  obtain ⟨hd, hle, -⟩ := hpos
  by_cases hheld : s.outValid = true → s.curDist.toNat < s.windowSize
  · rw [← h.history _ hd hle hheld, hb]
  · obtain ⟨hv, hge⟩ := Classical.not_imp.1 hheld
    obtain ⟨-, -, hwp, hout⟩ := h.ports
    obtain ⟨hw, hfill⟩ := h.window
    rw [(by omega : s.curDist.toNat = s.windowSize), histIndex_windowSize hw, hwp hv] at hb
    rw [hout hv hp, hb]

end Sys2Proof.Machine
end

section
/-! PROOF. The invariant over a read of input, and over an update that emits nothing. -/

namespace Sys2Proof.Machine

/-! ## Updates of the decoder's registers -/

/-- `t` is `s` but for the position and the registers of the Block Decoder and of the back-reference. -/
def onlyDecoder (s t : State) : Prop :=
  t = { s with
    fsm := t.fsm, bfinal := t.bfinal, btype := t.btype, storedLen := t.storedLen, storedNlen := t.storedNlen
    storedRem := t.storedRem, hlit := t.hlit, hdist := t.hdist, hclen := t.hclen, clLen := t.clLen, lens := t.lens
    lenIdx := t.lenIdx, llLen := t.llLen, dLen := t.dLen, tsel := t.tsel, curSym := t.curSym, curDsym := t.curDsym
    curLen := t.curLen, curDist := t.curDist, copyRem := t.copyRem }

/-- An update of the decoder's registers keeps the invariant when the arrays keep their sizes, the stream goes on and
the new position has its ranges. -/
theorem State.Running.update {s t : State} (h : s.Running) (hf : onlyDecoder s t)
    (hsizes : t.clLen.length = 19 ∧ t.lens.length = 320 ∧ t.llLen.length = 288 ∧ t.dLen.length = 32)
    (hin : t.fsm ≠ .idle ∧ t.fsm ≠ .error) (hp : t.positionOk) : t.Inv where
  histWf := by rw [hf]; exact h.inv.histWf
  sizes := hsizes
  bits := by rw [hf]; exact h.inv.bits
  window := by rw [hf]; exact h.inv.window
  filledIs := by
    have hlen := filled_of_inStream h.inv h.inStream.1
    rw [if_neg hin.1, hf]
    exact hlen
  history := by
    rw [hf]
    exact fun k h1 hk _ => h.inv.history k h1 hk (by simp [h.outValid])
  ports := by
    have hready : t.inReady = false := by rw [hf]; exact h.inReady
    have hvalid : t.outValid = false := by rw [hf]; exact h.outValid
    simp [hready, hvalid]
  status := by
    have hcode : t.errCode = s.errCode := by rw [hf]
    rw [hcode]
    exact ⟨h.inv.status.1, fun he => absurd (h.inv.status.2.1 he) h.inStream.2, fun he => absurd he hin.2⟩
  position := hp

/-- The error codes are 1 to 8 (R371). -/
theorem ErrKind.code_range (e : ErrKind) : e.code.toNat ≤ 8 ∧ e.code ≠ 0 := by
  cases e <;> decide

/-- The error entry keeps the invariant (R380). -/
theorem raise_inv {s : State} (e : ErrKind) (info : BitVec 32) (h : s.Inv) (hidle : s.fsm ≠ .idle)
    (hv : s.outValid = false) : (raise e info s).Inv where
  histWf := h.histWf
  sizes := h.sizes
  bits := h.bits
  window := h.window
  filledIs := filled_of_inStream (s := s) h hidle
  history := fun k h1 hk _ => h.history k h1 hk (by simp [hv])
  ports := ⟨nofun, nofun, nofun, nofun⟩
  status := ⟨e.code_range.1, fun _ => rfl, fun _ => e.code_range.2⟩
  position := trivial

theorem State.Running.raise {s : State} (h : s.Running) (e : ErrKind) (info : BitVec 32) :
    (raise e info s).Inv :=
  raise_inv e info h.inv h.inStream.1 h.outValid

/-- A position that neither reads nor emits is held at neither port. -/
theorem State.Inv.running {s : State} (h : s.Inv) (hin : s.fsm ≠ .idle ∧ s.fsm ≠ .error) (hread : s.reading = false)
    (hemit : s.emitting = false) : s.Running := by
  obtain ⟨hi, ho, -⟩ := h.ports
  rw [hread] at hi
  rw [hemit] at ho
  exact ⟨h, by simpa using hi, by simpa using ho, hin⟩

/-! ## Reads -/

/-- How a read that starts in `s` can end: done with a value that has `P`, held, or in an error. Up to there it has
changed only what a read may change, and the bit buffer kept its form. -/
inductive ReadEnds {α : Type} (s : State) (P : α → Prop) : Flow α → Prop
  | done {a : α} {u : State} (ha : P a) (hf : onlyRead s u) (hi : u.inReady = false) (hr : Reads s u) :
    ReadEnds s P (.done a u)
  | hold {u : State} (hf : onlyRead s u) (hr : Reads s u) : ReadEnds s P (.hold u)
  | failed {u : State} (e : ErrKind) (info : BitVec 32) (hf : onlyRead s u) (hr : Reads s (raise e info u)) :
    ReadEnds s P (.failed (raise e info u))

theorem onlyRead_of_onlyInput {s t : State} (h : onlyInput s t) : onlyRead s t :=
  onlyRead_of_onlyField (onlyField_of_onlyInput h)

theorem readBit_ends (s : State) : ReadEnds s (fun _ => True) (readBit s) := by
  have h := readBit_reads s
  rcases readBit_cases s with ⟨b, t, hr, -, hf, hi⟩ | ⟨-, -, -, hr⟩ | ⟨-, -, -, hr⟩ <;> rw [hr] at h ⊢
  · exact .done trivial (onlyRead_of_onlyInput hf) hi h
  · exact .hold rfl h
  · exact .failed _ _ rfl h

theorem readRawByte_ends (s : State) : ReadEnds s (fun _ => True) (readRawByte s) := by
  have h := readByte_reads s
  unfold readRawByte
  unfold readByte at h ⊢
  cases hi : s.input with
  | cons b rest => rw [hi] at h; exact .done trivial rfl rfl h
  | nil =>
    rw [hi] at h
    cases he : s.inEnd <;> rw [he] at h
    · exact .hold (by rw [onlyRead, he]) h
    · exact .failed _ _ rfl h

theorem readBits_ends (n : Nat) (s : State) : ReadEnds s (· < 2 ^ n) (readBits n s) := by
  have h := readBits_reads n s
  rcases readBits_cases n s with ⟨v, t, hr, hv, hf, hi⟩ | ⟨t, hr, hf, -⟩ | ⟨t, hr, hf, -⟩ <;> rw [hr] at h ⊢
  · exact .done hv (onlyRead_of_onlyField hf) hi h
  · exact .hold (onlyRead_of_onlyField hf) h
  · exact .failed _ _ (onlyRead_of_onlyField hf) h

theorem decodeSymbol_ends (t : Table) (maxBits : Nat) (alph : BitVec 32) (s : State) :
    ReadEnds s (fun sym => ∃ e ∈ t, e.sym = sym) (decodeSymbol t maxBits alph s) := by
  have h := decodeSymbol_reads t maxBits alph s
  rcases decodeSymbol_cases t maxBits alph s with
    ⟨sym, u, hr, hm, hf, hi⟩ | ⟨u, hr, hf, -⟩ | ⟨u, hr, hf, -⟩ | ⟨u, hr, hf⟩ <;> rw [hr] at h ⊢
  · exact .done hm (onlyRead_of_onlyWalk hf) hi h
  · exact .hold (onlyRead_of_onlyWalk hf) h
  · exact .failed _ _ (onlyRead_of_onlyWalk hf) h
  · exact .failed _ _ (onlyRead_of_onlyWalk hf) h

/-- A position that reads stands in a stream and does not emit. -/
theorem not_emitting_of_reading {s : State} (h : s.reading = true) : s.emitting = false := by
  cases he : s.emitting
  · rfl
  · exact absurd (h.symm.trans (not_reading_of_emitting he)) nofun

theorem inStream_of_reading {s : State} (h : s.reading = true) : s.fsm ≠ .idle ∧ s.fsm ≠ .error := by
  constructor <;> intro hp <;> simp [State.reading, hp] at h

theorem outValid_of_reading {s : State} (h : s.Inv) (hread : s.reading = true) : s.outValid = false := by
  obtain ⟨-, hv, -⟩ := h.ports
  simpa [not_emitting_of_reading hread] using hv

/-- A read keeps the invariant at every point where it can stop. -/
theorem onlyRead_inv {s u : State} (h : s.Inv) (hread : s.reading = true) (hf : onlyRead s u) (hb : u.bitsOk) :
    u.Inv := by
  have hready : u.inReady = true → s.reading = true := fun _ => hread
  unfold onlyRead at hf
  rw [hf]
  exact {
    histWf := h.histWf
    sizes := h.sizes
    bits := hb
    window := h.window
    filledIs := h.filledIs
    history := h.history
    ports := ⟨hready, h.ports.2⟩
    status := h.status
    position := h.position }

/-- A read and what follows it keep the invariant, when what follows it does. -/
theorem finish_inv {α : Type} {f : Flow α} {P : α → Prop} {k : α → State → Result State} {s t : State} (h : s.Inv)
    (hread : s.reading = true) (hends : ReadEnds s P f)
    (hk : ∀ a u, P a → onlyRead s u → u.Running → k a u = .next t → t.Inv) (ht : f.finish k = .next t) : t.Inv := by
  have hheld := outValid_of_reading h hread
  have hvalid {u : State} (hf : onlyRead s u) : u.outValid = false := by rw [hf]; exact hheld
  have hin {u : State} (hf : onlyRead s u) : u.fsm ≠ .idle ∧ u.fsm ≠ .error := by
    rw [hf]; exact inStream_of_reading hread
  cases hends with
  | done ha hf hi hr => exact hk _ _ ha hf ⟨onlyRead_inv h hread hf (hr.bits h.bits), hi, hvalid hf, hin hf⟩ ht
  | hold hf hr => cases ht; exact onlyRead_inv h hread hf (hr.bits h.bits)
  | failed e info hf hr =>
    cases ht
    exact raise_inv e info (onlyRead_inv h hread hf (hr.bits h.bits)) (hin hf).1 (hvalid hf)

/-- A read that is followed by one update of the state. -/
theorem finish_next_inv {α : Type} {f : Flow α} {P : α → Prop} {g : α → State → State} {s t : State} (h : s.Inv)
    (hread : s.reading = true) (hends : ReadEnds s P f)
    (hg : ∀ a u, P a → onlyRead s u → u.Running → (g a u).Inv)
    (ht : f.finish (fun a u => .next (g a u)) = .next t) : t.Inv :=
  finish_inv h hread hends (fun a u ha hf hu hk => by cases hk; exact hg a u ha hf hu) ht

end Sys2Proof.Machine
end

section
/-! PROOF. The invariant over the work between instructions. -/

namespace Sys2Proof.Machine

/-- What the invariant says of a known position. -/
theorem State.Inv.positionAt {s : State} {p : Fsm} (h : s.Inv) (hp : s.fsm = p) : { s with fsm := p }.positionOk := by
  subst hp
  exact h.position

theorem onlyRead_fsm {s u : State} (h : onlyRead s u) : u.fsm = s.fsm := by rw [h]

theorem workBlockHdr_inv {p : HdrPos} {s t : State} (h : s.Inv) (hp : s.fsm = .blockHdr p)
    (ht : workBlockHdr p s = .next t) : t.Inv := by
  cases p with
  | final =>
    refine finish_next_inv h (by simp [State.reading, hp]) (readBit_ends s) (fun b u _ _ hu => ?_) ht
    exact hu.update rfl hu.inv.sizes ⟨nofun, nofun⟩ trivial
  | type =>
    refine finish_next_inv h (by simp [State.reading, hp]) (readBits_ends 2 s) (fun x u _ _ hu => ?_) ht
    exact hu.update rfl hu.inv.sizes ⟨nofun, nofun⟩ trivial
  | dispatch => cases ht; exact h

theorem align_running {s : State} (h : s.Running) : (align s).Running where
  inv := {
    histWf := h.inv.histWf
    sizes := h.inv.sizes
    bits := ⟨Nat.zero_le 8, Nat.one_pos⟩
    window := h.inv.window
    filledIs := h.inv.filledIs
    history := h.inv.history
    ports := h.inv.ports
    status := h.inv.status
    position := h.inv.position }
  inReady := h.inReady
  outValid := h.outValid
  inStream := h.inStream

/-- The tag of the op word of a literal (R107). -/
theorem opLiteralWord_tag (b : Byte) : (opLiteralWord b).extractLsb' 0 2 = 0#2 := (opWord_fields 0#15 b 0#2).1

theorem workStored_inv {p : StoredPos} {s t : State} (h : s.Inv) (hp : s.fsm = .stored p)
    (ht : workStored p s = .next t) : t.Inv := by
  have hin : s.fsm ≠ .idle ∧ s.fsm ≠ .error := by rw [hp]; exact ⟨nofun, nofun⟩
  cases p with
  | align =>
    cases ht
    have hs := align_running (h.running hin (by simp [State.reading, hp]) (by simp [State.emitting, hp]))
    exact hs.update rfl hs.inv.sizes ⟨nofun, nofun⟩ trivial
  | lenLo | lenHi | nlenLo | nlenHi =>
    refine finish_next_inv h (by simp [State.reading, hp]) (readRawByte_ends s) (fun b u _ _ hu => ?_) ht
    exact hu.update rfl hu.inv.sizes ⟨nofun, nofun⟩ trivial
  | check =>
    have hs := h.running hin (by simp [State.reading, hp]) (by simp [State.emitting, hp])
    simp only [workStored] at ht
    split at ht <;> cases ht
    · exact hs.raise _ _
    · exact hs.update rfl hs.inv.sizes ⟨nofun, nofun⟩ (le_refl s.storedLen.toNat)
  | data =>
    simp only [workStored] at ht
    split at ht
    · next hrem =>
      cases ht
      have hs := h.running hin (by simp [State.reading, hp, hrem]) (by simp [State.emitting, hp])
      exact hs.update rfl hs.inv.sizes ⟨nofun, nofun⟩ trivial
    · next hrem =>
      refine finish_next_inv h (by simpa [State.reading, hp] using hrem) (readRawByte_ends s) (fun b u _ hf hu => ?_) ht
      have hpos := hu.inv.positionAt ((onlyRead_fsm hf).trans hp)
      have hrem' : u.storedRem ≠ 0 := by rw [hf]; exact hrem
      exact hu.update rfl hu.inv.sizes ⟨nofun, nofun⟩ ⟨opLiteralWord_tag b, hrem', hpos⟩
  | op w => cases ht; exact h

/-! ## The symbols a table can give -/

theorem clTable_sym_lt {s : State} (h : s.Inv) {e : TableEntry} (he : e ∈ s.clTable) : e.sym < 19 := by
  have hlt := sym_lt_of_mem he
  rwa [List.length_map, h.sizes.1] at hlt

theorem fixedLLLen_length : fixedLLLen.length = 288 := by
  simp only [fixedLLLen, List.length_append, List.length_replicate]

theorem llTable_sym_lt {s : State} (h : s.Inv) {e : TableEntry} (he : e ∈ s.llTable) : e.sym < 288 := by
  obtain ⟨-, -, hlen, -⟩ := h.sizes
  unfold State.llTable at he
  split at he
  · have hlt := sym_lt_of_mem he
    rwa [List.length_map, hlen] at hlt
  · have hlt := sym_lt_of_mem he
    rwa [fixedLLLen_length] at hlt

/-! ## The dynamic block header -/

theorem workDynHdr_inv {p : DynPos} {s t : State} (h : s.Inv) (hp : s.fsm = .dynHdr p)
    (ht : workDynHdr p s = .next t) : t.Inv := by
  have hin : s.fsm ≠ .idle ∧ s.fsm ≠ .error := by rw [hp]; exact ⟨nofun, nofun⟩
  cases p with
  | hlit =>
    refine finish_next_inv h (by simp [State.reading, hp]) (readBits_ends 5 s) (fun x u hx _ hu => ?_) ht
    have hlit := hlitOf_toNat hx
    refine hu.update rfl hu.inv.sizes ⟨nofun, nofun⟩ (show _ ≤ (hlitOf x).toNat ∧ (hlitOf x).toNat ≤ _ from ?_)
    omega
  | hdist =>
    refine finish_next_inv h (by simp [State.reading, hp]) (readBits_ends 5 s) (fun x u hx hf hu => ?_) ht
    have hpos := hu.inv.positionAt ((onlyRead_fsm hf).trans hp)
    have hdist := hdistOf_toNat hx
    exact hu.update rfl hu.inv.sizes ⟨nofun, nofun⟩
      ⟨hpos.1, hpos.2, show _ ≤ (hdistOf x).toNat by omega, show (hdistOf x).toNat ≤ _ by omega⟩
  | hclen =>
    refine finish_next_inv h (by simp [State.reading, hp]) (readBits_ends 4 s) (fun x u hx hf hu => ?_) ht
    obtain ⟨h1, h2, h3, h4⟩ := hu.inv.positionAt ((onlyRead_fsm hf).trans hp)
    have hclen := hclenOf_toNat hx
    exact hu.update rfl ⟨List.length_replicate, hu.inv.sizes.2⟩ ⟨nofun, nofun⟩
      ⟨h1, h2, h3, h4, show _ ≤ (hclenOf x).toNat by omega, show (hclenOf x).toNat ≤ _ by omega, Nat.zero_le _⟩
  | clLen i =>
    simp only [workDynHdr] at ht
    split at ht
    · next hlt =>
      refine finish_next_inv h (by simp [State.reading, hp, hlt]) (readBits_ends 3 s) (fun x u _ hf hu => ?_) ht
      obtain ⟨h1, h2, h3, h4, h5, h6, -⟩ := hu.inv.positionAt ((onlyRead_fsm hf).trans hp)
      have hclen : u.hclen = s.hclen := by rw [hf]
      have hnext : i + 1 ≤ u.hclen.toNat := by rw [hclen]; exact hlt
      exact hu.update rfl ⟨List.length_set.trans hu.inv.sizes.1, hu.inv.sizes.2⟩ ⟨nofun, nofun⟩
        ⟨h1, h2, h3, h4, h5, h6, hnext⟩
    · next hlt =>
      cases ht
      have hs := h.running hin (by simp [State.reading, hp, hlt]) (by simp [State.emitting, hp])
      obtain ⟨h1, h2, h3, h4, -⟩ := h.positionAt hp
      exact hs.update rfl h.sizes ⟨nofun, nofun⟩ ⟨h1, h2, h3, h4, Nat.zero_le _⟩
  | symbol =>
    simp only [workDynHdr] at ht
    split at ht
    · next hlt =>
      refine finish_next_inv h (by simp [State.reading, hp, hlt]) (decodeSymbol_ends _ _ _ s)
        (fun c u hc hf hu => ?_) ht
      obtain ⟨e, he, rfl⟩ := hc
      have hsym := clTable_sym_lt h he
      obtain ⟨h1, h2, h3, h4, -⟩ := hu.inv.positionAt ((onlyRead_fsm hf).trans hp)
      have hmore : u.lenIdx.toNat < u.nCoded := by rw [hf]; exact hlt
      have h18 : (BitVec.ofNat 5 e.sym).toNat ≤ 18 := by rw [BitVec.toNat_ofNat]; omega
      exact hu.update rfl hu.inv.sizes ⟨nofun, nofun⟩ ⟨h1, h2, h3, h4, hmore, h18⟩
    · next hlt =>
      cases ht
      have hs := h.running hin (by simp [State.reading, hp, hlt]) (by simp [State.emitting, hp])
      obtain ⟨h1, h2, h3, h4, -⟩ := h.positionAt hp
      exact hs.update rfl h.sizes ⟨nofun, nofun⟩ ⟨h1, h2, h3, h4⟩
  | execCl c => cases ht; exact h
  | split =>
    cases ht
    have hs := h.running hin (by simp [State.reading, hp]) (by simp [State.emitting, hp])
    exact hs.update rfl ⟨h.sizes.1, h.sizes.2.1, by simp [Config.nLitLen], by simp [Config.nDist]⟩ ⟨nofun, nofun⟩ trivial

/-! ## Data symbols, the copy and the block's end -/

theorem workHuffSym_inv {p : HuffPos} {s t : State} (h : s.Inv) (hp : s.fsm = .huffSym p)
    (ht : workHuffSym p s = .next t) : t.Inv := by
  cases p with
  | symbol =>
    refine finish_next_inv h (by simp [State.reading, hp]) (decodeSymbol_ends _ _ _ s) (fun sym u hsym _ hu => ?_) ht
    obtain ⟨e, he, rfl⟩ := hsym
    have hlt := llTable_sym_lt h he
    have h287 : (BitVec.ofNat 9 e.sym).toNat ≤ 287 := by rw [BitVec.toNat_ofNat]; omega
    exact hu.update rfl hu.inv.sizes ⟨nofun, nofun⟩ h287
  | dist =>
    refine finish_next_inv h (by simp [State.reading, hp]) (decodeSymbol_ends _ _ _ s) (fun d u _ hf hu => ?_) ht
    have hpos := hu.inv.positionAt ((onlyRead_fsm hf).trans hp)
    exact hu.update rfl hu.inv.sizes ⟨nofun, nofun⟩ hpos
  | execSym | execDist | op => cases ht; exact h

/-- The end of one byte of the copy (R323). -/
theorem copyReturn_inv {u : State} (hu : u.Running) (hp : u.fsm = .copy) : (copyReturn u).Inv := by
  obtain ⟨hd, hle, h1, h2⟩ := hu.inv.positionAt hp
  by_cases hlast : u.copyRem = 1
  · have hfsm : (copyReturn u).fsm = .huffSym .symbol := if_pos hlast
    refine hu.update rfl hu.inv.sizes (by rw [hfsm]; exact ⟨nofun, nofun⟩) ?_
    rw [State.positionOk, hfsm]
    trivial
  · have hfsm : (copyReturn u).fsm = .copy := if_neg hlast
    refine hu.update rfl hu.inv.sizes (by rw [hfsm]; exact ⟨nofun, nofun⟩) ?_
    rw [State.positionOk, hfsm]
    have hrem : 1 ≤ (u.copyRem - 1).toNat ∧ (u.copyRem - 1).toNat ≤ 258 := by bv_omega
    exact ⟨hd, hle, hrem⟩

theorem workCopy_inv {s t : State} (h : s.Inv) (hp : s.fsm = .copy) (ht : workCopy s = .next t) : t.Inv := by
  obtain ⟨-, -, hrem, -⟩ := h.positionAt hp
  have hrem0 : s.copyRem ≠ 0 := by bv_omega
  rw [workCopy, if_neg hrem0] at ht
  split at ht
  · next b hb =>
    exact put_inv h (by simpa [State.emitting, hp] using hrem0) (fun _ => copy_byte_of_output h hp hb)
      (fun u hu hf => copyReturn_inv hu (hf.trans hp)) ht
  · cases ht

theorem workBlockEnd_inv {s t : State} (h : s.Inv) (hp : s.fsm = .blockEnd) (ht : workBlockEnd s = .next t) :
    t.Inv := by
  have hs := h.running (by rw [hp]; exact ⟨nofun, nofun⟩) (by simp [State.reading, hp]) (by simp [State.emitting, hp])
  cases ht
  cases hb : s.bfinal
  · exact hs.update rfl h.sizes ⟨nofun, nofun⟩ trivial
  · exact hs.update rfl h.sizes ⟨nofun, nofun⟩ trivial

/-- The work between instructions keeps the invariant. -/
theorem work_inv {s t : State} (h : s.Inv) (ht : work s = .next t) : t.Inv := by
  unfold work at ht
  cases hp : s.fsm <;> rw [hp] at ht
  case blockHdr => exact workBlockHdr_inv h hp ht
  case stored => exact workStored_inv h hp ht
  case dynHdr => exact workDynHdr_inv h hp ht
  case huffSym => exact workHuffSym_inv h hp ht
  case copy => exact workCopy_inv h hp ht
  case blockEnd => exact workBlockEnd_inv h hp ht
  case idle | done | error => cases ht; exact h

end Sys2Proof.Machine
end

section
/-! PROOF. The invariant over each instruction, and over a step. -/

namespace Sys2Proof.Machine

/-- A stream word is its own low bits of the 25 the decoder is given. -/
theorem setWidth_25_setWidth {n : Nat} (w : BitVec n) (hn : n ≤ 25) : (w.setWidth 25).setWidth n = w :=
  (BitVec.setWidth_setWidth_of_le w hn).trans (BitVec.setWidth_eq w)

/-! ## Block headers -/

theorem decode_blockHdr_cases {w : BitVec 25} {i : Instr} (h : decode .blockHdr w = .ok i) :
    ∃ final, i = .blockStored final ∨ i = .blockFixed final ∨ i = .blockDynamic final ∨ i = .blockReserved final := by
  rw [decode, decodeBlockHdr] at h
  split at h <;> cases h <;> simp

theorem exec_blockHdr_inv {w : BitVec 25} {i : Instr} {s t : State} (h : s.Inv) (hp : s.fsm = .blockHdr .dispatch)
    (hd : decode .blockHdr w = .ok i) (ht : exec i s = .next t) : t.Inv := by
  have hs := h.running (by rw [hp]; exact ⟨nofun, nofun⟩) (by simp [State.reading, hp]) (by simp [State.emitting, hp])
  obtain ⟨final, rfl | rfl | rfl | rfl⟩ := decode_blockHdr_cases hd <;> cases ht
  · exact hs.update rfl h.sizes ⟨nofun, nofun⟩ trivial
  · exact hs.update rfl h.sizes ⟨nofun, nofun⟩ trivial
  · exact hs.update rfl h.sizes ⟨nofun, nofun⟩ trivial
  · have hflags : (headerFlags final 3 s).Inv := hs.update rfl h.sizes hs.inStream h.position
    exact raise_inv _ _ hflags hs.inStream.1 hs.outValid

/-! ## Code-length symbols -/

theorem decode_clSym_cases {c : BitVec 5} {i : Instr} (h : decode .clSym (c.setWidth 25) = .ok i) :
    (c.toNat < 16 ∧ ∃ v, i = .clLen v) ∨ (c.toNat = 16 ∧ i = .clRep16) ∨ (c.toNat = 17 ∧ i = .clZero17) ∨
      (c.toNat = 18 ∧ i = .clZero18) := by
  rw [decode, setWidth_25_setWidth c (by decide), decodeCodeLen] at h
  split at h
  · next htop => cases h; exact .inl ⟨(topBit_eq_false_iff c).1 htop, _, rfl⟩
  · split at h <;> cases h
    · next hn => exact .inr (.inl ⟨hn, rfl⟩)
    · next hn => exact .inr (.inr (.inl ⟨hn, rfl⟩))
    · next hn => exact .inr (.inr (.inr ⟨hn, rfl⟩))

/-- A run that fits leaves `len_idx` within the coded lengths (R196). -/
theorem writeRun_inv {c : BitVec 5} {u : State} {r : Nat} {v : BitVec 4} (hu : u.Running)
    (hp : u.fsm = .dynHdr (.execCl c)) (hfit : u.lenIdx.toNat + r ≤ u.nCoded) : (writeRun r v u).Inv := by
  obtain ⟨hcl, hlens, hll⟩ := hu.inv.sizes
  obtain ⟨h1, h2, h3, h4, -⟩ := hu.inv.positionAt hp
  have hidx : (u.lenIdx + BitVec.ofNat 9 r).toNat ≤ u.nCoded := by
    rw [BitVec.toNat_add, BitVec.toNat_ofNat]
    omega
  exact hu.update rfl ⟨hcl, (fillLens_length _ _ _ _).trans hlens, hll⟩ ⟨nofun, nofun⟩ ⟨h1, h2, h3, h4, hidx⟩

theorem repeatRun_inv {c : BitVec 5} {base n : Nat} {v : BitVec 4} {s t : State} (h : s.Inv)
    (hp : s.fsm = .dynHdr (.execCl c)) (hread : s.reading = true) (ht : repeatRun base n v s = .next t) : t.Inv := by
  refine finish_inv h hread (readBits_ends n s) (fun x u _ hf hu hk => ?_) ht
  split at hk <;> cases hk
  · exact hu.raise _ _
  · exact writeRun_inv hu ((onlyRead_fsm hf).trans hp) (by omega)

theorem exec_clSym_inv {c : BitVec 5} {i : Instr} {s t : State} (h : s.Inv) (hp : s.fsm = .dynHdr (.execCl c))
    (hd : decode .clSym (c.setWidth 25) = .ok i) (ht : exec i s = .next t) : t.Inv := by
  have hin : s.fsm ≠ .idle ∧ s.fsm ≠ .error := by rw [hp]; exact ⟨nofun, nofun⟩
  rcases decode_clSym_cases hd with ⟨hc, v, rfl⟩ | ⟨hc, rfl⟩ | ⟨hc, rfl⟩ | ⟨hc, rfl⟩
  · cases ht
    obtain ⟨-, -, -, -, hlt, -⟩ := h.positionAt hp
    have hs := h.running hin (by simp [State.reading, hp]; omega) (by simp [State.emitting, hp])
    exact writeRun_inv hs hp hlt
  · change execClRep16 s = .next t at ht
    rw [execClRep16] at ht
    split at ht
    · next hidx =>
      cases ht
      exact (h.running hin (by simp [State.reading, hp, hc, hidx]) (by simp [State.emitting, hp])).raise _ _
    · next hidx => exact repeatRun_inv h hp (by simpa [State.reading, hp, hc] using hidx) ht
  · exact repeatRun_inv h hp (by simp [State.reading, hp, hc]) ht
  · exact repeatRun_inv h hp (by simp [State.reading, hp, hc]) ht

/-! ## Literal/length symbols -/

/-- The lengths of the symbols without and with extra bits are 3 to 258 (R233). -/
theorem lenBase_range {v : Nat} (h1 : 257 ≤ v) (h2 : v ≤ 285) : 3 ≤ lenBase v ∧ lenBase v + 2 ^ lenExtra v ≤ 259 := by
  interval_cases v <;> decide

theorem setLength_inv {u : State} {l : Nat} (hu : u.Running) (h3 : 3 ≤ l) (h258 : l ≤ 258) : (setLength l u).Inv := by
  have hl : (BitVec.ofNat 9 l).toNat = l := by rw [BitVec.toNat_ofNat]; omega
  exact hu.update rfl hu.inv.sizes ⟨nofun, nofun⟩
    ⟨show 3 ≤ (BitVec.ofNat 9 l).toNat by omega, show (BitVec.ofNat 9 l).toNat ≤ 258 by omega⟩

/-- What the literal/length symbol `v` means, by its range (R231 to R264). -/
theorem exec_litLenSym_cases {v : BitVec 9} {i : Instr} (hd : decode .litLenSym (v.setWidth 25) = .ok i) :
    (v.toNat < 256 ∧ ∃ b, i = .lit b) ∨ (v.toNat = 256 ∧ i = .eob) ∨
    (257 ≤ v.toNat ∧ (v.toNat ≤ 264 ∨ v.toNat = 285) ∧ ∀ s, exec i s = lengthExact (lenBase v.toNat) s) ∨
    (265 ≤ v.toNat ∧ v.toNat ≤ 284 ∧ ∀ s, exec i s = lengthExtra (lenBase v.toNat) (lenExtra v.toNat) s) ∨
    (286 ≤ v.toNat ∧ ∃ info, ∀ s, exec i s = invalidLength info s) := by
  obtain ⟨-, -, -, -, -, -, -, -, hexact, hextra, -⟩ := symbolFormulas
  have hd' : decode .litLenSym (BitVec.ofNat 25 v.toNat) = .ok i := by rwa [BitVec.ofNat_toNat]
  rw [decode, setWidth_25_setWidth v (by decide)] at hd
  rcases decodeLitLen_answer v with ⟨-, he⟩ | ⟨hmax, -⟩
  · exact absurd (he.symm.trans hd) nofun
  rw [decodeLitLen] at hd
  split at hd
  · next htop => cases hd; exact .inl ⟨(topBit_eq_false_iff v).1 htop, _, rfl⟩
  · next htop =>
    have hge : 256 ≤ v.toNat := Nat.not_lt.1 (mt (topBit_eq_false_iff v).2 htop)
    rcases (by omega : v.toNat = 256 ∨ (257 ≤ v.toNat ∧ (v.toNat ≤ 264 ∨ v.toNat = 285)) ∨
      (265 ≤ v.toNat ∧ v.toNat ≤ 284) ∨ v.toNat = 286 ∨ v.toNat = 287) with hn | ⟨h1, h2⟩ | ⟨h1, h2⟩ | hn | hn
    · rw [hn] at hd; cases hd; exact .inr (.inl ⟨hn, rfl⟩)
    · exact .inr (.inr (.inl ⟨h1, h2, hexact _ h1 h2 _ hd'⟩))
    · exact .inr (.inr (.inr (.inl ⟨h1, h2, hextra _ h1 h2 _ hd'⟩)))
    · rw [hn] at hd; cases hd; exact .inr (.inr (.inr (.inr ⟨by omega, _, fun _ => rfl⟩)))
    · rw [hn] at hd; cases hd; exact .inr (.inr (.inr (.inr ⟨by omega, _, fun _ => rfl⟩)))

theorem exec_litLenSym_inv {i : Instr} {s t : State} (h : s.Inv) (hp : s.fsm = .huffSym .execSym)
    (hd : decode .litLenSym (s.curSym.setWidth 25) = .ok i) (ht : exec i s = .next t) : t.Inv := by
  have hrunning (hv : 256 ≤ s.curSym.toNat) (hv' : ¬ (265 ≤ s.curSym.toNat ∧ s.curSym.toNat ≤ 284)) : s.Running :=
    h.running (by rw [hp]; exact ⟨nofun, nofun⟩) (by simp only [State.reading, hp]; exact decide_eq_false hv')
      (by simp only [State.emitting, hp]; exact decide_eq_false (by omega))
  rcases exec_litLenSym_cases hd with ⟨hv, b, rfl⟩ | ⟨hv, rfl⟩ | ⟨h1, h2, hi⟩ | ⟨h1, h2, hi⟩ | ⟨hv, info, hi⟩
  · rw [exec_lit] at ht
    refine put_inv h (by simpa [State.emitting, hp] using hv) (fun hc => absurd (hp.symm.trans hc) nofun)
      (fun u hu _ => ?_) ht
    exact hu.update rfl hu.inv.sizes ⟨nofun, nofun⟩ trivial
  · cases ht
    exact (hrunning (by omega) (by omega)).update rfl h.sizes ⟨nofun, nofun⟩ trivial
  · obtain ⟨h3, h258⟩ := lenBase_range h1 (by omega)
    have hpos := Nat.two_pow_pos (lenExtra s.curSym.toNat)
    rw [hi] at ht
    cases ht
    exact setLength_inv (hrunning (by omega) (by omega)) h3 (by omega)
  · obtain ⟨h3, h258⟩ := lenBase_range (by omega) (h2.trans (by decide))
    rw [hi] at ht
    refine finish_next_inv h (by simp [State.reading, hp, h1, h2]) (readBits_ends _ s) (fun x u hx _ hu => ?_) ht
    exact setLength_inv hu (by omega) (by omega)
  · rw [hi] at ht
    cases ht
    exact (hrunning (by omega) (by omega)).raise _ _

/-! ## Distance symbols -/

/-- What the distance symbol `v` means, by its range (R265 to R297). -/
theorem exec_distSym_cases {v : BitVec 5} {i : Instr} (hd : decode .distSym (v.setWidth 25) = .ok i) :
    (v.toNat ≤ 3 ∧ ∀ s, exec i s = distanceExact (distBase v.toNat) s) ∨
    (4 ≤ v.toNat ∧ v.toNat ≤ 29 ∧ ∀ s, exec i s = distanceExtra (distBase v.toNat) (distExtra v.toNat) s) ∨
    (30 ≤ v.toNat ∧ ∃ info, ∀ s, exec i s = invalidDistance info s) := by
  obtain ⟨-, -, -, -, -, -, -, -, -, -, hexact, hextra⟩ := symbolFormulas
  have hd' : decode .distSym (BitVec.ofNat 25 v.toNat) = .ok i := by rwa [BitVec.ofNat_toNat]
  have hlt := v.isLt
  rw [decode, setWidth_25_setWidth v (by decide), decodeDist] at hd
  rcases (by omega : v.toNat ≤ 3 ∨ (4 ≤ v.toNat ∧ v.toNat ≤ 29) ∨ v.toNat = 30 ∨ v.toNat = 31) with
    hn | ⟨h1, h2⟩ | hn | hn
  · exact .inl ⟨hn, hexact _ hn _ hd'⟩
  · exact .inr (.inl ⟨h1, h2, hextra _ h1 h2 _ hd'⟩)
  · rw [hn] at hd; cases hd; exact .inr (.inr ⟨by omega, _, fun _ => rfl⟩)
  · rw [hn] at hd; cases hd; exact .inr (.inr ⟨by omega, _, fun _ => rfl⟩)

/-- The back-reference is handed on as an op word of tag `10` (R107). -/
theorem setDistance_inv {u : State} (d : Nat) (hu : u.Running) : (setDistance d u).Inv := by
  have htag : (opBackrefWord u.curLen.toNat (BitVec.ofNat 16 d).toNat).extractLsb' 0 2 ≠ 3 := by
    rw [opBackrefWord, (opWord_fields _ _ _).1]
    decide
  exact hu.update rfl hu.inv.sizes ⟨nofun, nofun⟩ htag

theorem exec_distSym_inv {i : Instr} {s t : State} (h : s.Inv) (hp : s.fsm = .huffSym .execDist)
    (hd : decode .distSym (s.curDsym.setWidth 25) = .ok i) (ht : exec i s = .next t) : t.Inv := by
  have hrunning (hv : ¬ (4 ≤ s.curDsym.toNat ∧ s.curDsym.toNat ≤ 29)) : s.Running :=
    h.running (by rw [hp]; exact ⟨nofun, nofun⟩) (by simp only [State.reading, hp]; exact decide_eq_false hv)
      (by simp [State.emitting, hp])
  rcases exec_distSym_cases hd with ⟨hv, hi⟩ | ⟨h1, h2, hi⟩ | ⟨hv, info, hi⟩ <;> rw [hi] at ht
  · cases ht
    exact setDistance_inv _ (hrunning (by omega))
  · refine finish_next_inv h (by simp [State.reading, hp, h1, h2]) (readBits_ends _ s) (fun x u _ _ hu => ?_) ht
    exact setDistance_inv _ hu
  · cases ht
    exact (hrunning (by omega)).raise _ _

/-! ## Op words -/

/-- What an op word decodes to, by its tag, with the operands' ranges (R107). -/
theorem decode_windowOp_cases {w : BitVec 25} {i : Instr} (hd : decode .windowOp w = .ok i) :
    (w.extractLsb' 0 2 = 0 ∧ ∃ b, i = .opLiteral b) ∨ (w.extractLsb' 0 2 = 1 ∧ i = .opEndOfBlock) ∨
    (w.extractLsb' 0 2 = 2 ∧ ∃ l d, i = .opBackref l d ∧ (3 ≤ l ∧ l ≤ 258) ∧ (1 ≤ d ∧ d ≤ 32768)) := by
  have hl := (w.extractLsb' 2 8).isLt
  have hdist := (w.extractLsb' 10 15).isLt
  rw [decode, decodeOp] at hd
  split at hd <;> cases hd
  · next htag => exact .inl ⟨BitVec.eq_of_toNat_eq htag, _, rfl⟩
  · next htag => exact .inr (.inl ⟨BitVec.eq_of_toNat_eq htag, rfl⟩)
  · next htag => exact .inr (.inr ⟨BitVec.eq_of_toNat_eq htag, _, _, rfl, by omega, by omega⟩)

/-- A literal counts down the bytes of a stored block, or leads to the next data symbol (R181, R231). -/
theorem literalReturn_inv {w : BitVec 25} {u : State} (hu : u.Running)
    (hp : u.fsm = .stored (.op w) ∨ u.fsm = .huffSym (.op w)) : (literalReturn u).Inv := by
  rcases hp with hp | hp <;> simp only [literalReturn, hp]
  · obtain ⟨-, h0, hle⟩ := hu.inv.positionAt hp
    have hrem : (u.storedRem - 1).toNat ≤ u.storedLen.toNat := by bv_omega
    exact hu.update rfl hu.inv.sizes ⟨nofun, nofun⟩ hrem
  · exact hu.update rfl hu.inv.sizes ⟨nofun, nofun⟩ trivial

/-- A back-reference within `filled` starts a copy of 3 to 258 bytes; any other is an error (R322). -/
theorem windowBackref_inv {u : State} {l d : Nat} (hu : u.Running) (hl : 3 ≤ l ∧ l ≤ 258) (hd : 1 ≤ d ∧ d ≤ 32768) :
    (windowBackref l d u).Inv := by
  rcases windowBackref_cases l d u with ⟨-, h⟩ | ⟨hle, h⟩ <;> rw [h]
  · exact hu.raise _ _
  · have hlen : (BitVec.ofNat 9 l).toNat = l := by rw [BitVec.toNat_ofNat]; omega
    have hdist : (BitVec.ofNat 16 d).toNat = d := by rw [BitVec.toNat_ofNat]; omega
    refine hu.update rfl hu.inv.sizes ⟨nofun, nofun⟩ (show 1 ≤ (BitVec.ofNat 16 d).toNat ∧
      (BitVec.ofNat 16 d).toNat ≤ u.filled.toNat ∧ 1 ≤ (BitVec.ofNat 9 l).toNat ∧ (BitVec.ofNat 9 l).toNat ≤ 258 from ?_)
    omega

theorem exec_opLiteral_inv {w : BitVec 25} {b : Byte} {s t : State} (h : s.Inv)
    (hp : s.fsm = .stored (.op w) ∨ s.fsm = .huffSym (.op w)) (htag : w.extractLsb' 0 2 = 0)
    (ht : exec (.opLiteral b) s = .next t) : t.Inv := by
  have hemit : s.emitting = true := by
    rcases hp with hp | hp <;> simp only [State.emitting, hp] <;> exact decide_eq_true htag
  exact put_inv h hemit (fun hc => by simp [hc] at hp) (fun u hu hf => literalReturn_inv hu (by rwa [hf])) ht

theorem exec_windowOp_stored_inv {w : BitVec 25} {i : Instr} {s t : State} (h : s.Inv) (hp : s.fsm = .stored (.op w))
    (hd : decode .windowOp w = .ok i) (ht : exec i s = .next t) : t.Inv := by
  obtain ⟨htag, -⟩ := h.positionAt hp
  rcases decode_windowOp_cases hd with ⟨-, b, rfl⟩ | ⟨h1, -⟩ | ⟨h2, -⟩
  · exact exec_opLiteral_inv h (.inl hp) htag ht
  · exact absurd (htag.symm.trans h1) (by decide)
  · exact absurd (htag.symm.trans h2) (by decide)

theorem exec_windowOp_huffSym_inv {w : BitVec 25} {i : Instr} {s t : State} (h : s.Inv)
    (hp : s.fsm = .huffSym (.op w)) (hd : decode .windowOp w = .ok i) (ht : exec i s = .next t) : t.Inv := by
  have hrunning (htag : w.extractLsb' 0 2 ≠ 0) : s.Running :=
    h.running (by rw [hp]; exact ⟨nofun, nofun⟩) (by simp [State.reading, hp])
      (by simp only [State.emitting, hp]; exact decide_eq_false htag)
  rcases decode_windowOp_cases hd with ⟨htag, b, rfl⟩ | ⟨htag, rfl⟩ | ⟨htag, l, d, rfl, hl, hdist⟩
  · exact exec_opLiteral_inv h (.inr hp) htag ht
  · cases ht
    exact (hrunning (by rw [htag]; decide)).update rfl h.sizes ⟨nofun, nofun⟩ trivial
  · cases ht
    exact windowBackref_inv (hrunning (by rw [htag]; decide)) hl hdist

/-! ## A step -/

/-- The instruction that stands at the core's position keeps the invariant. -/
theorem exec_inv {f : Format} {w : BitVec 25} {i : Instr} {s t : State} (h : s.Inv) (hf : fetch s = some (f, w))
    (hd : decode f w = .ok i) (ht : exec i s = .next t) : t.Inv := by
  unfold fetch at hf
  cases hp : s.fsm <;> rw [hp] at hf
  case blockHdr p =>
    cases p with
    | dispatch => cases hf; exact exec_blockHdr_inv h hp hd ht
    | final | type => cases hf
  case stored p =>
    cases p with
    | op => cases hf; exact exec_windowOp_stored_inv h hp hd ht
    | align | lenLo | lenHi | nlenLo | nlenHi | check | data => cases hf
  case dynHdr p =>
    cases p with
    | execCl => cases hf; exact exec_clSym_inv h hp hd ht
    | hlit | hdist | hclen | clLen | symbol | split => cases hf
  case huffSym p =>
    cases p with
    | execSym => cases hf; exact exec_litLenSym_inv h hp hd ht
    | execDist => cases hf; exact exec_distSym_inv h hp hd ht
    | op => cases hf; exact exec_windowOp_huffSym_inv h hp hd ht
    | symbol | dist => cases hf
  case idle | copy | blockEnd | done | error => cases hf

theorem run_inv {s t : State} (h : s.Inv) (ht : run s = .next t) : t.Inv := by
  rcases run_cases s with ⟨f, w, i, hf, hd, hr⟩ | ⟨f, w, e, -, -, hr⟩ | ⟨-, hr⟩ <;> rw [hr] at ht
  · exact exec_inv h hf hd ht
  · cases ht
  · exact work_inv h ht

/-- `start` begins a stream with an empty window over the old history, which keeps its form (R342, R51). -/
theorem startStream_inv {s : State} (h : s.Inv) : (startStream s).Inv where
  histWf := h.histWf
  sizes := by simp [startStream, Config.nCodeLen, Config.nLens, Config.nLitLen, Config.nDist]
  bits := ⟨Nat.zero_le 8, Nat.one_pos⟩
  window := ⟨windowSize_pos (startStream s), Nat.zero_le _⟩
  filledIs := (Nat.zero_min (startStream s).windowSize).symm
  history := fun k h1 hk _ => absurd (h1.trans hk) (Nat.not_succ_le_zero 0)
  ports := ⟨nofun, nofun, nofun, nofun⟩
  status := ⟨Nat.zero_le 8, (absurd rfl ·), nofun⟩
  position := trivial

/-- Taking the event `start` without acting on it (R354) keeps the invariant. -/
theorem dropStart_inv {s : State} (h : s.Inv) : (dropStart s).Inv where
  histWf := h.histWf
  sizes := h.sizes
  bits := h.bits
  window := h.window
  filledIs := h.filledIs
  history := h.history
  ports := h.ports
  status := h.status
  position := h.position

/-- Settles O52: by what the step does, an event or a run, and the run by the core's position. -/
theorem invariantKept : Obligations.InvariantKept := by
  intro s t h ht
  rcases step_cases s with ⟨-, hs⟩ | ⟨-, -, -, hs⟩ | ⟨-, -, hs⟩ <;> rw [hs] at ht
  · cases ht; exact resetCore_inv s
  · cases ht; exact startStream_inv h
  · exact run_inv (dropStart_inv h) ht

end Sys2Proof.Machine
end

section
/-! PROOF. The codewords of a table: which rows `fwd` and `inv` find, their order within a length and over the lengths,
and their widths. All of it holds of every length array in range, over-subscribed or not. -/

namespace Sys2Proof.Machine

/-! ## The order of the codewords -/

section
variable {lens : List Nat} {maxBits : Nat}

/-- A symbol of length `l` is counted among the first `j` symbols of that length once `j` is past it. -/
theorem count_take_lt {i j l : Nat} (hi : lens[i]? = some l) (hij : i < j) :
    (lens.take i).count l < (lens.take j).count l := by
  have hsucc : (lens.take (i + 1)).count l = (lens.take i).count l + 1 := by
    simp [List.take_add_one, hi]
  calc (lens.take i).count l
      < (lens.take (i + 1)).count l := by omega
    _ ≤ (lens.take j).count l := (List.take_sublist_take_left hij).count_le l

/-- A symbol of nonzero length takes one of the `count[l]` codewords of its length. -/
theorem count_take_lt_lenCount {i l : Nat} (hi : lens[i]? = some l) (hl : l ≠ 0) :
    (lens.take i).count l < lenCount lens l := by
  obtain ⟨hlt, -⟩ := List.getElem?_eq_some_iff.1 hi
  have h := count_take_lt hi hlt
  rwa [List.take_length, ← show lenCount lens l = lens.count l from if_neg hl] at h

/-- The codewords of a length, extended to a greater length, all stand below the first codeword of that length (R153). -/
theorem firstCode_of_lt (lens : List Nat) {l m : Nat} (h : l < m) :
    (firstCode lens l + lenCount lens l) * 2 ^ (m - l) ≤ firstCode lens m := by
  induction m, h using Nat.le_induction with
  | base => simp [firstCode]
  | succ m hlm ih =>
    rw [Nat.succ_sub (by omega), Nat.pow_succ, ← Nat.mul_assoc, firstCode]
    omega

/-- The symbols of length up to `l + 1` are those up to `l` and those of `l + 1`. -/
theorem countP_le_succ (lens : List Nat) (l : Nat) :
    lens.countP (· ≤ l + 1) = lens.countP (· ≤ l) + lens.count (l + 1) := by
  induction lens with
  | nil => rfl
  | cons x lens ih =>
    simp only [List.countP_cons, List.count_cons, ih, decide_eq_true_eq, beq_iff_eq]
    split_ifs <;> omega

/-- `next[l + 1]` as it ends is at most the number of symbols up to that length, each extended by `l` bits. -/
theorem firstCode_add_lenCount_le (lens : List Nat) (l : Nat) :
    firstCode lens (l + 1) + lenCount lens (l + 1) ≤ lens.countP (· ≤ l + 1) * 2 ^ l := by
  induction l with
  | zero =>
    have hcount := countP_le_succ lens 0
    simp only [Nat.zero_add] at hcount
    simp [firstCode, lenCount, hcount]
  | succ l ih =>
    have hlong : lens.count (l + 2) ≤ lens.count (l + 2) * 2 ^ (l + 1) := Nat.le_mul_of_pos_right _ (Nat.two_pow_pos _)
    calc firstCode lens (l + 2) + lenCount lens (l + 2)
        = (firstCode lens (l + 1) + lenCount lens (l + 1)) * 2 + lens.count (l + 2) := rfl
      _ ≤ lens.countP (· ≤ l + 1) * 2 ^ l * 2 + lens.count (l + 2) * 2 ^ (l + 1) := by omega
      _ = lens.countP (· ≤ l + 2) * 2 ^ (l + 1) := by rw [countP_le_succ lens (l + 1)]; ring

/-- A row's length is in range and not 0, and its symbol is an index of the length array. -/
theorem row_range (hmax : ∀ l ∈ lens, l ≤ maxBits) {e : TableEntry} (he : e ∈ buildTable lens maxBits) :
    1 ≤ e.len ∧ e.len ≤ maxBits ∧ e.sym < lens.length := by
  obtain ⟨i, l, hi, hl, rfl⟩ := (mem_buildTable hmax e).1 he
  exact ⟨Nat.one_le_iff_ne_zero.2 hl, hmax l (List.mem_of_getElem? hi), sym_lt_of_mem he⟩

/-- Every codeword is below `next[l]` as the walk over the symbols leaves it. -/
theorem row_bits_lt (hmax : ∀ l ∈ lens, l ≤ maxBits) {e : TableEntry} (he : e ∈ buildTable lens maxBits) :
    e.bits < firstCode lens e.len + lenCount lens e.len := by
  obtain ⟨i, l, hi, hl, rfl⟩ := (mem_buildTable hmax e).1 he
  exact Nat.add_lt_add_left (count_take_lt_lenCount hi hl) _

/-- Codewords of one length increase with the symbol (R166). -/
theorem row_bits_lt_of_sym_lt (hmax : ∀ l ∈ lens, l ≤ maxBits) {e e' : TableEntry} (he : e ∈ buildTable lens maxBits)
    (he' : e' ∈ buildTable lens maxBits) (hlen : e.len = e'.len) (hsym : e.sym < e'.sym) : e.bits < e'.bits := by
  obtain ⟨i, l, hi, -, rfl⟩ := (mem_buildTable hmax e).1 he
  obtain ⟨j, m, -, -, rfl⟩ := (mem_buildTable hmax e').1 he'
  obtain rfl : l = m := hlen
  exact Nat.add_lt_add_left (count_take_lt hi hsym) _

/-- A longer codeword stands above every extension of a shorter one to its length (R166). -/
theorem row_bits_of_len_lt (hmax : ∀ l ∈ lens, l ≤ maxBits) {e e' : TableEntry} (he : e ∈ buildTable lens maxBits)
    (he' : e' ∈ buildTable lens maxBits) (hlen : e.len < e'.len) : (e.bits + 1) * 2 ^ (e'.len - e.len) ≤ e'.bits := by
  obtain ⟨j, m, -, -, rfl⟩ := (mem_buildTable hmax e').1 he'
  calc (e.bits + 1) * 2 ^ (m - e.len)
      ≤ (firstCode lens e.len + lenCount lens e.len) * 2 ^ (m - e.len) := Nat.mul_le_mul_right _ (row_bits_lt hmax he)
    _ ≤ firstCode lens m := firstCode_of_lt lens hlen
    _ ≤ firstCode lens m + (lens.take j).count m := Nat.le_add_right _ _

/-! ## What `fwd` and `inv` find -/

/-- Two rows of one symbol are the same row. -/
theorem row_eq_of_sym_eq (hmax : ∀ l ∈ lens, l ≤ maxBits) {e e' : TableEntry} (he : e ∈ buildTable lens maxBits)
    (he' : e' ∈ buildTable lens maxBits) (h : e.sym = e'.sym) : e = e' := by
  obtain ⟨i, l, hi, -, rfl⟩ := (mem_buildTable hmax e).1 he
  obtain ⟨j, m, hj, -, rfl⟩ := (mem_buildTable hmax e').1 he'
  obtain rfl : i = j := h
  obtain rfl : l = m := Option.some.inj (hi.symm.trans hj)
  rfl

/-- Two rows of one codeword are the same row: no key of `inv` is assigned twice (R155). -/
theorem row_eq_of_codeword_eq (hmax : ∀ l ∈ lens, l ≤ maxBits) {e e' : TableEntry} (he : e ∈ buildTable lens maxBits)
    (he' : e' ∈ buildTable lens maxBits) (hbits : e.bits = e'.bits) (hlen : e.len = e'.len) : e = e' := by
  rcases Nat.lt_trichotomy e.sym e'.sym with hlt | heq | hgt
  · exact absurd hbits (row_bits_lt_of_sym_lt hmax he he' hlen hlt).ne
  · exact row_eq_of_sym_eq hmax he he' heq
  · exact absurd hbits (row_bits_lt_of_sym_lt hmax he' he hlen.symm hgt).ne'

/-- `fwd` finds exactly the rows. -/
theorem fwd_eq_some_iff (hmax : ∀ l ∈ lens, l ≤ maxBits) {sym bits n : Nat} :
    (buildTable lens maxBits).fwd sym = some (bits, n) ↔ ⟨sym, bits, n⟩ ∈ buildTable lens maxBits := by
  constructor
  · intro h
    obtain ⟨e, hfind, he⟩ := Option.map_eq_some_iff.1 h
    obtain ⟨rfl, rfl⟩ := Prod.mk.inj he
    obtain rfl : e.sym = sym := by simpa using List.find?_some hfind
    exact List.mem_of_find?_eq_some hfind
  · intro h
    obtain ⟨i, l, hi, hl, hrow⟩ := (mem_buildTable hmax _).1 h
    obtain ⟨rfl, rfl, rfl⟩ := TableEntry.mk.inj hrow
    exact fwd_buildTable hmax hi hl

/-- `inv` finds exactly the rows. -/
theorem inv_eq_some_iff (hmax : ∀ l ∈ lens, l ≤ maxBits) {sym bits n : Nat} :
    (buildTable lens maxBits).inv bits n = some sym ↔ ⟨sym, bits, n⟩ ∈ buildTable lens maxBits := by
  constructor
  · intro h
    obtain ⟨e, he, rfl, rfl, rfl⟩ := inv_mem h
    exact he
  · intro h
    cases hinv : (buildTable lens maxBits).inv bits n with
    | none =>
      have hfind := List.find?_eq_none.1 (Option.map_eq_none_iff.1 hinv) _ h
      simp at hfind
    | some sym' =>
      obtain ⟨e, he, rfl, hbits, hlen⟩ := inv_mem hinv
      rw [row_eq_of_codeword_eq hmax he h hbits hlen]

end

/-- Settles O7: the rows with a length are `fwd_buildTable`; a symbol of length 0 has no row. -/
theorem canonicalCodewords : Obligations.CanonicalCodewords := by
  intro lens maxBits s hmax hs
  have hlen : lens[s]? = some (lens.getD s 0) := by simp [hs]
  split
  next hzero =>
    refine Option.eq_none_iff_forall_ne_some.2 fun p h => ?_
    obtain ⟨i, l, hi, hl, hrow⟩ := (mem_buildTable hmax _).1 ((fwd_eq_some_iff hmax).1 h)
    obtain ⟨rfl, -⟩ := TableEntry.mk.inj hrow
    exact hl (Option.some.inj (hi.symm.trans hlen) |>.trans hzero)
  next hl => exact fwd_buildTable hmax hlen hl

/-- Settles O8: both sides say that the table has the row. -/
theorem inverseOfForward : Obligations.InverseOfForward :=
  fun _ _ _ _ _ hmax => (inv_eq_some_iff hmax).trans (fwd_eq_some_iff hmax).symm

/-- Settles O10: by `firstCode_add_lenCount_le`, with at most 288 symbols and at most 14 bits more. -/
theorem codewordWidths : Obligations.CodewordWidths := by
  refine ⟨fun lens maxBits h15 h288 hmax => ?_, by decide, ?_⟩
  · have hcount (l : Nat) : lenCount lens l ≤ 288 := by
      unfold lenCount
      split
      · exact Nat.zero_le _
      · exact List.count_le_length.trans h288
    have hnext (l : Nat) (hl : l ≤ maxBits) : firstCode lens l + lenCount lens l ≤ 288 <<< 14 := by
      cases l with
      | zero => exact Nat.zero_le _
      | succ l =>
        calc firstCode lens (l + 1) + lenCount lens (l + 1)
            ≤ lens.countP (· ≤ l + 1) * 2 ^ l := firstCode_add_lenCount_le lens l
          _ ≤ 288 * 2 ^ 14 :=
            Nat.mul_le_mul (List.countP_le_length.trans h288) (Nat.pow_le_pow_right (by omega) (by omega))
          _ = 288 <<< 14 := rfl
    exact ⟨fun l hl => ⟨hcount l, hnext l hl⟩,
      fun e he => (row_bits_lt hmax he).trans_le (hnext e.len (row_range hmax he).2.1)⟩
  · simp [-List.reduceReplicate, firstCode, lenCount, List.count_replicate]

end Sys2Proof.Machine
end

section
/-! PROOF. The bits of a codeword, and that no two rows of a table begin the same bits. -/

namespace Sys2Proof.Machine

/-! ## The value of codeword bits -/

theorem codeValue_append (v : Nat) (bs cs : List Bool) : codeValue v (bs ++ cs) = codeValue (codeValue v bs) cs :=
  List.foldl_append

/-- Bits read after the value `v` shift it up and take the low places. -/
theorem codeValue_eq_add (v : Nat) (bs : List Bool) : codeValue v bs = v * 2 ^ bs.length + codeValue 0 bs := by
  induction bs generalizing v with
  | nil => simp [codeValue]
  | cons b bs ih =>
    rw [codeValue_cons, codeValue_cons, ih (2 * v + _), ih (2 * 0 + _), List.length_cons]
    ring

theorem codeValue_lt (bs : List Bool) : codeValue 0 bs < 2 ^ bs.length := by
  induction bs with
  | nil => exact Nat.one_pos
  | cons b bs ih =>
    have hb : b.toNat * 2 ^ bs.length ≤ 1 * 2 ^ bs.length := Nat.mul_le_mul_right _ (Bool.toNat_le b)
    rw [codeValue_cons, codeValue_eq_add, List.length_cons, Nat.pow_succ, Nat.mul_zero, Nat.zero_add]
    omega

theorem codeValue_take_lt {bits : List Bool} {n : Nat} (h : n ≤ bits.length) : codeValue 0 (bits.take n) < 2 ^ n := by
  have hlt := codeValue_lt (bits.take n)
  rwa [List.length_take_of_le h] at hlt

/-- The value of fewer bits is the value of more of them without the low places. -/
theorem codeValue_take_eq_div {bits : List Bool} {m n : Nat} (hmn : m ≤ n) (hn : n ≤ bits.length) :
    codeValue 0 (bits.take m) = codeValue 0 (bits.take n) / 2 ^ (n - m) := by
  have hlen : ((bits.drop m).take (n - m)).length = n - m := by simp; omega
  have hlow := codeValue_lt ((bits.drop m).take (n - m))
  have hsplit : bits.take n = bits.take m ++ (bits.drop m).take (n - m) := by
    rw [← List.take_add, Nat.add_sub_cancel' hmn]
  rw [hlen] at hlow
  rw [hsplit, codeValue_append, codeValue_eq_add (codeValue 0 _), hlen, Nat.add_comm,
    Nat.add_mul_div_right _ _ (Nat.two_pow_pos _), Nat.div_eq_of_lt hlow, Nat.zero_add]

@[simp] theorem codeBits_length (v n : Nat) : (codeBits v n).length = n := by simp [codeBits]

/-- The last bit of a codeword is its lowest. -/
theorem codeBits_succ (v n : Nat) : codeBits v (n + 1) = codeBits (v / 2) n ++ [v.testBit 0] := by
  simp only [codeBits, List.range_succ, List.map_append, List.map_cons, List.map_nil]
  congr 1
  · refine List.map_congr_left fun i hi => ?_
    have hlt := List.mem_range.1 hi
    rw [Nat.testBit_div_two]
    congr 1
    omega
  · simp

/-- The bits of a codeword that fits its length have its value (R70). -/
theorem codeValue_codeBits {v n : Nat} (h : v < 2 ^ n) : codeValue 0 (codeBits v n) = v := by
  induction n generalizing v with
  | zero => exact (Nat.lt_one_iff.1 h).symm
  | succ n ih =>
    rw [codeBits_succ, codeValue_append, ih (by omega)]
    change 2 * (v / 2) + (v.testBit 0).toNat = v
    rw [Nat.testBit_zero]
    rcases Nat.mod_two_eq_zero_or_one v with h | h <;> simp [h] <;> omega

/-! ## No two codewords begin the same bits -/

section
variable {lens : List Nat} {maxBits : Nat}

/-- The codeword found at the head of the bits is a row. -/
theorem matchAt_eq_some_iff (hmax : ∀ l ∈ lens, l ≤ maxBits) {bits : List Bool} {n sym : Nat} :
    (buildTable lens maxBits).matchAt bits n = some sym ↔
      ⟨sym, codeValue 0 (bits.take n), n⟩ ∈ buildTable lens maxBits :=
  inv_eq_some_iff hmax

/-- When a codeword begins the bits, no shorter one does. The table need not be legal: a longer codeword stands above
every extension of a shorter one, and those that do not fit their length begin no bits (R156). -/
theorem noMatchBelow_of_matchAt (hmax : ∀ l ∈ lens, l ≤ maxBits) {bits : List Bool} {n sym : Nat}
    (hn : n ≤ bits.length) (hm : (buildTable lens maxBits).matchAt bits n = some sym) :
    (buildTable lens maxBits).noMatchBelow bits n := by
  intro m _ hmn
  refine Option.eq_none_iff_forall_ne_some.2 fun sym' hshort => ?_
  have habove := row_bits_of_len_lt hmax ((matchAt_eq_some_iff hmax).1 hshort) ((matchAt_eq_some_iff hmax).1 hm) hmn
  have hle := (Nat.le_div_iff_mul_le (Nat.two_pow_pos _)).2 habove
  rw [← codeValue_take_eq_div hmn.le hn] at hle
  exact Nat.not_succ_le_self _ hle

/-- In a legal table the step of R153 past the longest length is still at most `2^(maxBits + 1)`. -/
theorem firstCode_le_of_legal (hlegal : legalLengths lens maxBits) : firstCode lens (maxBits + 1) ≤ 2 ^ (maxBits + 1) := by
  have hroom := hlegal.2
  have hscaled := firstCode_scaled lens maxBits maxBits le_rfl
  rw [List.range_succ, List.map_append, List.sum_append, ← hscaled] at hroom
  simp only [Nat.sub_self, pow_zero, Nat.mul_one, List.map_cons, List.map_nil, List.sum_cons, List.sum_nil] at hroom
  rw [firstCode, Nat.pow_succ]
  omega

/-- In a legal table every codeword fits its length. -/
theorem row_bits_fit (hlegal : legalLengths lens maxBits) {e : TableEntry} (he : e ∈ buildTable lens maxBits) :
    e.bits < 2 ^ e.len := by
  obtain ⟨-, hle, -⟩ := row_range hlegal.1 he
  refine (row_bits_lt hlegal.1 he).trans_le (Nat.le_of_mul_le_mul_right ?_ (Nat.two_pow_pos (maxBits + 1 - e.len)))
  calc (firstCode lens e.len + lenCount lens e.len) * 2 ^ (maxBits + 1 - e.len)
      ≤ firstCode lens (maxBits + 1) := firstCode_of_lt lens (Nat.lt_succ_of_le hle)
    _ ≤ 2 ^ (maxBits + 1) := firstCode_le_of_legal hlegal
    _ = 2 ^ e.len * 2 ^ (maxBits + 1 - e.len) := by rw [← Nat.pow_add, Nat.add_sub_cancel' (by omega)]

/-- The bits of a row of a legal table, whatever follows them, begin with that row's codeword. -/
theorem matchAt_codeBits (hlegal : legalLengths lens maxBits) {e : TableEntry} (he : e ∈ buildTable lens maxBits)
    (rest : List Bool) : (buildTable lens maxBits).matchAt (codeBits e.bits e.len ++ rest) e.len = some e.sym := by
  rw [matchAt_eq_some_iff hlegal.1, List.take_left' (codeBits_length _ _), codeValue_codeBits (row_bits_fit hlegal he)]
  exact he

/-- In a legal table no codeword begins another: both would begin the bits of the longer one. -/
theorem row_eq_of_codeBits_prefix (hlegal : legalLengths lens maxBits) {e e' : TableEntry}
    (he : e ∈ buildTable lens maxBits) (he' : e' ∈ buildTable lens maxBits)
    (hpre : codeBits e.bits e.len <+: codeBits e'.bits e'.len) : e = e' := by
  have hmax := hlegal.1
  have hlen : e.len ≤ e'.len := by simpa using hpre.length_le
  obtain ⟨rest, hrest⟩ := hpre
  have hm := matchAt_codeBits hlegal he rest
  have hm' := matchAt_codeBits hlegal he' []
  rw [List.append_nil] at hm'
  rw [hrest] at hm
  rcases hlen.lt_or_eq with hlt | heq
  · have hnone := noMatchBelow_of_matchAt hmax (by simp) hm' e.len (row_range hmax he).1 hlt
    exact absurd (hnone.symm.trans hm) nofun
  · rw [heq] at hm
    exact row_eq_of_sym_eq hmax he he' (Option.some.inj (hm.symm.trans hm'))

end

/-- Settles O9: the rows fit their lengths, no two of them begin the same bits, and within a length they increase. -/
theorem legalTablesPrefixFree : Obligations.LegalTablesPrefixFree :=
  ⟨fun _ _ hlegal => ⟨fun _ he => row_bits_fit hlegal he, fun _ he _ he' => row_eq_of_codeBits_prefix hlegal he he',
    fun _ he _ he' => row_bits_lt_of_sym_lt hlegal.1 he he'⟩, by decide⟩

end Sys2Proof.Machine
end

section
/-! PROOF. A symbol decode that has its bits: the shortest codeword, the codewords of a legal table, none, and the fixed
tables. -/

namespace Sys2Proof.Machine

/-! ## A decode whose bits begin with a codeword -/

/-- A decode and the update that follows it, when a codeword begins the unread bits and no read is held (R162). -/
theorem decodeSymbol_next {t : Table} {maxBits n sym : Nat} {alph : BitVec 32} {s : State} (k : Nat → State → State)
    (hr : s.inReady = false) (hmax : maxBits ≤ 15) (h1 : 1 ≤ n) (hn : n ≤ maxBits) (hu : n ≤ s.unread.length)
    (hno : t.noMatchBelow s.unread n) (hm : t.matchAt s.unread n = some sym) :
    ∃ u, (decodeSymbol t maxBits alph s).finish (fun x s => .next (k x s)) = .next (k sym u) ∧
      u.unread = s.unread.drop n ∧
      u = { s with
        walkBits := u.walkBits, walkLen := u.walkLen
        bitbuf := u.bitbuf, bitcnt := u.bitcnt, input := u.input, cursor := u.cursor } := by
  obtain ⟨u, hu', hrest, honly, hready⟩ := decodeSymbol_match (alph := alph) hr hmax h1 hn hu hno hm
  refine ⟨u, by rw [hu']; rfl, hrest, ?_⟩
  rwa [onlyWalk, hready, ← hr] at honly

/-- Settles O13: each of the three decodes is `decodeSymbol_next` with its table and its update. -/
theorem decodeConsumesCodeword : Obligations.DecodeConsumesCodeword := by
  intro s n sym hr hs hi h1 hu
  refine ⟨fun hp hn hno hm => ?_, fun hp hn hno hm => ?_, fun hp hlt hn hno hm => ?_⟩
  · rw [step_huffSym hr hs hp (.inl rfl)]
    obtain ⟨u, hstep, hrest, hframe⟩ := decodeSymbol_next
      (fun x s => { s with curSym := BitVec.ofNat 9 x, fsm := .huffSym .execSym }) hi le_rfl h1 hn hu hno hm
    exact ⟨_, hstep, rfl, rfl, hrest, by rw [hframe]⟩
  · rw [step_huffSym hr hs hp (.inr rfl)]
    obtain ⟨u, hstep, hrest, hframe⟩ := decodeSymbol_next
      (fun x s => { s with curDsym := BitVec.ofNat 5 x, fsm := .huffSym .execDist }) hi le_rfl h1 hn hu hno hm
    exact ⟨_, hstep, rfl, rfl, hrest, by rw [hframe]⟩
  · rw [step_dynHdr hr hs hp nofun, workDynHdr, if_pos hlt]
    obtain ⟨u, hstep, hrest, hframe⟩ := decodeSymbol_next
      (fun x s => { s with fsm := .dynHdr (.execCl (BitVec.ofNat 5 x)) }) hi (by decide) h1 hn hu hno hm
    exact ⟨_, hstep, rfl, hrest, by rw [hframe]⟩

/-- Where the bits begin with the codeword of a symbol of a legal table, a decode finds it: its length is in range and no
shorter codeword matches. -/
theorem legal_codeword_found {w maxBits sym v n : Nat} {lens : List (BitVec w)} {bits rest : List Bool}
    (hlegal : legalLengths (lens.map BitVec.toNat) maxBits) (hbits : bits = codeBits v n ++ rest)
    (hfwd : (buildTable (lens.map BitVec.toNat) maxBits).fwd sym = some (v, n)) :
    sym < lens.length ∧ 1 ≤ n ∧ n ≤ maxBits ∧ (buildTable (lens.map BitVec.toNat) maxBits).noMatchBelow bits n ∧
      (buildTable (lens.map BitVec.toNat) maxBits).matchAt bits n = some sym := by
  subst hbits
  have hrow := (fwd_eq_some_iff hlegal.1).1 hfwd
  obtain ⟨h1, hn, hsym⟩ := row_range hlegal.1 hrow
  have hm := matchAt_codeBits hlegal hrow rest
  exact ⟨by rwa [List.length_map] at hsym, h1, hn, noMatchBelow_of_matchAt hlegal.1 (by simp) hm, hm⟩

/-- Settles O15: the codeword of a legal table is the one the decode finds, and the decode consumes it (O13). -/
theorem legalTableRoundTrip : Obligations.LegalTableRoundTrip := by
  intro s sym v n rest hr hs hi hu
  have hn : n ≤ s.unread.length := by simp [hu]
  have hrest : s.unread.drop n = rest := by rw [hu, List.drop_left' (codeBits_length v n)]
  refine ⟨fun hp ht hlen hlegal hfwd => ?_, fun hp ht hlen hlegal hfwd => ?_, fun hp hlt hlen hlegal hfwd => ?_⟩
  · have htable : s.llTable = buildTable (s.llLen.map BitVec.toNat) 15 := if_pos ht
    obtain ⟨hsym, h1, hmax, hno, hm⟩ := legal_codeword_found hlegal hu (htable ▸ hfwd)
    obtain ⟨t, hstep, hcur, hfsm, hdrop, -⟩ := (decodeConsumesCodeword s n sym hr hs hi h1 hn).1 hp hmax
      (htable ▸ hno) (htable ▸ hm)
    exact ⟨t, hstep, by rw [hcur, BitVec.toNat_ofNat]; omega, hfsm, hdrop.trans hrest⟩
  · have htable : s.dTable = buildTable (s.dLen.map BitVec.toNat) 15 := if_pos ht
    obtain ⟨hsym, h1, hmax, hno, hm⟩ := legal_codeword_found hlegal hu (htable ▸ hfwd)
    obtain ⟨t, hstep, hcur, hfsm, hdrop, -⟩ := (decodeConsumesCodeword s n sym hr hs hi h1 hn).2.1 hp hmax
      (htable ▸ hno) (htable ▸ hm)
    exact ⟨t, hstep, by rw [hcur, BitVec.toNat_ofNat]; omega, hfsm, hdrop.trans hrest⟩
  · obtain ⟨hsym, h1, hmax, hno, hm⟩ := legal_codeword_found hlegal hu hfwd
    obtain ⟨t, hstep, hfsm, hdrop, -⟩ := (decodeConsumesCodeword s n sym hr hs hi h1 hn).2.2 hp hlt hmax hno hm
    exact ⟨t, _, hstep, hfsm, by rw [BitVec.toNat_ofNat]; omega, hdrop.trans hrest⟩

/-! ## A decode whose bits begin with no codeword -/

/-- A decode that finds no codeword in its longest length enters ERROR, having read that many bits (R163). -/
theorem finish_decodeSymbol_invalid {t : Table} {maxBits : Nat} {alph : BitVec 32} {s : State}
    (k : Nat → State → Result State) (hr : s.inReady = false) (hmax : maxBits ≤ 15) (hu : maxBits ≤ s.unread.length)
    (hno : t.noMatchBelow s.unread (maxBits + 1)) :
    ∃ u, (decodeSymbol t maxBits alph s).finish k = .next u ∧ u.fsm = .error ∧ u.errCode = 7 ∧ u.errInfo = alph ∧
      u.unread = s.unread.drop maxBits := by
  obtain ⟨u, hfail, hrest, -⟩ := decodeSymbol_invalid (alph := alph) hr hmax hu hno
  exact ⟨raise .invalidCode alph u, by rw [hfail]; rfl, rfl, rfl, rfl, hrest⟩

/-- Settles O14: each of the three decodes fails by `finish_decodeSymbol_invalid`. -/
theorem decodeWithoutCodeword : Obligations.DecodeWithoutCodeword := by
  intro s hr hs hi
  refine ⟨fun hp hu hno => ?_, fun hp hu hno => ?_, fun hp hlt hu hno => ?_⟩
  · rw [step_huffSym hr hs hp (.inl rfl)]
    exact finish_decodeSymbol_invalid _ hi le_rfl hu hno
  · rw [step_huffSym hr hs hp (.inr rfl)]
    exact finish_decodeSymbol_invalid _ hi le_rfl hu hno
  · rw [step_dynHdr hr hs hp nofun, workDynHdr, if_pos hlt]
    exact finish_decodeSymbol_invalid _ hi (by decide) hu hno

/-- A table of zero lengths has no codeword (R167). -/
theorem buildTable_zeros_noMatchBelow (k maxBits n : Nat) (bits : List Bool) :
    (buildTable (List.replicate k 0) maxBits).noMatchBelow bits n := by
  have hmax : ∀ l ∈ List.replicate k 0, l ≤ maxBits := fun l hl => (List.eq_of_mem_replicate hl).trans_le (Nat.zero_le _)
  refine fun m _ _ => Option.eq_none_iff_forall_ne_some.2 fun sym h => ?_
  obtain ⟨i, l, hi, hl, -⟩ := (mem_buildTable hmax _).1 ((matchAt_eq_some_iff hmax).1 h)
  exact hl (List.eq_of_mem_replicate (List.mem_of_getElem? hi))

/-- Settles O16: the distance table is one of zero lengths, and its decode fails (O14). -/
theorem emptyDistanceTable : Obligations.EmptyDistanceTable := by
  intro s hr hs hi hp ht hd hu
  refine (decodeWithoutCodeword s hr hs hi).2.1 hp hu ?_
  rw [State.dTable, if_pos ht, hd, List.map_replicate]
  exact buildTable_zeros_noMatchBelow _ _ _ _

/-! ## The fixed tables are complete -/

/-- Every 9 bits begin with a codeword of the fixed literal/length table, of 7, 8 or 9 bits: the first 7 bits up to
`0010111`, the first 8 from `00110000` to `11000111`, all 9 from `110010000` (R158). -/
theorem fixedLLTable_matches {bits : List Bool} (h : 9 ≤ bits.length) :
    ∃ n sym, 7 ≤ n ∧ n ≤ 9 ∧ sym < 288 ∧ fixedLLTable.matchAt bits n = some sym := by
  obtain ⟨literals8, literals9, lengths7, lengths8, -⟩ := fixedCodewords
  have hlt := codeValue_take_lt h
  have h8 := codeValue_take_eq_div (m := 8) (by decide) h
  have h7 := codeValue_take_eq_div (m := 7) (by decide) h
  have found {n sym v : Nat} (hfwd : fixedLLTable.fwd sym = some (v, n)) (hv : codeValue 0 (bits.take n) = v) :
      fixedLLTable.matchAt bits n = some sym :=
    (inverseOfForward _ _ _ _ _ fixedLLLen_le).2 (hv ▸ hfwd)
  rcases Nat.lt_or_ge (codeValue 0 (bits.take 7)) 24 with hlow | h24
  · exact ⟨7, _, by omega, by omega, by omega, found (lengths7 _ hlow) rfl⟩
  rcases Nat.lt_or_ge (codeValue 0 (bits.take 8)) 0xC0 with hlow | hC0
  · exact ⟨8, _, by omega, by omega, by omega,
      found (literals8 (codeValue 0 (bits.take 8) - 0x30) (by omega)) (by omega)⟩
  rcases Nat.lt_or_ge (codeValue 0 (bits.take 8)) 0xC8 with hlow | hC8
  · exact ⟨8, _, by omega, by omega, by omega,
      found (lengths8 (codeValue 0 (bits.take 8) - 0xC0) (by omega)) (by omega)⟩
  · exact ⟨9, _, by omega, by omega, by omega,
      found (literals9 (codeValue 0 (bits.take 9) - 0x190) (by omega)) (by omega)⟩

/-- Every 5 bits are the codeword of the distance symbol that is their value (R159). -/
theorem fixedDTable_matches {bits : List Bool} (h : 5 ≤ bits.length) :
    fixedDTable.matchAt bits 5 = some (codeValue 0 (bits.take 5)) := by
  obtain ⟨-, -, -, -, distances⟩ := fixedCodewords
  exact (inverseOfForward _ _ _ _ _ fixedDLen_le).2 (distances _ (codeValue_take_lt h))

/-- Settles O12: a codeword begins the bits, so the decode takes the shortest and only one that does (O13). -/
theorem fixedTablesComplete : Obligations.FixedTablesComplete := by
  intro s hr hs hi ht
  refine ⟨fun hp hu => ?_, fun hp hu => ?_⟩
  · have htable : s.llTable = fixedLLTable := if_neg (by simp [ht])
    obtain ⟨n, sym, h7, h9, hsym, hm⟩ := fixedLLTable_matches hu
    have hno := noMatchBelow_of_matchAt fixedLLLen_le (by omega) hm
    obtain ⟨t, hstep, hcur, hfsm, hrest, -⟩ := (decodeConsumesCodeword s n sym hr hs hi (by omega) (by omega)).1 hp
      (by omega) (htable ▸ hno) (htable ▸ hm)
    have hreg : t.curSym.toNat < 288 := by
      rw [hcur, BitVec.toNat_ofNat]
      omega
    exact ⟨t, n, hstep, hfsm, hreg, h7, h9, hrest⟩
  · have htable : s.dTable = fixedDTable := if_neg (by simp [ht])
    have hm := fixedDTable_matches hu
    have hno := noMatchBelow_of_matchAt fixedDLen_le hu hm
    obtain ⟨t, hstep, hcur, hfsm, hrest, -⟩ := (decodeConsumesCodeword s 5 _ hr hs hi (by decide) hu).2.1 hp
      (by decide) (htable ▸ hno) (htable ▸ hm)
    refine ⟨t, hstep, hfsm, ?_, hrest⟩
    rw [hcur, BitVec.toNat_ofNat, Nat.mod_eq_of_lt (codeValue_take_lt hu)]

end Sys2Proof.Machine
end

section
/-! PROOF. The coded lengths of a dynamic header, their split, and the data of a stored block. -/

namespace Sys2Proof.Machine

/-! ## The repeats among the code-length symbols -/

/-- The diagnostic value as a number: the subcode stands above 16 bits that hold `len_idx` (R371, R377). -/
theorem malformedInfo_eq_ofNat (subcode : BitVec 16) (lenIdx : BitVec 9) :
    malformedInfo subcode lenIdx = BitVec.ofNat 32 (subcode.toNat * 2 ^ 16 + lenIdx.toNat) := by
  apply BitVec.eq_of_toNat_eq
  have hidx : lenIdx.toNat < 2 ^ 16 := by omega
  rw [malformedInfo, BitVec.toNat_append, BitVec.toNat_setWidth, Nat.mod_eq_of_lt hidx, Nat.shiftLeft_eq, mul_comm,
    ← Nat.two_pow_add_eq_or_of_lt hidx, BitVec.toNat_ofNat]
  omega

/-- The three repeats, each with its base, its number of extra bits and the length it repeats (R193 to R195, R199). -/
def State.repeats (s : State) : List (Instr × Nat × Nat × BitVec 4) :=
  [(.clRep16, 3, 2, s.lens.getD (s.lenIdx.toNat - 1) 0), (.clZero17, 3, 3, 0), (.clZero18, 11, 7, 0)]

/-- Each repeat runs as its row of `repeats` says, CL_REP16 when there is a previous length. -/
theorem exec_repeat {s : State} {i : Instr} {base n : Nat} {v : BitVec 4} (h : (i, base, n, v) ∈ s.repeats)
    (hprev : i = .clRep16 → s.lenIdx ≠ 0) : exec i s = repeatRun base n v s ∧ n ≤ 16 := by
  simp only [State.repeats, List.mem_cons, List.not_mem_nil, or_false, Prod.mk.injEq] at h
  rcases h with ⟨rfl, rfl, rfl, rfl⟩ | ⟨rfl, rfl, rfl, rfl⟩ | ⟨rfl, rfl, rfl, rfl⟩
  · exact ⟨if_neg (hprev rfl), by decide⟩
  · exact ⟨rfl, by decide⟩
  · exact ⟨rfl, by decide⟩

/-- A repeat whose extra bits are there: they are consumed, then the run is checked against `hlit + hdist` (R196). -/
theorem repeatRun_of_unread {s : State} {n : Nat} (base : Nat) (v : BitVec 4) (hr : s.inReady = false) (hn : n ≤ 16)
    (hu : n ≤ s.unread.length) :
    ∃ u, u.unread = s.unread.drop n ∧ onlyField s u ∧ u.inReady = false ∧
      repeatRun base n v s =
        if s.nCoded < s.lenIdx.toNat + (base + fieldValue (s.unread.take n)) then
          .next (raise .malformedDynamicCodeTable (malformedInfo 2 s.lenIdx) u)
        else .next (writeRun (base + fieldValue (s.unread.take n)) v u) := by
  obtain ⟨u, h, hrest, honly, hready⟩ := readBits_of_unread hr hn hu
  have hidx : u.lenIdx = s.lenIdx := by rw [honly]
  have hcoded : u.nCoded = s.nCoded := by rw [honly]; rfl
  refine ⟨u, hrest, honly, hready, ?_⟩
  rw [repeatRun, h, Flow.finish, hidx, hcoded]

/-- A run within the 320 slots does not wrap `len_idx`. -/
theorem writeRun_lenIdx_toNat {s : State} {r : Nat} (v : BitVec 4) (h : s.lenIdx.toNat + r ≤ 320) :
    (writeRun r v s).lenIdx.toNat = s.lenIdx.toNat + r := by
  rw [writeRun, BitVec.toNat_add, BitVec.toNat_ofNat]
  omega

/-- Settles O26: CL_LEN is a run of one; the entries of a longer run are those of `fillLens`. -/
theorem codeLengthSymbols : Obligations.CodeLengthSymbols := by
  intro s hlen hcoded
  refine ⟨fun v _ => rfl, fun i base n v hmem hprev hi hu hfit => ?_⟩
  obtain ⟨hexec, hn⟩ := exec_repeat hmem hprev
  obtain ⟨u, hrest, honly, hready, hrun⟩ := repeatRun_of_unread base v hi hn hu
  rw [if_neg (by omega)] at hrun
  have hlens : u.lens = s.lens := by rw [honly]
  have hlenIdx : u.lenIdx = s.lenIdx := by rw [honly]
  have hidx := writeRun_lenIdx_toNat (s := u) (r := base + fieldValue (s.unread.take n)) v (by rw [hlenIdx]; omega)
  rw [hlenIdx] at hidx
  refine ⟨_, hexec.trans hrun, hrest, rfl, hidx, fun k => ?_, ?_⟩
  · rw [hidx, writeRun, hlens, hlenIdx]
    exact fillLens_getD _ _ _ _ _ (by omega)
  · rw [onlyField, hready, ← hi] at honly
    rw [honly]
    rfl

/-- Settles O28: the run is checked after its extra bits and before any entry is written. -/
theorem repeatOverflow : Obligations.RepeatOverflow := by
  intro s i base n hmem hprev hi hu hover
  obtain ⟨v, hv⟩ : ∃ v, (i, base, n, v) ∈ s.repeats := by simpa [State.repeats, exists_or] using hmem
  obtain ⟨hexec, hn⟩ := exec_repeat hv hprev
  obtain ⟨u, hrest, honly, -, hrun⟩ := repeatRun_of_unread base v hi hn hu
  rw [if_pos hover] at hrun
  exact ⟨_, hexec.trans hrun, rfl, rfl, malformedInfo_eq_ofNat 2 s.lenIdx, hrest, by rw [honly]; rfl,
    by rw [honly]; rfl⟩

/-- Settles O27: without a previous length CL_REP16 raises before it reads (R193). -/
theorem repeatWithoutPrevious : Obligations.RepeatWithoutPrevious := by
  intro s hidx
  have hexec : exec .clRep16 s = .next (raise .malformedDynamicCodeTable (malformedInfo 1 s.lenIdx) s) := if_pos hidx
  have hinfo : malformedInfo 1 s.lenIdx = 0x00010000 := by rw [hidx]; rfl
  rw [hexec, hinfo]
  rfl

/-! ## The end of the coded lengths, and the split -/

/-- An entry of an array given slot by slot. -/
theorem getD_map_range {α : Type} (f : Nat → α) (d : α) {n k : Nat} (hk : k < n) :
    ((List.range n).map f).getD k d = f k := by
  simp [List.getD_eq_getElem?_getD, hk]

/-- The literal/length lengths after the split (R197). -/
theorem splitLens_llLen_getD (s : State) {k : Nat} (hk : k < 288) :
    (splitLens s).llLen.getD k 0 = if k < s.hlit.toNat then s.lens.getD k 0 else 0 :=
  getD_map_range _ 0 hk

/-- The distance lengths after the split (R197). -/
theorem splitLens_dLen_getD (s : State) {k : Nat} (hk : k < 32) :
    (splitLens s).dLen.getD k 0 = if k < s.hdist.toNat then s.lens.getD (s.hlit.toNat + k) 0 else 0 :=
  getD_map_range _ 0 hk

/-- The split fills all 288 and all 32 slots. -/
theorem splitLens_lengths (s : State) : (splitLens s).llLen.length = 288 ∧ (splitLens s).dLen.length = 32 := by
  simp [splitLens, Config.nLitLen, Config.nDist]

/-- Settles O29: at `hlit + hdist` the loop ends without a decode, and the split is `splitLens`. -/
theorem splitSelectsTables : Obligations.SplitSelectsTables := by
  intro s hr hs
  refine ⟨fun hp hend => ?_, fun hp => ?_⟩ <;> rw [step_dynHdr hr hs hp nofun, workDynHdr]
  · exact if_neg (by omega)
  · exact ⟨_, rfl, rfl, rfl, (splitLens_lengths s).1, (splitLens_lengths s).2, fun _ => splitLens_llLen_getD s,
      fun _ => splitLens_dLen_getD s, rfl⟩

/-! ## The data of a stored block -/

/-- Settles O22: the op word is that of Literal(b), which decodes to OP_LITERAL (log 11). -/
theorem storedDataLoop : Obligations.StoredDataLoop := by
  intro s b rest hr hs hp
  rw [step_stored hr hs hp nofun, workStored]
  refine ⟨fun hrem => if_pos hrem, fun hrem hin => ⟨opLiteralWord b, decodeOp_opLiteralWord b, ?_⟩⟩
  rw [if_neg hrem]
  exact finish_readRawByte_of_input _ hin

end Sys2Proof.Machine
end

section
/-! PROOF. A step at an instruction's position, and the literal/length and distance symbols that need no extra bits. -/

namespace Sys2Proof.Machine

/-! ## The word at each position, decoded -/

theorem decode_litLenSym_setWidth (w : BitVec 9) : decode .litLenSym (w.setWidth 25) = decodeLitLen w :=
  congrArg decodeLitLen (setWidth_25_setWidth w (by decide))

theorem decode_distSym_setWidth (w : BitVec 5) : decode .distSym (w.setWidth 25) = decodeDist w :=
  congrArg decodeDist (setWidth_25_setWidth w (by decide))

theorem decode_clSym_setWidth (w : BitVec 5) : decode .clSym (w.setWidth 25) = decodeCodeLen w :=
  congrArg decodeCodeLen (setWidth_25_setWidth w (by decide))

/-- Settles O5: at each of the six positions the word fetched decodes as the register or op word that holds it. -/
theorem stepRunsDecoded : Obligations.StepRunsDecoded := by
  intro s i hr hs
  refine ⟨fun hp hd => ?_, fun hp hd => ?_, fun hp hd => ?_, fun c hp hd => ?_, fun w hp hd => ?_, fun w hp hd => ?_⟩
  · exact step_of_decode hr hs (by rw [fetch, hp]; rfl) ((decode_blockHdr_setWidth _).trans hd)
  · exact step_of_decode hr hs (by rw [fetch, hp]) ((decode_litLenSym_setWidth _).trans hd)
  · exact step_of_decode hr hs (by rw [fetch, hp]) ((decode_distSym_setWidth _).trans hd)
  · exact step_of_decode hr hs (by rw [fetch, hp]) ((decode_clSym_setWidth _).trans hd)
  · exact step_of_decode (f := .windowOp) hr hs (by rw [fetch, hp]) hd
  · exact step_of_decode (f := .windowOp) hr hs (by rw [fetch, hp]) hd

/-! ## Literals, the end of a block, the invalid symbols -/

/-- Settles O30: LIT is a PUT that the host accepts, then the next symbol. -/
theorem literalEmits : Obligations.LiteralEmits := by
  intro s b hw hr
  rw [exec_lit, put_accepted b _ hw hr]
  rfl

/-- Settles O34: `WINDOW(EndOfBlock)` is the state as it is (R321), so only the position changes. -/
theorem endOfBlock : Obligations.EndOfBlock :=
  fun _ => ⟨rfl, rfl⟩

/-- Settles O39: each of the four is one `raise`, with the symbol as its constant (R375, R376, log 14). -/
theorem invalidSymbols : Obligations.InvalidSymbols :=
  fun _ => ⟨rfl, rfl, rfl, rfl⟩

/-! ## Lengths and distances without extra bits -/

/-- Settles O35: the instruction of each row runs as `lengthExact` of the row's length. -/
theorem lengthsWithoutExtraBits : Obligations.LengthsWithoutExtraBits := by
  intro i length hrow s
  have hexec : exec i s = lengthExact length s := by
    obtain ⟨k, hk, hrow⟩ := List.getElem_of_mem hrow
    change k < 9 at hk
    interval_cases k <;> (cases hrow; rfl)
  exact hexec

/-- A distance that fits its register is handed on as it is (R298). -/
theorem setDistance_of_lt {d : Nat} (hd : d < 2 ^ 16) (s : State) :
    setDistance d s =
      { s with curDist := BitVec.ofNat 16 d, fsm := .huffSym (.op (opBackrefWord s.curLen.toNat d)) } := by
  rw [setDistance, BitVec.toNat_ofNat, Nat.mod_eq_of_lt hd]

/-- Settles O37: the instruction of each row runs as `distanceExact` of the row's distance, which fits its register. -/
theorem distancesWithoutExtraBits : Obligations.DistancesWithoutExtraBits := by
  intro i distance hrow s
  obtain ⟨hexec, hlt⟩ : exec i s = distanceExact distance s ∧ distance < 2 ^ 16 := by
    obtain ⟨k, hk, hrow⟩ := List.getElem_of_mem hrow
    change k < 4 at hk
    interval_cases k <;> (cases hrow; exact ⟨rfl, by decide⟩)
  rw [hexec, distanceExact, setDistance_of_lt hlt]

end Sys2Proof.Machine
end

section
/-! PROOF. The length and distance symbols with extra bits: base plus field (R233, R265). -/

namespace Sys2Proof.Machine

/-! ## Lengths -/

theorem setLength_curLen_toNat {l : Nat} (hl : l < 2 ^ 9) (s : State) : (setLength l s).curLen.toNat = l := by
  simpa using hl

theorem lenExtra_le {v : Nat} (h : v ≤ 284) : lenExtra v ≤ 5 := by
  unfold lenExtra
  split <;> omega

/-- Settles O36: row `k` of the table is that of symbol `265 + k`, whose meaning has the formulas' base and bit count
(O40); base and field together are at most 258. -/
theorem lengthsWithExtraBits : Obligations.LengthsWithExtraBits := by
  intro i base n hrow s hr hu
  obtain ⟨v, h₁, h₂, hdec, rfl, rfl⟩ : ∃ v, 265 ≤ v ∧ v ≤ 284 ∧ decode .litLenSym (BitVec.ofNat 25 v) = .ok i ∧
      base = lenBase v ∧ n = lenExtra v := by
    obtain ⟨k, hk, hrow⟩ := List.getElem_of_mem hrow
    change k < 20 at hk
    refine ⟨265 + k, by omega, by omega, ?_⟩
    interval_cases k <;> (cases hrow; exact ⟨rfl, rfl, rfl⟩)
  obtain ⟨-, -, -, -, -, -, -, -, -, hextra, -⟩ := symbolFormulas
  obtain ⟨-, hmax⟩ := lenBase_range (v := v) (by omega) (by omega)
  have hfield := fieldValue_take_lt hu
  obtain ⟨t, ht, hrest, hframe⟩ :=
    readBits_next (fun x => setLength (lenBase v + x)) hr ((lenExtra_le h₂).trans (by decide)) hu
  exact ⟨_, (hextra v h₁ h₂ i hdec s).trans ht, setLength_curLen_toNat (by omega) t, rfl, hrest,
    by rw [hframe]; rfl⟩

/-! ## Distances -/

theorem distExtra_le {d : Nat} (h : d ≤ 29) : distExtra d ≤ 13 := by
  unfold distExtra
  split <;> omega

/-- The distances of the symbols without and with extra bits are 1 to 32768 (R265). -/
theorem distBase_range {d : Nat} (h : d ≤ 29) : 1 ≤ distBase d ∧ distBase d + 2 ^ distExtra d ≤ 32769 := by
  interval_cases d <;> decide

/-- Settles O38: row `k` of the table is that of symbol `4 + k`, whose meaning has the formulas' base and bit count
(O40); base and field together are at most 32768, so the op word holds the distance (R107). -/
theorem distancesWithExtraBits : Obligations.DistancesWithExtraBits := by
  intro i base n hrow s hr hu h3 h258
  obtain ⟨d, h₁, h₂, hdec, rfl, rfl⟩ : ∃ d, 4 ≤ d ∧ d ≤ 29 ∧ decode .distSym (BitVec.ofNat 25 d) = .ok i ∧
      base = distBase d ∧ n = distExtra d := by
    obtain ⟨k, hk, hrow⟩ := List.getElem_of_mem hrow
    change k < 26 at hk
    refine ⟨4 + k, by omega, by omega, ?_⟩
    interval_cases k <;> (cases hrow; exact ⟨rfl, rfl, rfl⟩)
  obtain ⟨-, -, -, -, -, -, -, -, -, -, -, hextra⟩ := symbolFormulas
  obtain ⟨hmin, hmax⟩ := distBase_range h₂
  have hfield := fieldValue_take_lt hu
  obtain ⟨t, ht, hrest, hframe⟩ :=
    readBits_next (fun x => setDistance (distBase d + x)) hr ((distExtra_le h₂).trans (by decide)) hu
  have hlen : t.curLen = s.curLen := by rw [hframe]
  have hdist : distBase d + fieldValue (s.unread.take (distExtra d)) < 2 ^ 16 := by omega
  rw [setDistance_of_lt hdist, hlen] at ht
  have hcur := (BitVec.toNat_ofNat _ 16).trans (Nat.mod_eq_of_lt hdist)
  refine ⟨_, _, (hextra d h₁ h₂ i hdec s).trans ht, hcur, rfl, ?_, hrest, by rw [hframe]⟩
  rw [hcur]
  exact decodeOp_opBackrefWord ⟨h3, h258⟩ ⟨by omega, by omega⟩

end Sys2Proof.Machine
end

section
/-! PROOF. The Window Reconstructor: OP_LITERAL, the distance check, and one byte of a copy. -/

namespace Sys2Proof.Machine

/-! ## OP_LITERAL (R320) -/

/-- After its literal a stored block's loop counts the byte (R181). -/
theorem literalReturn_of_stored {s : State} (h : s.fsm.name = .stored) :
    literalReturn s = { s with storedRem := s.storedRem - 1, fsm := .stored .data } := by
  cases hp : s.fsm <;> rw [hp] at h
  case stored p => rw [literalReturn, hp]
  all_goals cases h

/-- After a literal anywhere else the next data symbol follows (R231). -/
theorem literalReturn_of_not_stored {s : State} (h : s.fsm.name ≠ .stored) :
    literalReturn s = { s with fsm := .huffSym .symbol } := by
  unfold literalReturn
  split
  · next hp => exact absurd (congrArg Fsm.name hp) h
  · rfl

/-- Settles O31: a PUT that the host accepts, then the return of its position. -/
theorem opLiteralEmits : Obligations.OpLiteralEmits := by
  intro s b hw hr
  rw [exec_opLiteral, put_accepted b _ hw hr]
  refine ⟨_, rfl, ?_⟩
  have hname : (advance (emit b (memWrite s.wp.toNat b s))).fsm.name = s.fsm.name := rfl
  by_cases h : s.fsm.name = .stored
  · rw [literalReturn_of_stored (hname.trans h)]
    exact ⟨fun _ => ⟨rfl, rfl⟩, absurd h, rfl⟩
  · rw [literalReturn_of_not_stored (hname ▸ h)]
    exact ⟨(absurd · h), fun _ => ⟨rfl, rfl⟩, rfl⟩

/-! ## The distance check (R322) -/

/-- The diagnostic value as a number: the length stands above the 16 bits of the distance (R371, R379). -/
theorem distanceInfo_eq_ofNat {l d : Nat} (hl : l < 2 ^ 16) (hd : d < 2 ^ 16) :
    distanceInfo l d = BitVec.ofNat 32 (l * 2 ^ 16 + d) := by
  apply BitVec.eq_of_toNat_eq
  rw [distanceInfo, BitVec.toNat_append, BitVec.toNat_ofNat, BitVec.toNat_ofNat, Nat.mod_eq_of_lt hl,
    Nat.mod_eq_of_lt hd, Nat.shiftLeft_eq, mul_comm, ← Nat.two_pow_add_eq_or_of_lt hd, BitVec.toNat_ofNat]
  omega

/-- OP_BACKREF is the distance check (R322). -/
theorem exec_opBackref (l d : Nat) (s : State) : exec (.opBackref l d) s = .next (windowBackref l d s) := rfl

/-- Settles O41: by the two outcomes of the distance check. -/
theorem backReferenceCheck : Obligations.BackReferenceCheck := by
  intro s l d _ hl _ hd
  rw [exec_opBackref]
  rcases windowBackref_cases l d s with ⟨hfar, h⟩ | ⟨hnear, h⟩ <;> rw [h]
  · rw [distanceInfo_eq_ofNat (by omega) (by omega)]
    exact ⟨fun hle => absurd hle (by omega), fun _ => rfl⟩
  · exact ⟨fun _ => rfl, fun hlt => absurd hnear (by omega)⟩

/-! ## One byte of a copy (R323) -/

/-- While bytes are left, the byte `cur_dist` back in the history is put. -/
theorem workCopy_of_read {s : State} {b : Byte} (hrem : s.copyRem ≠ 0)
    (hb : s.hist.read (s.histIndex s.curDist.toNat) = some b) : workCopy s = put b copyReturn s := by
  rw [workCopy, if_neg hrem, hb]

theorem step_copy {s : State} (hr : s.rst = false) (hs : s.start = false) (hp : s.fsm = .copy) :
    step s = workCopy s := by
  rw [step_of_work hr hs (by rw [fetch, hp]), work, hp]

/-- Settles O42: the step is a PUT of the byte, accepted or held. -/
theorem copyOneByte : Obligations.CopyOneByte := by
  intro s b hr hs hp hrem hw hb
  rw [step_copy hr hs hp, workCopy_of_read hrem hb]
  exact ⟨put_accepted b _ hw, put_held b _ hw⟩

end Sys2Proof.Machine
end

section
/-! PROOF. The whole copy: what it reads, and that it repeats the last `cur_dist` bytes (R327, R331). -/

namespace Sys2Proof.Machine

/-! ## The byte a copy reads -/

/-- In a copy bytes are left, and the distance is positive and within `filled`, hence within the output (R325). -/
theorem copy_ranges {s : State} (h : s.Inv) (hp : s.fsm = .copy) :
    s.copyRem ≠ 0 ∧ 1 ≤ s.curDist.toNat ∧ s.curDist.toNat ≤ s.filled.toNat ∧ s.curDist.toNat ≤ s.output.length := by
  have hpos := h.position
  rw [State.positionOk, hp] at hpos
  obtain ⟨hd, hle, hrem, -⟩ := hpos
  have hlen := filled_of_inStream h (by rw [hp]; nofun)
  exact ⟨by bv_omega, hd, hle, by omega⟩

/-- The history holds the byte a copy reads (R331), and it is the byte `cur_dist` back in the output. While an `Emit` is
held at the distance of the whole window, it is the held byte, which stands at `wp`. -/
theorem copy_byte {s : State} (h : s.Inv) (hp : s.fsm = .copy) :
    ∃ b, s.hist.read (s.histIndex s.curDist.toNat) = some b ∧
      s.output[s.output.length - s.curDist.toNat]? = some b := by
  obtain ⟨-, hd, hle, hlen⟩ := copy_ranges h hp
  obtain ⟨b, hb⟩ : ∃ b, s.hist.read (s.histIndex s.curDist.toNat) = some b := by
    by_cases hheld : s.outValid = true → s.curDist.toNat < s.windowSize
    · exact ⟨_, (h.history _ hd hle hheld).trans (List.getElem?_eq_getElem (by omega))⟩
    · obtain ⟨hv, hge⟩ := Classical.not_imp.1 hheld
      obtain ⟨hw, hfill⟩ := h.window
      obtain ⟨-, -, hwp, -⟩ := h.ports
      rw [(by omega : s.curDist.toNat = s.windowSize), histIndex_windowSize hw]
      exact ⟨_, hwp hv⟩
  exact ⟨b, hb, copy_byte_of_output h hp hb⟩

/-! ## The repetition -/

/-- `n` bytes that repeat the last `d` bytes of an output. -/
def repeatLast (out : List Byte) (d n : Nat) : List Byte :=
  (List.range n).map fun i => out.getD (out.length - d + i % d) 0

/-- The repetition byte by byte: the byte `d` back, then the repetition over the output that has this byte already. -/
theorem repeatLast_succ {out : List Byte} {d : Nat} {b : Byte} (h1 : 1 ≤ d) (hd : d ≤ out.length)
    (hb : out[out.length - d]? = some b) (n : Nat) :
    repeatLast out d (n + 1) = b :: repeatLast (out ++ [b]) d n := by
  rw [repeatLast, List.range_succ_eq_map, List.map_cons, List.map_map]
  congr 1
  · simp [hb]
  · refine List.map_congr_left fun i _ => ?_
    have hlt := Nat.mod_lt i h1
    simp only [Function.comp, Nat.succ_eq_add_one, ← Nat.mod_add_mod i d 1, List.getD_eq_getElem?_getD,
      List.length_append, List.length_singleton]
    rcases (by omega : i % d + 1 < d ∨ i % d + 1 = d) with hin | hwrap
    · rw [Nat.mod_eq_of_lt hin, List.getElem?_append_left (by omega)]
      congr 2
      omega
    · rw [hwrap, Nat.mod_self, Nat.add_zero, hb, (by omega : out.length + 1 - d + i % d = out.length),
        List.getElem?_concat_length]

/-! ## The copy as a run -/

/-- A run whose first step has a next state is that step, then the run from there. -/
theorem core_run_succ {M : Host.Core} {s t : M.State} (h : M.step s = .next t) (n : Nat) :
    M.run (n + 1) s = M.run n t := by
  rw [Host.Core.run, h]

/-- A copy that is to put `n` more bytes, the host accepting: it is over when `n` is 0. -/
structure State.Copying (s : State) (n : Nat) : Prop where
  inv : s.Inv
  rst : s.rst = false
  start : s.start = false
  outReady : s.outReady = true
  copyRem : s.copyRem.toNat = n
  fsm : s.fsm = if n = 0 then .huffSym .symbol else .copy

/-- One step of a copy: the byte `cur_dist` back in the output is emitted, and one byte less is left. -/
theorem State.Copying.step_emits {s : State} {n : Nat} (h : s.Copying (n + 1)) :
    ∃ b t, step s = .next t ∧ t.Copying n ∧ t.curDist = s.curDist ∧ t.output = s.output ++ [b] ∧
      s.output[s.output.length - s.curDist.toNat]? = some b := by
  obtain ⟨hinv, hr, hs, hready, hcount, hp⟩ := h
  obtain ⟨hrem, -⟩ := copy_ranges hinv hp
  obtain ⟨b, hb, hout⟩ := copy_byte hinv hp
  have hstep := (step_copy hr hs hp).trans (workCopy_of_read hrem hb)
  rw [put_accepted b _ hinv.window.1 hready] at hstep
  have hlast : s.copyRem = 1 ↔ n = 0 := by bv_omega
  refine ⟨b, _, hstep, ?_, rfl, rfl, hout⟩
  exact {
    inv := invariantKept s _ hinv hstep
    rst := hr
    start := hs
    outReady := hready
    copyRem := show (s.copyRem - 1).toNat = n by bv_omega
    fsm := if_congr hlast rfl rfl }

/-- The whole copy emits the repetition of the last `cur_dist` bytes. -/
theorem State.Copying.run_emits {n : Nat} : ∀ {s : State}, s.Copying n →
    ∃ t, core.run n s = .next t ∧ t.fsm = .huffSym .symbol ∧
      t.output = s.output ++ repeatLast s.output s.curDist.toNat n := by
  induction n with
  | zero => exact fun {s} h => ⟨s, rfl, h.fsm, (List.append_nil _).symm⟩
  | succ n ih =>
    intro s h
    obtain ⟨-, hd, -, hlen⟩ := copy_ranges h.inv h.fsm
    obtain ⟨b, u, hstep, hu, hdist, hemit, hb⟩ := h.step_emits
    obtain ⟨t, hrun, hend, hout⟩ := ih hu
    refine ⟨t, (core_run_succ (M := core) hstep n).trans hrun, hend, ?_⟩
    rw [hout, hdist, hemit, repeatLast_succ hd hlen hb, List.append_assoc, List.singleton_append]

/-- Settles O43: a core in COPY is copying its `copy_rem` bytes, which are not 0. -/
theorem copyRepeatsLastBytes : Obligations.CopyRepeatsLastBytes := by
  intro s h hr hs hp hready
  obtain ⟨hrem, -⟩ := copy_ranges h hp
  have hcount : s.copyRem.toNat ≠ 0 := by bv_omega
  exact State.Copying.run_emits ⟨h, hr, hs, hready, rfl, hp.trans (if_neg hcount).symm⟩

end Sys2Proof.Machine
end

section
/-! PROOF. From the invariant every step has a next state: no fault, and no word without an instruction. -/

namespace Sys2Proof.Machine

/-- The answer of a step is a next state. -/
def Continues (r : Result State) : Prop := ∃ t, r = .next t

/-! ## The instructions -/

/-- With `wp` inside the window PUT does not fault, held or not (R353). -/
theorem put_continues {s : State} (hw : s.wp.toNat < s.windowSize) (b : Byte) (k : State → State) :
    Continues (put b k s) := by
  rcases put_cases b k s with ⟨-, -, h⟩ | ⟨-, -, h⟩ | ⟨hout, -⟩
  · exact ⟨_, h⟩
  · exact ⟨_, h⟩
  · exact absurd hw hout

/-- A hold and an error of a read are next states, so the step is one when what follows the read is. -/
theorem finish_continues {α : Type} (f : Flow α) {k : α → State → Result State} (hk : ∀ a t, Continues (k a t)) :
    Continues (f.finish k) := by
  cases f with
  | done a t => exact hk a t
  | hold t | failed t => exact ⟨t, rfl⟩

/-- A read that is followed by one update of the state. -/
theorem finish_next_continues {α : Type} (f : Flow α) (g : α → State → State) :
    Continues (f.finish fun a t => .next (g a t)) :=
  finish_continues f fun _ _ => ⟨_, rfl⟩

theorem repeatRun_continues (base n : Nat) (v : BitVec 4) (s : State) : Continues (repeatRun base n v s) :=
  finish_continues _ fun _ _ => by split <;> exact ⟨_, rfl⟩

/-- With `wp` inside the window every instruction runs. -/
theorem Meaning.continues {m : State → Result State} (hm : Meaning m) {s : State} (hw : s.wp.toNat < s.windowSize) :
    Continues (m s) := by
  cases hm with
  | lit b =>
    unfold execLit windowLiteral
    exact put_continues hw b _
  | opLiteral b => exact put_continues hw b _
  | lengthExtra base n => exact finish_next_continues _ _
  | distanceExtra base n => exact finish_next_continues _ _
  | zeroRun base n => exact repeatRun_continues base n 0 s
  | clRep16 =>
    unfold execClRep16
    split
    · exact ⟨_, rfl⟩
    · exact repeatRun_continues _ _ _ s
  | blockStored | blockFixed | blockDynamic | blockReserved | endOfBlock | lengthExact | invalidLength | distanceExact
    | invalidDistance | clLen | opBackref => exact ⟨_, rfl⟩

/-! ## The words at the positions -/

/-- An op word whose tag is not `11` is an instruction (R107). -/
theorem decode_windowOp_ok {w : BitVec 25} (htag : w.extractLsb' 0 2 ≠ 3) : ∃ i, decode .windowOp w = .ok i := by
  have hval : (w.extractLsb' 0 2).toNat = w.toNat % 4 := BitVec.extractLsb'_toNat 0 2 w
  rcases decodeOp_answer w with ⟨h3, -⟩ | ⟨-, i, hd, -⟩
  · have htag3 : w.extractLsb' 0 2 = 3 := BitVec.eq_of_toNat_eq (hval.trans h3)
    exact absurd htag3 htag
  · exact ⟨i, hd⟩

/-- Under the invariant the word that stands for execution is that of an instruction. -/
theorem decode_fetch_ok {s : State} {f : Format} {w : BitVec 25} (h : s.Inv) (hf : fetch s = some (f, w)) :
    ∃ i, decode f w = .ok i := by
  unfold fetch at hf
  cases hp : s.fsm <;> rw [hp] at hf
  case blockHdr p =>
    cases p with
    | dispatch =>
      cases hf
      obtain ⟨i, hd, -⟩ := decodeBlockHdr_answer (blockHdrWord s.btype s.bfinal)
      exact ⟨i, (decode_blockHdr_setWidth _).trans hd⟩
    | final | type => cases hf
  case stored p =>
    cases p with
    | op =>
      cases hf
      obtain ⟨htag, -⟩ := h.positionAt hp
      exact decode_windowOp_ok (by rw [htag]; decide)
    | align | lenLo | lenHi | nlenLo | nlenHi | check | data => cases hf
  case dynHdr p =>
    cases p with
    | execCl c =>
      cases hf
      obtain ⟨-, -, -, -, -, h18⟩ := h.positionAt hp
      rcases decodeCodeLen_answer c with ⟨hgt, -⟩ | ⟨-, i, hd, -⟩
      · exact absurd h18 hgt.not_ge
      · exact ⟨i, (decode_clSym_setWidth _).trans hd⟩
    | hlit | hdist | hclen | clLen | symbol | split => cases hf
  case huffSym p =>
    cases p with
    | execSym =>
      cases hf
      have h287 : s.curSym.toNat ≤ 287 := h.positionAt hp
      rcases decodeLitLen_answer s.curSym with ⟨hgt, -⟩ | ⟨-, i, hd, -⟩
      · exact absurd h287 hgt.not_ge
      · exact ⟨i, (decode_litLenSym_setWidth _).trans hd⟩
    | execDist =>
      cases hf
      obtain ⟨i, hd, -⟩ := decodeDist_answer s.curDsym
      exact ⟨i, (decode_distSym_setWidth _).trans hd⟩
    | op => cases hf; exact decode_windowOp_ok (h.positionAt hp)
    | symbol | dist => cases hf
  case idle | copy | blockEnd | done | error => cases hf

/-! ## The work between instructions -/

theorem workBlockHdr_continues (p : HdrPos) (s : State) : Continues (workBlockHdr p s) := by
  cases p with
  | final | type => exact finish_next_continues _ _
  | dispatch => exact ⟨s, rfl⟩

theorem workStored_continues (p : StoredPos) (s : State) : Continues (workStored p s) := by
  cases p with
  | lenLo | lenHi | nlenLo | nlenHi => exact finish_next_continues _ _
  | check => simp only [workStored]; split <;> exact ⟨_, rfl⟩
  | data =>
    simp only [workStored]
    split
    · exact ⟨_, rfl⟩
    · exact finish_next_continues _ _
  | align | op => exact ⟨_, rfl⟩

theorem workDynHdr_continues (p : DynPos) (s : State) : Continues (workDynHdr p s) := by
  cases p with
  | hlit | hdist | hclen => exact finish_next_continues _ _
  | clLen | symbol =>
    simp only [workDynHdr]
    split
    · exact finish_next_continues _ _
    · exact ⟨_, rfl⟩
  | execCl | split => exact ⟨_, rfl⟩

theorem workHuffSym_continues (p : HuffPos) (s : State) : Continues (workHuffSym p s) := by
  cases p with
  | symbol | dist => exact finish_next_continues _ _
  | execSym | execDist | op => exact ⟨s, rfl⟩

/-- The copy reads an index that was written (R331). -/
theorem workCopy_continues {s : State} (h : s.Inv) (hp : s.fsm = .copy) : Continues (workCopy s) := by
  obtain ⟨hrem, -⟩ := copy_ranges h hp
  obtain ⟨b, hb, -⟩ := copy_byte h hp
  rw [workCopy_of_read hrem hb]
  exact put_continues h.window.1 b _

theorem work_continues {s : State} (h : s.Inv) : Continues (work s) := by
  unfold work
  cases hp : s.fsm
  case blockHdr p => exact workBlockHdr_continues p s
  case stored p => exact workStored_continues p s
  case dynHdr p => exact workDynHdr_continues p s
  case huffSym p => exact workHuffSym_continues p s
  case copy => exact workCopy_continues h hp
  case idle | blockEnd | done | error => exact ⟨_, rfl⟩

/-! ## A step -/

theorem run_continues {s : State} (h : s.Inv) : Continues (run s) := by
  rcases run_cases s with ⟨f, w, i, -, -, hr⟩ | ⟨f, w, e, hf, herr, -⟩ | ⟨-, hr⟩
  · rw [hr]
    exact (exec_meaning i).continues h.window.1
  · obtain ⟨i, hd⟩ := decode_fetch_ok h hf
    exact absurd (herr.symm.trans hd) nofun
  · rw [hr]
    exact work_continues h

/-- Settles O53: the two events have a next state, and so has a run under the invariant. -/
theorem neverStops : Obligations.NeverStops := by
  intro s h
  rcases step_cases s with ⟨-, hs⟩ | ⟨-, -, -, hs⟩ | ⟨-, -, hs⟩
  · exact ⟨_, hs⟩
  · exact ⟨_, hs⟩
  · obtain ⟨t, ht⟩ := run_continues (dropStart_inv h)
    exact ⟨t, hs.trans ht⟩

end Sys2Proof.Machine
end

section
/-! PROOF. The block state machine: the transitions of R340, and what a stored block leaves alone. -/

namespace Sys2Proof.Machine

/-! ## A read and what follows it -/

/-- Everything a read and what follows it can come to, when the answer is a next state: the read is done and the step
goes on, or it holds, or it has raised an error. -/
theorem finish_cases {α : Type} {f : Flow α} {P : α → Prop} {k : α → State → Result State} {s t : State}
    (hends : ReadEnds s P f) (ht : f.finish k = .next t) :
    (∃ a u, P a ∧ onlyRead s u ∧ k a u = .next t) ∨ onlyRead s t ∨ (∃ e info u, onlyRead s u ∧ t = raise e info u) := by
  cases hends with
  | done ha hf hi hr => exact .inl ⟨_, _, ha, hf, ht⟩
  | hold hf hr => cases ht; exact .inr (.inl hf)
  | failed e info hf hr => cases ht; exact .inr (.inr ⟨e, info, _, hf, rfl⟩)

/-! ## The transitions (R340) -/

/-- From a state named `n` a step may lead to one named `m`: the same, or along a transition that is listed. -/
def Transition (n m : FsmName) : Prop := m = n ∨ allowedTransition n m = true

/-- A read stays or ends in ERROR, so the step makes a listed transition when what follows the read does. -/
theorem finish_transition {α : Type} {f : Flow α} {P : α → Prop} {k : α → State → Result State} {s t : State}
    {n : FsmName} (hn : s.fsm.name = n) (herror : allowedTransition n .error = true) (hends : ReadEnds s P f)
    (hk : ∀ a u, k a u = .next t → Transition n t.fsm.name) (ht : f.finish k = .next t) : Transition n t.fsm.name := by
  rcases finish_cases hends ht with ⟨a, u, -, -, hu⟩ | hf | ⟨e, info, u, -, rfl⟩
  · exact hk a u hu
  · exact .inl (by rw [onlyRead_fsm hf, hn])
  · exact .inr herror

/-- A read that is followed by one update of the state. -/
theorem finish_next_transition {α : Type} {f : Flow α} {P : α → Prop} {g : α → State → State} {s t : State}
    {n : FsmName} (hn : s.fsm.name = n) (herror : allowedTransition n .error = true) (hends : ReadEnds s P f)
    (hg : ∀ a u, Transition n (g a u).fsm.name) (ht : f.finish (fun a u => .next (g a u)) = .next t) :
    Transition n t.fsm.name :=
  finish_transition hn herror hends (fun a u hu => by cases hu; exact hg a u) ht

/-- A held PUT stays, so the step makes a listed transition when what follows the PUT does. -/
theorem put_transition {b : Byte} {k : State → State} {s t : State} {n : FsmName} (hn : s.fsm.name = n)
    (hk : ∀ u, u.fsm = s.fsm → Transition n (k u).fsm.name) (ht : put b k s = .next t) : Transition n t.fsm.name := by
  rcases put_cases b k s with ⟨-, -, h⟩ | ⟨-, -, h⟩ | ⟨-, h⟩ <;> rw [h] at ht <;> cases ht
  · exact hk _ rfl
  · exact .inl hn

/-! ### The instructions, by the format of the word -/

theorem exec_blockHdr_transition {w : BitVec 25} {i : Instr} {s t : State} (hd : decode .blockHdr w = .ok i)
    (ht : exec i s = .next t) : Transition .blockHdr t.fsm.name := by
  obtain ⟨final, rfl | rfl | rfl | rfl⟩ := decode_blockHdr_cases hd <;> cases ht <;> exact .inr rfl

theorem repeatRun_transition {base n : Nat} {v : BitVec 4} {s t : State} (hp : s.fsm.name = .dynHdr)
    (ht : repeatRun base n v s = .next t) : Transition .dynHdr t.fsm.name := by
  refine finish_transition hp rfl (readBits_ends n s) (fun x u hu => ?_) ht
  split at hu <;> cases hu
  · exact .inr rfl
  · exact .inl rfl

theorem exec_clSym_transition {c : BitVec 5} {i : Instr} {s t : State} (hp : s.fsm.name = .dynHdr)
    (hd : decode .clSym (c.setWidth 25) = .ok i) (ht : exec i s = .next t) : Transition .dynHdr t.fsm.name := by
  rcases decode_clSym_cases hd with ⟨-, v, rfl⟩ | ⟨-, rfl⟩ | ⟨-, rfl⟩ | ⟨-, rfl⟩
  · cases ht; exact .inl rfl
  · change execClRep16 s = .next t at ht
    rw [execClRep16] at ht
    split at ht
    · cases ht; exact .inr rfl
    · exact repeatRun_transition hp ht
  · exact repeatRun_transition hp ht
  · exact repeatRun_transition hp ht

theorem exec_litLenSym_transition {v : BitVec 9} {i : Instr} {s t : State} (hp : s.fsm.name = .huffSym)
    (hd : decode .litLenSym (v.setWidth 25) = .ok i) (ht : exec i s = .next t) : Transition .huffSym t.fsm.name := by
  rcases exec_litLenSym_cases hd with ⟨-, b, rfl⟩ | ⟨-, rfl⟩ | ⟨-, -, hi⟩ | ⟨-, -, hi⟩ | ⟨-, info, hi⟩
  · rw [exec_lit] at ht
    exact put_transition hp (fun _ _ => .inl rfl) ht
  · cases ht; exact .inr rfl
  · rw [hi] at ht; cases ht; exact .inl rfl
  · rw [hi] at ht
    exact finish_next_transition hp rfl (readBits_ends _ s) (fun _ _ => .inl rfl) ht
  · rw [hi] at ht; cases ht; exact .inr rfl

theorem exec_distSym_transition {v : BitVec 5} {i : Instr} {s t : State} (hp : s.fsm.name = .huffSym)
    (hd : decode .distSym (v.setWidth 25) = .ok i) (ht : exec i s = .next t) : Transition .huffSym t.fsm.name := by
  rcases exec_distSym_cases hd with ⟨-, hi⟩ | ⟨-, -, hi⟩ | ⟨-, info, hi⟩ <;> rw [hi] at ht
  · cases ht; exact .inl rfl
  · exact finish_next_transition hp rfl (readBits_ends _ s) (fun _ _ => .inl rfl) ht
  · cases ht; exact .inr rfl

/-- In a stored block the op word is a literal (tag `00`), after which the block's loop goes on. -/
theorem exec_windowOp_stored_transition {w : BitVec 25} {i : Instr} {s t : State} (hp : s.fsm = .stored (.op w))
    (htag : w.extractLsb' 0 2 = 0) (hd : decode .windowOp w = .ok i) (ht : exec i s = .next t) :
    Transition .stored t.fsm.name := by
  rcases decode_windowOp_cases hd with ⟨-, b, rfl⟩ | ⟨h1, -⟩ | ⟨h2, -⟩
  · refine put_transition (congrArg Fsm.name hp) (fun u hu => ?_) ht
    rw [literalReturn_of_stored (by rw [hu, hp]; rfl)]
    exact .inl rfl
  · exact absurd (htag.symm.trans h1) (by decide)
  · exact absurd (htag.symm.trans h2) (by decide)

theorem exec_windowOp_huffSym_transition {w : BitVec 25} {i : Instr} {s t : State} (hp : s.fsm.name = .huffSym)
    (hd : decode .windowOp w = .ok i) (ht : exec i s = .next t) : Transition .huffSym t.fsm.name := by
  rcases decode_windowOp_cases hd with ⟨-, b, rfl⟩ | ⟨-, rfl⟩ | ⟨-, l, d, rfl, -⟩
  · refine put_transition hp (fun u hu => ?_) ht
    rw [literalReturn_of_not_stored (by rw [hu, hp]; nofun)]
    exact .inl rfl
  · cases ht; exact .inr rfl
  · cases ht
    rcases windowBackref_cases l d s with ⟨-, h⟩ | ⟨-, h⟩ <;> rw [h] <;> exact .inr rfl

/-- The instruction that stands at the core's position makes a listed transition. -/
theorem exec_transition {f : Format} {w : BitVec 25} {i : Instr} {s t : State} (h : s.Inv) (hf : fetch s = some (f, w))
    (hd : decode f w = .ok i) (ht : exec i s = .next t) : Transition s.fsm.name t.fsm.name := by
  unfold fetch at hf
  cases hp : s.fsm <;> rw [hp] at hf
  case blockHdr p =>
    cases p with
    | dispatch => cases hf; exact exec_blockHdr_transition hd ht
    | final | type => cases hf
  case stored p =>
    cases p with
    | op =>
      cases hf
      obtain ⟨htag, -⟩ := h.positionAt hp
      exact exec_windowOp_stored_transition hp htag hd ht
    | align | lenLo | lenHi | nlenLo | nlenHi | check | data => cases hf
  case dynHdr p =>
    cases p with
    | execCl => cases hf; exact exec_clSym_transition (congrArg Fsm.name hp) hd ht
    | hlit | hdist | hclen | clLen | symbol | split => cases hf
  case huffSym p =>
    cases p with
    | execSym => cases hf; exact exec_litLenSym_transition (congrArg Fsm.name hp) hd ht
    | execDist => cases hf; exact exec_distSym_transition (congrArg Fsm.name hp) hd ht
    | op => cases hf; exact exec_windowOp_huffSym_transition (congrArg Fsm.name hp) hd ht
    | symbol | dist => cases hf
  case idle | copy | blockEnd | done | error => cases hf

/-! ### The work between instructions -/

theorem workBlockHdr_transition {p : HdrPos} {s t : State} (hp : s.fsm.name = .blockHdr)
    (ht : workBlockHdr p s = .next t) : Transition .blockHdr t.fsm.name := by
  cases p with
  | final => exact finish_next_transition hp rfl (readBit_ends s) (fun _ _ => .inl rfl) ht
  | type => exact finish_next_transition hp rfl (readBits_ends 2 s) (fun _ _ => .inl rfl) ht
  | dispatch => cases ht; exact .inl hp

theorem workStored_transition {p : StoredPos} {s t : State} (hp : s.fsm.name = .stored)
    (ht : workStored p s = .next t) : Transition .stored t.fsm.name := by
  cases p with
  | align => cases ht; exact .inl rfl
  | lenLo | lenHi | nlenLo | nlenHi =>
    exact finish_next_transition hp rfl (readRawByte_ends s) (fun _ _ => .inl rfl) ht
  | check =>
    simp only [workStored] at ht
    split at ht <;> cases ht
    · exact .inr rfl
    · exact .inl rfl
  | data =>
    simp only [workStored] at ht
    split at ht
    · cases ht; exact .inr rfl
    · exact finish_next_transition hp rfl (readRawByte_ends s) (fun _ _ => .inl rfl) ht
  | op => cases ht; exact .inl hp

theorem workDynHdr_transition {p : DynPos} {s t : State} (hp : s.fsm.name = .dynHdr)
    (ht : workDynHdr p s = .next t) : Transition .dynHdr t.fsm.name := by
  cases p with
  | hlit | hdist | hclen => exact finish_next_transition hp rfl (readBits_ends _ s) (fun _ _ => .inl rfl) ht
  | clLen i =>
    simp only [workDynHdr] at ht
    split at ht
    · exact finish_next_transition hp rfl (readBits_ends 3 s) (fun _ _ => .inl rfl) ht
    · cases ht; exact .inl rfl
  | symbol =>
    simp only [workDynHdr] at ht
    split at ht
    · exact finish_next_transition hp rfl (decodeSymbol_ends _ _ _ s) (fun _ _ => .inl rfl) ht
    · cases ht; exact .inl rfl
  | execCl => cases ht; exact .inl hp
  | split => cases ht; exact .inr rfl

theorem workHuffSym_transition {p : HuffPos} {s t : State} (hp : s.fsm.name = .huffSym)
    (ht : workHuffSym p s = .next t) : Transition .huffSym t.fsm.name := by
  cases p with
  | symbol | dist => exact finish_next_transition hp rfl (decodeSymbol_ends _ _ _ s) (fun _ _ => .inl rfl) ht
  | execSym | execDist | op => cases ht; exact .inl hp

/-- After a byte of a copy the copy goes on, or the next data symbol follows (R323). -/
theorem copyReturn_transition (u : State) : Transition .copy (copyReturn u).fsm.name := by
  unfold copyReturn
  by_cases hlast : u.copyRem = 1
  · rw [if_pos hlast]; exact .inr rfl
  · rw [if_neg hlast]; exact .inl rfl

theorem workCopy_transition {s t : State} (hp : s.fsm.name = .copy) (ht : workCopy s = .next t) :
    Transition .copy t.fsm.name := by
  unfold workCopy at ht
  split at ht
  · cases ht; exact .inr rfl
  · split at ht
    · exact put_transition hp (fun u _ => copyReturn_transition u) ht
    · cases ht

theorem workBlockEnd_transition {s t : State} (ht : workBlockEnd s = .next t) : Transition .blockEnd t.fsm.name := by
  cases ht
  cases s.bfinal <;> exact .inr rfl

theorem work_transition {s t : State} (ht : work s = .next t) : Transition s.fsm.name t.fsm.name := by
  unfold work at ht
  cases hp : s.fsm <;> rw [hp] at ht
  case blockHdr => exact workBlockHdr_transition (congrArg Fsm.name hp) ht
  case stored => exact workStored_transition (congrArg Fsm.name hp) ht
  case dynHdr => exact workDynHdr_transition (congrArg Fsm.name hp) ht
  case huffSym => exact workHuffSym_transition (congrArg Fsm.name hp) ht
  case copy => exact workCopy_transition (congrArg Fsm.name hp) ht
  case blockEnd => exact workBlockEnd_transition ht
  case idle | done | error => cases ht; exact .inl (by rw [hp])

/-! ### A step -/

theorem run_transition {s t : State} (h : s.Inv) (ht : run s = .next t) : Transition s.fsm.name t.fsm.name := by
  rcases run_cases s with ⟨f, w, i, hf, hd, hr⟩ | ⟨f, w, e, -, -, hr⟩ | ⟨-, hr⟩ <;> rw [hr] at ht
  · exact exec_transition h hf hd ht
  · cases ht
  · exact work_transition ht

/-- Settles O54: without an effective event a step is a run, and every instruction and every line of work between
instructions makes a listed transition. -/
theorem onlyListedTransitions : Obligations.OnlyListedTransitions := by
  intro s t h hr hstart ht
  rw [step_of_no_event hr hstart] at ht
  exact run_transition (s := dropStart s) (dropStart_inv h) ht

/-! ## The tables over a stored block -/

/-- The table selection and the arrays that tables are built from (R35 to R37), with their index. -/
def State.tables (s : State) : Bool × List (BitVec 4) × List (BitVec 4) × List (BitVec 3) × List (BitVec 4) × BitVec 9 :=
  (s.tsel, s.llLen, s.dLen, s.clLen, s.lens, s.lenIdx)

theorem onlyRead_tables {s u : State} (h : onlyRead s u) : u.tables = s.tables := by rw [h]; rfl

/-- A read keeps the tables, so the step does when the update that follows the read does. -/
theorem finish_next_tables {α : Type} {f : Flow α} {P : α → Prop} {g : α → State → State} {s t : State}
    (hends : ReadEnds s P f) (ht : f.finish (fun a u => .next (g a u)) = .next t)
    (hg : ∀ a u, (g a u).tables = u.tables) : t.tables = s.tables := by
  rcases finish_cases hends ht with ⟨a, u, -, hf, hu⟩ | hf | ⟨e, info, u, hf, rfl⟩
  · cases hu; exact (hg a u).trans (onlyRead_tables hf)
  · exact onlyRead_tables hf
  · exact onlyRead_tables (u := u) hf

theorem put_tables {b : Byte} {k : State → State} {s t : State} (hk : ∀ u, (k u).tables = u.tables)
    (ht : put b k s = .next t) : t.tables = s.tables := by
  rcases put_cases b k s with ⟨-, -, h⟩ | ⟨-, -, h⟩ | ⟨-, h⟩ <;> rw [h] at ht <;> cases ht
  · exact hk _
  · rfl

theorem literalReturn_tables (s : State) : (literalReturn s).tables = s.tables := by
  unfold literalReturn
  split <;> rfl

/-- No op word changes a table. -/
theorem exec_windowOp_tables {w : BitVec 25} {i : Instr} {s t : State} (hd : decode .windowOp w = .ok i)
    (ht : exec i s = .next t) : t.tables = s.tables := by
  rcases decode_windowOp_cases hd with ⟨-, b, rfl⟩ | ⟨-, rfl⟩ | ⟨-, l, d, rfl, -⟩
  · exact put_tables literalReturn_tables ht
  · cases ht; rfl
  · cases ht
    rcases windowBackref_cases l d s with ⟨-, h⟩ | ⟨-, h⟩ <;> rw [h] <;> rfl

theorem workStored_tables {p : StoredPos} {s t : State} (ht : workStored p s = .next t) : t.tables = s.tables := by
  cases p with
  | align | op => cases ht; rfl
  | lenLo | lenHi | nlenLo | nlenHi => exact finish_next_tables (readRawByte_ends s) ht fun _ _ => rfl
  | check => simp only [workStored] at ht; split at ht <;> cases ht <;> rfl
  | data =>
    simp only [workStored] at ht
    split at ht
    · cases ht; rfl
    · exact finish_next_tables (readRawByte_ends s) ht fun _ _ => rfl

/-- In a stored block the only words fetched are op words. -/
theorem fetch_stored {s : State} {f : Format} {w : BitVec 25} {p : StoredPos} (hp : s.fsm = .stored p)
    (hf : fetch s = some (f, w)) : f = .windowOp := by
  rw [fetch, hp] at hf
  cases p with
  | op => cases hf; rfl
  | align | lenLo | lenHi | nlenLo | nlenHi | check | data => cases hf

theorem run_stored_tables {s t : State} {p : StoredPos} (hp : s.fsm = .stored p) (ht : run s = .next t) :
    t.tables = s.tables := by
  rcases run_cases s with ⟨f, w, i, hf, hd, hr⟩ | ⟨f, w, e, -, -, hr⟩ | ⟨-, hr⟩ <;> rw [hr] at ht
  · obtain rfl := fetch_stored hp hf
    exact exec_windowOp_tables hd ht
  · cases ht
  · rw [work, hp] at ht
    exact workStored_tables ht

theorem busy_of_stored {s : State} {p : StoredPos} (hp : s.fsm = .stored p) : s.busy = true := by
  rw [State.busy, hp]

/-- Settles O23: a stored block is busy, so the step is a run, of an op word or of the block's own work. -/
theorem storedKeepsTables : Obligations.StoredKeepsTables := by
  intro s t hr hname ht
  obtain ⟨p, hp⟩ : ∃ p, s.fsm = .stored p := by
    cases hp : s.fsm <;> rw [hp] at hname
    case stored p => exact ⟨p, rfl⟩
    all_goals cases hname
  rw [step_of_no_event hr fun _ => busy_of_stored hp] at ht
  have htables : t.tables = s.tables := run_stored_tables (s := dropStart s) hp ht
  simpa only [State.tables, Prod.mk.injEq] using htables

end Sys2Proof.Machine
end

section
/-! PROOF. The events, the waiting states, the end of a block, and a placed word. -/

namespace Sys2Proof.Machine

/-! ## Waiting states -/

/-- A waiting core is not busy, and has neither an instruction to fetch nor work (R341, R350, R383). -/
theorem waiting_idles {s : State} (hp : s.fsm = .idle ∨ s.fsm = .done ∨ s.fsm = .error) :
    s.busy = false ∧ fetch s = none ∧ work s = .next s := by
  rw [State.busy, fetch, work]
  rcases hp with hp | hp | hp <;> rw [hp] <;> exact ⟨rfl, rfl, rfl⟩

/-- Settles O47: in a waiting state no instruction is fetched, and the work is to wait. -/
theorem waitingStates : Obligations.WaitingStates := by
  intro s hr hs hp
  obtain ⟨-, hfetch, hwork⟩ := waiting_idles hp
  exact (step_of_work hr hs hfetch).trans hwork

/-! ## `start` -/

/-- Settles O44: the step is START, from a core that `rst` has put in IDLE as from the waiting one. -/
theorem startBeginsStream : Obligations.StartBeginsStream := by
  intro s hr hs hp
  obtain ⟨hbusy, -, -⟩ := waiting_idles hp
  have hreset := step_of_rst (s := { s with start := false, rst := true }) rfl
  have hrestart := step_of_start (s := { resetCore s with start := true }) rfl rfl rfl
  refine ⟨startStream s, step_of_start hr hs hbusy, ⟨_, _, hreset, hrestart, rfl⟩, ?_⟩
  and_intros <;> rfl

/-- Settles O45: while busy a pending `start` is dropped and the core runs. -/
theorem startIgnoredWhileBusy : Obligations.StartIgnoredWhileBusy := by
  intro s hr hs hb
  exact (step_of_no_event hr fun _ => hb).trans (step_quiet (s := dropStart s) hr rfl).symm

/-! ## The end of a block -/

theorem step_blockEnd {s : State} (hr : s.rst = false) (hs : s.start = false) (hp : s.fsm = .blockEnd) :
    step s = workBlockEnd s := by
  rw [step_of_work hr hs (by rw [fetch, hp]), work, hp]

/-- Settles O19: the step at BLOCK_END is the test of `bfinal`. -/
theorem blockEndTestsFinal : Obligations.BlockEndTestsFinal := by
  intro s hr hs hp
  rw [step_blockEnd hr hs hp, workBlockEnd]
  exact ⟨fun hb => by rw [if_pos hb], fun hb => by rw [hb]; rfl⟩

/-! ## A word of the opcode table -/

theorem decode_of_decodeTableWord {nbits w : Nat} {i : Instr} (h : decodeTableWord nbits w = some i) :
    decode (tableFormat nbits w) (BitVec.ofNat 25 w) = .ok i := by
  unfold decodeTableWord at h
  split at h
  · next j hd => cases h; exact hd
  · cases h

/-- A placed word leaves no event pending. -/
theorem placeWord_quiet (f : Format) (w : BitVec 25) (s : State) :
    (placeWord f w s).rst = false ∧ (placeWord f w s).start = false := by
  cases f <;> exact ⟨rfl, rfl⟩

/-- Settles O6: the word placed is fetched in its own format, and decodes there as it does in the table. -/
theorem placedWordRuns : Obligations.PlacedWordRuns := by
  intro s nbits w i h
  obtain ⟨w', hf, hd⟩ := decode_placed (tableFormat nbits w) (BitVec.ofNat 25 w) s
  obtain ⟨hr, hs⟩ := placeWord_quiet (tableFormat nbits w) (BitVec.ofNat 25 w) s
  exact step_of_decode hr hs hf (hd.trans (decode_of_decodeTableWord h))

end Sys2Proof.Machine
end

section
/-! PROOF. The error entry: what `raise` is reached with, and the complement check of a stored block. -/

namespace Sys2Proof.Machine

/-! ## The complement check -/

/-- The mask of R181 takes the complement. -/
theorem xor_ffff (x : BitVec 16) : x ^^^ 0xFFFF = ~~~x := BitVec.xor_allOnes

/-- Settles O21: the step at the check is its comparison, which reads nothing (R181, R374). -/
theorem storedComplementCheck : Obligations.StoredComplementCheck := by
  intro s hr hs hp
  rw [step_stored hr hs hp nofun, workStored, xor_ffff]
  exact ⟨fun h => if_neg (not_not.2 h), fun h => if_pos h⟩

/-! ## What an error entry is reached with -/

/-- `t` is the error state of a run from `s`: raised in `s` itself, or, with IO_FAILURE, MALFORMED_DYNAMIC_CODE_TABLE or
INVALID_CODE, after reads. -/
inductive Raised (s : State) : State → Prop
  | atOnce (e : ErrKind) (info : BitVec 32) : Raised s (raise e info s)
  | afterReads {u : State} (e : ErrKind) (info : BitVec 32) (he : e.code = 1 ∨ e.code = 6 ∨ e.code = 7)
    (hf : onlyRead s u) : Raised s (raise e info u)

/-- A run from `s` to `t` enters ERROR by `raise` alone. -/
def OnlyRaised (s t : State) : Prop := t.fsm = .error → Raised s t

/-- How a read from `s` ends: done or held, having changed only what a read may, or in an error state it has raised. -/
def Flow.Raises {α : Type} (s : State) : Flow α → Prop
  | .done _ u => onlyRead s u
  | .hold u => onlyRead s u
  | .failed t => Raised s t

theorem readBit_raises (s : State) : (readBit s).Raises s := by
  rcases readBit_cases s with ⟨b, t, hr, -, hf, -⟩ | ⟨-, -, -, hr⟩ | ⟨-, -, -, hr⟩ <;> rw [hr]
  · exact onlyRead_of_onlyInput hf
  · exact rfl
  · exact .atOnce _ _

theorem readRawByte_raises (s : State) : (readRawByte s).Raises s := by
  unfold readRawByte readByte
  split
  · exact rfl
  · split
    · exact .atOnce _ _
    · exact rfl

theorem readBits_raises (n : Nat) (s : State) : (readBits n s).Raises s := by
  rcases readBits_cases n s with ⟨v, t, hr, -, hf, -⟩ | ⟨t, hr, hf, -⟩ | ⟨t, hr, hf, -⟩ <;> rw [hr]
  · exact onlyRead_of_onlyField hf
  · exact onlyRead_of_onlyField hf
  · exact .afterReads _ _ (.inl rfl) (onlyRead_of_onlyField hf)

theorem decodeSymbol_raises (t : Table) (maxBits : Nat) (alph : BitVec 32) (s : State) :
    (decodeSymbol t maxBits alph s).Raises s := by
  rcases decodeSymbol_cases t maxBits alph s with
    ⟨sym, u, hr, -, hf, -⟩ | ⟨u, hr, hf, -⟩ | ⟨u, hr, hf, -⟩ | ⟨u, hr, hf⟩ <;> rw [hr]
  · exact onlyRead_of_onlyWalk hf
  · exact onlyRead_of_onlyWalk hf
  · exact .afterReads _ _ (.inl rfl) (onlyRead_of_onlyWalk hf)
  · exact .afterReads _ _ (.inr (.inr rfl)) (onlyRead_of_onlyWalk hf)

/-- A read holds outside ERROR, so only its own failure and what follows it can enter ERROR. -/
theorem finish_onlyRaised {α : Type} {f : Flow α} {k : α → State → Result State} {s t : State} (hs : s.fsm ≠ .error)
    (hf : f.Raises s) (hk : ∀ a u, onlyRead s u → k a u = .next t → OnlyRaised s t) (ht : f.finish k = .next t) :
    OnlyRaised s t := by
  cases f with
  | done a u => exact hk a u hf ht
  | hold u => cases ht; exact fun he => absurd ((onlyRead_fsm hf).symm.trans he) hs
  | failed u => cases ht; exact fun _ => hf

/-- A read that is followed by one update of the state, which leads to another position. -/
theorem finish_next_onlyRaised {α : Type} {f : Flow α} {g : α → State → State} {s t : State} (hs : s.fsm ≠ .error)
    (ht : f.finish (fun a u => .next (g a u)) = .next t) (hf : f.Raises s) (hg : ∀ a u, (g a u).fsm ≠ .error) :
    OnlyRaised s t :=
  finish_onlyRaised hs hf (fun a u _ hu => by cases hu; exact fun he => absurd he (hg a u)) ht

/-- PUT raises nothing: it goes on with `k`, or holds where it stands (R324). -/
theorem put_onlyRaised {b : Byte} {k : State → State} {s t : State} (hs : s.fsm ≠ .error)
    (ht : put b k s = .next t) (hk : ∀ u, (k u).fsm ≠ .error) : OnlyRaised s t := by
  rcases put_cases b k s with ⟨-, -, h⟩ | ⟨-, -, h⟩ | ⟨-, h⟩ <;> rw [h] at ht <;> cases ht
  · exact fun he => absurd he (hk _)
  · exact fun he => absurd he hs

/-! ## The instructions, by the format of the word -/

/-- BLOCK_RESERVED stands in `btype` and `bfinal` already, so it writes there what they hold (R347, log 16). -/
theorem headerFlags_of_blockReserved {s : State} {final : Bool}
    (hd : decode .blockHdr ((blockHdrWord s.btype s.bfinal).setWidth 25) = .ok (.blockReserved final)) :
    headerFlags final 3 s = s := by
  have hword : ∀ (btype : BitVec 2) (b final : Bool),
      decodeBlockHdr (blockHdrWord btype b) = .ok (.blockReserved final) → btype = 3 ∧ b = final := by decide
  rw [decode_blockHdr_setWidth] at hd
  obtain ⟨htype, hfinal⟩ := hword s.btype s.bfinal final hd
  rw [← htype, ← hfinal, headerFlags]

theorem exec_blockHdr_onlyRaised {i : Instr} {s t : State}
    (hd : decode .blockHdr ((blockHdrWord s.btype s.bfinal).setWidth 25) = .ok i) (ht : exec i s = .next t) :
    OnlyRaised s t := by
  obtain ⟨final, rfl | rfl | rfl | rfl⟩ := decode_blockHdr_cases hd <;> cases ht
  · exact nofun
  · exact nofun
  · exact nofun
  · rw [headerFlags_of_blockReserved hd]
    exact fun _ => .atOnce _ _

/-- The overflow check comes after the extra bits (R196). -/
theorem repeatRun_onlyRaised {base n : Nat} {v : BitVec 4} {s t : State} (hs : s.fsm ≠ .error)
    (ht : repeatRun base n v s = .next t) : OnlyRaised s t := by
  refine finish_onlyRaised hs (readBits_raises n s) (fun x u hf hu => ?_) ht
  split at hu <;> cases hu
  · exact fun _ => .afterReads _ _ (.inr (.inl rfl)) hf
  · exact nofun

theorem exec_clSym_onlyRaised {c : BitVec 5} {i : Instr} {s t : State} (hs : s.fsm ≠ .error)
    (hd : decode .clSym (c.setWidth 25) = .ok i) (ht : exec i s = .next t) : OnlyRaised s t := by
  rcases decode_clSym_cases hd with ⟨-, v, rfl⟩ | ⟨-, rfl⟩ | ⟨-, rfl⟩ | ⟨-, rfl⟩
  · cases ht; exact nofun
  · change execClRep16 s = .next t at ht
    rw [execClRep16] at ht
    split at ht
    · cases ht; exact fun _ => .atOnce _ _
    · exact repeatRun_onlyRaised hs ht
  · exact repeatRun_onlyRaised hs ht
  · exact repeatRun_onlyRaised hs ht

theorem exec_litLenSym_onlyRaised {v : BitVec 9} {i : Instr} {s t : State} (hs : s.fsm ≠ .error)
    (hd : decode .litLenSym (v.setWidth 25) = .ok i) (ht : exec i s = .next t) : OnlyRaised s t := by
  rcases exec_litLenSym_cases hd with ⟨-, b, rfl⟩ | ⟨-, rfl⟩ | ⟨-, -, hi⟩ | ⟨-, -, hi⟩ | ⟨-, info, hi⟩
  · rw [exec_lit] at ht
    exact put_onlyRaised hs ht fun _ => nofun
  · cases ht; exact nofun
  · rw [hi] at ht; cases ht; exact nofun
  · rw [hi] at ht
    exact finish_next_onlyRaised hs ht (readBits_raises _ s) fun _ _ => nofun
  · rw [hi] at ht; cases ht; exact fun _ => .atOnce _ _

theorem exec_distSym_onlyRaised {v : BitVec 5} {i : Instr} {s t : State} (hs : s.fsm ≠ .error)
    (hd : decode .distSym (v.setWidth 25) = .ok i) (ht : exec i s = .next t) : OnlyRaised s t := by
  rcases exec_distSym_cases hd with ⟨-, hi⟩ | ⟨-, -, hi⟩ | ⟨-, info, hi⟩ <;> rw [hi] at ht
  · cases ht; exact nofun
  · exact finish_next_onlyRaised hs ht (readBits_raises _ s) fun _ _ => nofun
  · cases ht; exact fun _ => .atOnce _ _

theorem literalReturn_fsm_ne_error (u : State) : (literalReturn u).fsm ≠ .error := by
  unfold literalReturn
  split <;> nofun

/-- Of the op words only a back-reference raises, before it changes anything (R322). -/
theorem exec_windowOp_onlyRaised {w : BitVec 25} {i : Instr} {s t : State} (hs : s.fsm ≠ .error)
    (hd : decode .windowOp w = .ok i) (ht : exec i s = .next t) : OnlyRaised s t := by
  rcases decode_windowOp_cases hd with ⟨-, b, rfl⟩ | ⟨-, rfl⟩ | ⟨-, l, d, rfl, -⟩
  · exact put_onlyRaised hs ht literalReturn_fsm_ne_error
  · cases ht; exact nofun
  · cases ht
    rcases windowBackref_cases l d s with ⟨-, h⟩ | ⟨-, h⟩ <;> rw [h]
    · exact fun _ => .atOnce _ _
    · exact nofun

theorem exec_onlyRaised {f : Format} {w : BitVec 25} {i : Instr} {s t : State} (hs : s.fsm ≠ .error)
    (hf : fetch s = some (f, w)) (hd : decode f w = .ok i) (ht : exec i s = .next t) : OnlyRaised s t := by
  unfold fetch at hf
  cases hp : s.fsm <;> rw [hp] at hf
  case blockHdr p =>
    cases p with
    | dispatch => cases hf; exact exec_blockHdr_onlyRaised hd ht
    | final | type => cases hf
  case stored p =>
    cases p with
    | op => cases hf; exact exec_windowOp_onlyRaised hs hd ht
    | align | lenLo | lenHi | nlenLo | nlenHi | check | data => cases hf
  case dynHdr p =>
    cases p with
    | execCl => cases hf; exact exec_clSym_onlyRaised hs hd ht
    | hlit | hdist | hclen | clLen | symbol | split => cases hf
  case huffSym p =>
    cases p with
    | execSym => cases hf; exact exec_litLenSym_onlyRaised hs hd ht
    | execDist => cases hf; exact exec_distSym_onlyRaised hs hd ht
    | op => cases hf; exact exec_windowOp_onlyRaised hs hd ht
    | symbol | dist => cases hf
  case idle | copy | blockEnd | done | error => cases hf

/-! ## The work between instructions -/

theorem workBlockHdr_onlyRaised {p : HdrPos} {s t : State} (hs : s.fsm ≠ .error)
    (ht : workBlockHdr p s = .next t) : OnlyRaised s t := by
  cases p with
  | final => exact finish_next_onlyRaised hs ht (readBit_raises s) fun _ _ => nofun
  | type => exact finish_next_onlyRaised hs ht (readBits_raises 2 s) fun _ _ => nofun
  | dispatch => cases ht; exact fun he => absurd he hs

theorem workStored_onlyRaised {p : StoredPos} {s t : State} (hs : s.fsm ≠ .error)
    (ht : workStored p s = .next t) : OnlyRaised s t := by
  cases p with
  | align => cases ht; exact nofun
  | lenLo | lenHi | nlenLo | nlenHi =>
    exact finish_next_onlyRaised hs ht (readRawByte_raises s) fun _ _ => nofun
  | check =>
    simp only [workStored] at ht
    split at ht <;> cases ht
    · exact fun _ => .atOnce _ _
    · exact nofun
  | data =>
    simp only [workStored] at ht
    split at ht
    · cases ht; exact nofun
    · exact finish_next_onlyRaised hs ht (readRawByte_raises s) fun _ _ => nofun
  | op => cases ht; exact fun he => absurd he hs

theorem workDynHdr_onlyRaised {p : DynPos} {s t : State} (hs : s.fsm ≠ .error)
    (ht : workDynHdr p s = .next t) : OnlyRaised s t := by
  cases p with
  | hlit | hdist | hclen => exact finish_next_onlyRaised hs ht (readBits_raises _ s) fun _ _ => nofun
  | clLen i =>
    simp only [workDynHdr] at ht
    split at ht
    · exact finish_next_onlyRaised hs ht (readBits_raises 3 s) fun _ _ => nofun
    · cases ht; exact nofun
  | symbol =>
    simp only [workDynHdr] at ht
    split at ht
    · exact finish_next_onlyRaised hs ht (decodeSymbol_raises _ _ _ s) fun _ _ => nofun
    · cases ht; exact nofun
  | execCl => cases ht; exact fun he => absurd he hs
  | split => cases ht; exact nofun

theorem workHuffSym_onlyRaised {p : HuffPos} {s t : State} (hs : s.fsm ≠ .error)
    (ht : workHuffSym p s = .next t) : OnlyRaised s t := by
  cases p with
  | symbol | dist => exact finish_next_onlyRaised hs ht (decodeSymbol_raises _ _ _ s) fun _ _ => nofun
  | execSym | execDist | op => cases ht; exact fun he => absurd he hs

/-- A state whose listed transitions do not lead to ERROR has no way there (R340). -/
theorem fsm_ne_error_of_transition {n : FsmName} {t : State} (h : Transition n t.fsm.name)
    (hn : n ≠ .error) (herror : allowedTransition n .error = false) : t.fsm ≠ .error := by
  intro he
  rw [he] at h
  rcases h with h | h
  · exact hn h.symm
  · exact absurd (h.symm.trans herror) nofun

theorem work_onlyRaised {s t : State} (hs : s.fsm ≠ .error) (ht : work s = .next t) : OnlyRaised s t := by
  have htransition := work_transition ht
  unfold work at ht
  cases hp : s.fsm <;> rw [hp] at ht htransition
  case blockHdr => exact workBlockHdr_onlyRaised hs ht
  case stored => exact workStored_onlyRaised hs ht
  case dynHdr => exact workDynHdr_onlyRaised hs ht
  case huffSym => exact workHuffSym_onlyRaised hs ht
  case idle | copy | blockEnd | done => exact fun he => absurd he (fsm_ne_error_of_transition htransition nofun rfl)
  case error => exact absurd hp hs

/-! ## A step -/

theorem run_onlyRaised {s t : State} (hs : s.fsm ≠ .error) (ht : run s = .next t) : OnlyRaised s t := by
  rcases run_cases s with ⟨f, w, i, hf, hd, hr⟩ | ⟨f, w, e, -, -, hr⟩ | ⟨-, hr⟩ <;> rw [hr] at ht
  · exact exec_onlyRaised hs hf hd ht
  · cases ht
  · exact work_onlyRaised hs ht

/-- A step that enters ERROR is a run, of the state without its pending `start` (log 21): `rst` leads to IDLE and START
to BLOCK_HDR. -/
theorem step_raised {s t : State} (ht : step s = .next t) (hs : s.fsm ≠ .error) (he : t.fsm = .error) :
    Raised (dropStart s) t := by
  rcases step_cases s with ⟨-, h⟩ | ⟨-, -, -, h⟩ | ⟨-, -, h⟩ <;> rw [h] at ht
  · cases ht; cases he
  · cases ht; cases he
  · exact run_onlyRaised (s := dropStart s) hs ht he

theorem ErrKind.code_pos (e : ErrKind) : 1 ≤ e.code.toNat := by
  cases e <;> decide

/-- Settles O48: the step is a run that raises, in the state it starts from or after reads. -/
theorem errorEntry : Obligations.ErrorEntry := by
  intro s t ht hs he
  cases step_raised ht hs he with
  | atOnce e info => exact ⟨e.code_pos, e.code_range.1, rfl, rfl, rfl, fun _ _ _ => rfl⟩
  | afterReads e info hkind hf =>
    refine ⟨e.code_pos, e.code_range.1, rfl, rfl, by rw [hf]; rfl, fun h1 h6 h7 => ?_⟩
    rcases hkind with h | h | h
    · exact absurd h h1
    · exact absurd h h6
    · exact absurd h h7

end Sys2Proof.Machine
end

section
/-! PROOF. What a run does at the ports: a hold it enters is at the position it starts from. The window size, and
`rst`. -/

namespace Sys2Proof.Machine

/-! ## Updates that enter no hold -/

/-- From `s` to `t` the window size stayed, and the core is held at no port where it was not held before. -/
structure NoNewHold (s t : State) : Prop where
  wlog2 : t.wlog2 = s.wlog2
  inReady : t.inReady = true → s.inReady = true
  outValid : t.outValid = true → s.outValid = true

theorem NoNewHold.of_same {s t : State} (hw : t.wlog2 = s.wlog2) (hi : t.inReady = s.inReady)
    (ho : t.outValid = s.outValid) : NoNewHold s t :=
  ⟨hw, fun h => hi ▸ h, fun h => ho ▸ h⟩

theorem NoNewHold.trans {s t u : State} (h : NoNewHold s t) (h' : NoNewHold t u) : NoNewHold s u :=
  ⟨h'.wlog2.trans h.wlog2, fun hu => h.inReady (h'.inReady hu), fun hu => h.outValid (h'.outValid hu)⟩

/-- The error entry ends every hold (R380). -/
theorem raise_noNewHold (e : ErrKind) (info : BitVec 32) (s : State) : NoNewHold s (raise e info s) :=
  ⟨rfl, nofun, nofun⟩

theorem literalReturn_noNewHold (s : State) : NoNewHold s (literalReturn s) := by
  unfold literalReturn
  split <;> exact .of_same rfl rfl rfl

/-! ## A hold is entered in place -/

/-- From `s` to `t` the window size stayed, and `t` reads or emits exactly if `s` did. -/
structure StaysAtPort (s t : State) : Prop where
  wlog2 : t.wlog2 = s.wlog2
  reading : t.reading = s.reading
  emitting : t.emitting = s.emitting

/-- From `s` to `t` no hold was entered, or the core stands at the same port as before. -/
def HoldsInPlace (s t : State) : Prop := NoNewHold s t ∨ StaysAtPort s t

theorem HoldsInPlace.wlog2 {s t : State} (h : HoldsInPlace s t) : t.wlog2 = s.wlog2 :=
  h.elim NoNewHold.wlog2 StaysAtPort.wlog2

theorem onlyRead_staysAtPort {s t : State} (h : onlyRead s t) : StaysAtPort s t := by
  rw [h]
  exact ⟨rfl, rfl, rfl⟩

/-- A read that is not done holds in place or ends in ERROR, so a new hold can only come from what follows it. -/
theorem finish_holdsInPlace {α : Type} {f : Flow α} {P : α → Prop} {k : α → State → Result State} {s t : State}
    (hends : ReadEnds s P f) (hk : ∀ a u, k a u = .next t → NoNewHold u t) (ht : f.finish k = .next t) :
    HoldsInPlace s t := by
  cases hends with
  | @done a u ha hf hi hr =>
    have hvalid : u.outValid = s.outValid := by rw [hf]
    have hdone : NoNewHold s u := ⟨by rw [hf], fun h => absurd (hi.symm.trans h) nofun, fun h => hvalid ▸ h⟩
    exact .inl (hdone.trans (hk a u ht))
  | hold hf hr => cases ht; exact .inr (onlyRead_staysAtPort hf)
  | @failed u e info hf hr => cases ht; exact .inl ⟨by rw [hf]; rfl, nofun, nofun⟩

/-- A read that is followed by one update of the state. -/
theorem finish_next_holdsInPlace {α : Type} {f : Flow α} {P : α → Prop} {g : α → State → State} {s t : State}
    (ht : f.finish (fun a u => .next (g a u)) = .next t) (hends : ReadEnds s P f) (hg : ∀ a u, NoNewHold u (g a u)) :
    HoldsInPlace s t :=
  finish_holdsInPlace hends (fun a u hu => by cases hu; exact hg a u) ht

theorem repeatRun_holdsInPlace {base n : Nat} {v : BitVec 4} {s t : State} (ht : repeatRun base n v s = .next t) :
    HoldsInPlace s t := by
  refine finish_holdsInPlace (readBits_ends n s) (fun x u hu => ?_) ht
  split at hu <;> cases hu
  · exact raise_noNewHold _ _ u
  · exact .of_same rfl rfl rfl

/-- PUT holds where it stands, or `out_valid` is low after it (R64, R65). -/
theorem put_holdsInPlace {b : Byte} {k : State → State} {s t : State} (ht : put b k s = .next t)
    (hk : ∀ u, NoNewHold u (k u)) : HoldsInPlace s t := by
  rcases put_cases b k s with ⟨-, -, h⟩ | ⟨-, -, h⟩ | ⟨-, h⟩ <;> rw [h] at ht <;> cases ht
  · have haccepted : NoNewHold s (advance (emit b (memWrite s.wp.toNat b s))) := ⟨rfl, id, nofun⟩
    exact .inl (haccepted.trans (hk _))
  · exact .inr ⟨rfl, rfl, rfl⟩

/-! ## The instructions and the work between them -/

theorem Meaning.holdsInPlace {m : State → Result State} (hm : Meaning m) {s t : State} (ht : m s = .next t) :
    HoldsInPlace s t := by
  cases hm with
  | lit b =>
    unfold execLit windowLiteral at ht
    exact put_holdsInPlace ht fun _ => .of_same rfl rfl rfl
  | opLiteral b => exact put_holdsInPlace ht literalReturn_noNewHold
  | lengthExtra base n => exact finish_next_holdsInPlace ht (readBits_ends n s) fun _ _ => .of_same rfl rfl rfl
  | distanceExtra base n => exact finish_next_holdsInPlace ht (readBits_ends n s) fun _ _ => .of_same rfl rfl rfl
  | zeroRun base n => exact repeatRun_holdsInPlace ht
  | clRep16 =>
    unfold execClRep16 at ht
    split at ht
    · cases ht; exact .inl (raise_noNewHold _ _ s)
    · exact repeatRun_holdsInPlace ht
  | opBackref l d =>
    cases ht
    rcases windowBackref_cases l d s with ⟨-, h⟩ | ⟨-, h⟩ <;> rw [h]
    · exact .inl (raise_noNewHold _ _ s)
    · exact .inl (.of_same rfl rfl rfl)
  | blockReserved | invalidLength | invalidDistance => cases ht; exact .inl ⟨rfl, nofun, nofun⟩
  | blockStored | blockFixed | blockDynamic | endOfBlock | lengthExact | distanceExact | clLen =>
    cases ht; exact .inl (.of_same rfl rfl rfl)

theorem workBlockHdr_holdsInPlace {p : HdrPos} {s t : State} (ht : workBlockHdr p s = .next t) : HoldsInPlace s t := by
  cases p with
  | final => exact finish_next_holdsInPlace ht (readBit_ends s) fun _ _ => .of_same rfl rfl rfl
  | type => exact finish_next_holdsInPlace ht (readBits_ends 2 s) fun _ _ => .of_same rfl rfl rfl
  | dispatch => cases ht; exact .inl (.of_same rfl rfl rfl)

theorem workStored_holdsInPlace {p : StoredPos} {s t : State} (ht : workStored p s = .next t) : HoldsInPlace s t := by
  cases p with
  | lenLo | lenHi | nlenLo | nlenHi =>
    exact finish_next_holdsInPlace ht (readRawByte_ends s) fun _ _ => .of_same rfl rfl rfl
  | check =>
    simp only [workStored] at ht
    split at ht <;> cases ht
    · exact .inl (raise_noNewHold _ _ s)
    · exact .inl (.of_same rfl rfl rfl)
  | data =>
    simp only [workStored] at ht
    split at ht
    · cases ht; exact .inl (.of_same rfl rfl rfl)
    · exact finish_next_holdsInPlace ht (readRawByte_ends s) fun _ _ => .of_same rfl rfl rfl
  | align | op => cases ht; exact .inl (.of_same rfl rfl rfl)

theorem workDynHdr_holdsInPlace {p : DynPos} {s t : State} (ht : workDynHdr p s = .next t) : HoldsInPlace s t := by
  cases p with
  | hlit | hdist | hclen => exact finish_next_holdsInPlace ht (readBits_ends _ s) fun _ _ => .of_same rfl rfl rfl
  | clLen i =>
    simp only [workDynHdr] at ht
    split at ht
    · exact finish_next_holdsInPlace ht (readBits_ends 3 s) fun _ _ => .of_same rfl rfl rfl
    · cases ht; exact .inl (.of_same rfl rfl rfl)
  | symbol =>
    simp only [workDynHdr] at ht
    split at ht
    · exact finish_next_holdsInPlace ht (decodeSymbol_ends _ _ _ s) fun _ _ => .of_same rfl rfl rfl
    · cases ht; exact .inl (.of_same rfl rfl rfl)
  | execCl | split => cases ht; exact .inl (.of_same rfl rfl rfl)

theorem workHuffSym_holdsInPlace {p : HuffPos} {s t : State} (ht : workHuffSym p s = .next t) : HoldsInPlace s t := by
  cases p with
  | symbol | dist => exact finish_next_holdsInPlace ht (decodeSymbol_ends _ _ _ s) fun _ _ => .of_same rfl rfl rfl
  | execSym | execDist | op => cases ht; exact .inl (.of_same rfl rfl rfl)

theorem workCopy_holdsInPlace {s t : State} (ht : workCopy s = .next t) : HoldsInPlace s t := by
  unfold workCopy at ht
  split at ht
  · cases ht; exact .inl (.of_same rfl rfl rfl)
  · split at ht
    · exact put_holdsInPlace ht fun _ => .of_same rfl rfl rfl
    · cases ht

theorem work_holdsInPlace {s t : State} (ht : work s = .next t) : HoldsInPlace s t := by
  unfold work at ht
  cases hp : s.fsm <;> rw [hp] at ht
  case blockHdr => exact workBlockHdr_holdsInPlace ht
  case stored => exact workStored_holdsInPlace ht
  case dynHdr => exact workDynHdr_holdsInPlace ht
  case huffSym => exact workHuffSym_holdsInPlace ht
  case copy => exact workCopy_holdsInPlace ht
  case idle | blockEnd | done | error => cases ht; exact .inl (.of_same rfl rfl rfl)

/-! ## A run -/

theorem run_holdsInPlace {s t : State} (ht : run s = .next t) : HoldsInPlace s t := by
  rcases run_cases s with ⟨f, w, i, -, -, hr⟩ | ⟨f, w, e, -, -, hr⟩ | ⟨-, hr⟩ <;> rw [hr] at ht
  · exact (exec_meaning i).holdsInPlace ht
  · cases ht
  · exact work_holdsInPlace ht

/-- Under the invariant a run that leaves the core held in `ReadByte()` started where input is read. -/
theorem reading_of_run_held {s t : State} (h : s.Inv) (ht : run s = .next t) (hheld : t.inReady = true) :
    s.reading = true := by
  rcases run_holdsInPlace ht with hno | hstay
  · exact h.ports.1 (hno.inReady hheld)
  · exact hstay.reading.symm.trans ((run_inv h ht).ports.1 hheld)

/-- Under the invariant a run that leaves the core held in `Emit(b)` started where a byte is emitted. -/
theorem emitting_of_run_held {s t : State} (h : s.Inv) (ht : run s = .next t) (hheld : t.outValid = true) :
    s.emitting = true := by
  obtain ⟨-, hports, -⟩ := h.ports
  obtain ⟨-, hports', -⟩ := (run_inv h ht).ports
  rcases run_holdsInPlace ht with hno | hstay
  · exact hports (hno.outValid hheld)
  · exact hstay.emitting.symm.trans (hports' hheld)

/-- A step that leaves the core held at a port is no event: it is the step without a pending `start` (R354). -/
theorem step_of_held {s t : State} (ht : step s = .next t) (hheld : t.inReady = true ∨ t.outValid = true) :
    s.rst = false ∧ (s.start = true → s.busy = true) ∧ run (dropStart s) = .next t := by
  rcases step_cases s with ⟨-, hs⟩ | ⟨-, -, -, hs⟩ | ⟨hr, hb, hs⟩ <;> rw [hs] at ht
  · cases ht; rcases hheld with h | h <;> cases h
  · cases ht; rcases hheld with h | h <;> cases h
  · exact ⟨hr, hb, ht⟩

/-- Settles O58: without `start` and `rst` a step is a run, which keeps the window size. -/
theorem windowSizeFixed : Obligations.WindowSizeFixed := by
  intro s t hr hstart ht
  rw [step_of_no_event hr hstart] at ht
  exact (run_holdsInPlace ht).wlog2

/-- Settles O46: `rst` comes before everything else, and `resetCore` has every value of R51. -/
theorem resetFromAnyState : Obligations.ResetFromAnyState := by
  intro s hr
  refine ⟨resetCore s, step_of_rst hr, ?_⟩
  and_intros <;> rfl

end Sys2Proof.Machine
end

section
/-! PROOF. A held read goes on as if the bytes had been there: each read, each position that reads, and a step. -/

namespace Sys2Proof.Machine

/-! ## The host presents more -/

/-- The host presents more bytes, and ends the input or not. -/
def State.present (s : State) (bytes : List Byte) (ended : Bool) : State := { s.offer bytes with inEnd := ended }

/-- A read that holds, taken on once the host has presented more, comes to what it comes to with that presented at
once. -/
def Resumable {α : Type} (f : State → Flow α) : Prop :=
  ∀ s u bytes ended, f s = .hold u → f (u.present bytes ended) = f (s.present bytes ended)

/-! ## One byte and one bit -/

/-- `ReadByte()` does not look at `in_ready`. -/
theorem readByte_inReady (s : State) (r : Bool) : readByte { s with inReady := r } = readByte s := by
  unfold readByte
  dsimp only
  split
  · rfl
  · split <;> rfl

theorem readBit_inReady (s : State) (r : Bool) : readBit { s with inReady := r } = readBit s := by
  unfold readBit
  rw [readByte_inReady]
  rfl

theorem readRawByte_resumable : Resumable readRawByte := by
  intro s u bytes ended hhold
  unfold readRawByte readByte at hhold
  split at hhold
  · cases hhold
  · split at hhold <;> cases hhold
    exact readByte_inReady (s.present bytes ended) true

/-- A `read_bit()` that holds has changed `in_ready` alone. -/
theorem eq_of_readBit_hold {s u : State} (h : readBit s = .hold u) : u = { s with inReady := true } := by
  rcases readBit_cases s with ⟨b, t, hr, -⟩ | ⟨-, -, -, hr⟩ | ⟨-, -, -, hr⟩ <;> rw [hr] at h <;> cases h
  rfl

theorem readBit_resumable : Resumable readBit := by
  intro s u bytes ended hhold
  rw [eq_of_readBit_hold hhold]
  exact readBit_inReady (s.present bytes ended) true

/-- A bit that is there is the one read whatever else the host presents. -/
theorem readBit_present {s t : State} {b : Bool} (bytes : List Byte) (ended : Bool) (h : readBit s = .done b t) :
    readBit (s.present bytes ended) = .done b (t.present bytes ended) := by
  unfold readBit at h ⊢
  by_cases hc : s.bitcnt = 0
  · rw [if_pos hc] at h
    rw [if_pos (show (s.present bytes ended).bitcnt = 0 from hc)]
    unfold readByte at h ⊢
    cases hi : s.input with
    | cons a rest =>
      rw [hi] at h
      rw [show (s.present bytes ended).input = a :: (rest ++ bytes) by simp [State.present, State.offer, hi]]
      cases h
      rfl
    | nil => rw [hi] at h; cases he : s.inEnd <;> simp [he] at h
  · rw [if_neg hc] at h
    rw [if_neg (show ¬ (s.present bytes ended).bitcnt = 0 from hc)]
    cases h
    rfl

/-! ## A field -/

theorem collectBits_inReady (k : Nat) (s : State) (r : Bool) :
    collectBits (k + 1) { s with inReady := r } = collectBits (k + 1) s := by
  rw [collectBits, readBit_inReady, collectBits]

/-- The loop of `read_bits(n)`, held after some bits, goes on with those that are left: `fld_cnt` counts them (R31). -/
theorem collectBits_resumes {n : Nat} (hn : n < 32) {u : State} (bytes : List Byte) (ended : Bool) (k : Nat) :
    ∀ s : State, s.fldCnt.toNat + k = n → collectBits k s = .hold u →
      collectBits (n - u.fldCnt.toNat) (u.present bytes ended) = collectBits k (s.present bytes ended) := by
  induction k with
  | zero => exact fun s _ h => absurd h nofun
  | succ k ih =>
    intro s hcount h
    rw [collectBits] at h
    rcases readBit_cases s with ⟨b, s', hb, -, hf, -⟩ | ⟨-, -, -, hb⟩ | ⟨-, -, -, hb⟩ <;> rw [hb] at h
    · have hcount' : (pushFieldBit b s').fldCnt.toNat + k = n := by
        change (s'.fldCnt + 1).toNat + k = n
        rw [hf]
        change (s.fldCnt + 1).toNat + k = n
        bv_omega
      rw [ih _ hcount' h, collectBits, readBit_present bytes ended hb]
      rfl
    · cases h
      rw [← hcount, Nat.add_sub_cancel_left]
      exact collectBits_inReady k (s.present bytes ended) true
    · cases h

theorem beginField_present (s : State) (bytes : List Byte) (ended : Bool) :
    beginField (s.present bytes ended) = (beginField s).present bytes ended := by
  rw [beginField, beginField, apply_ite (State.present · bytes ended)]
  rfl

/-- The bits of a field that are read before a hold stay in the field register (R31, log 24). -/
theorem readBits_resumable {n : Nat} (hn : n < 32) : Resumable (readBits n) := by
  intro s u bytes ended hhold
  unfold readBits at hhold ⊢
  rcases collectBits_cases (n - (beginField s).fldCnt.toNat) (beginField s) with
    ⟨t, ht, -⟩ | ⟨t, ht, -, hready, -⟩ | ⟨t, ht, -⟩ <;> rw [ht] at hhold <;> cases hhold
  have hheld : beginField (u.present bytes ended) = u.present bytes ended := if_pos hready
  have hle : (beginField s).fldCnt.toNat ≤ n := by
    by_contra hgt
    rw [Nat.sub_eq_zero_of_le (by omega)] at ht
    cases ht
  have hloop : collectBits (n - (u.present bytes ended).fldCnt.toNat) (u.present bytes ended) =
      collectBits (n - ((beginField s).present bytes ended).fldCnt.toNat) ((beginField s).present bytes ended) :=
    collectBits_resumes hn bytes ended _ _ (Nat.add_sub_cancel' hle) ht
  rw [hheld, beginField_present, hloop]

/-! ## A codeword -/

theorem walk_inReady (t : Table) (alph : BitVec 32) (k : Nat) (s : State) (r : Bool) :
    walk t alph (k + 1) { s with inReady := r } = walk t alph (k + 1) s := by
  rw [walk, readBit_inReady, walk]

/-- The loop of `decode`, held after some bits, goes on with those still allowed: `walk_len` counts them (R32). -/
theorem walk_resumes {t : Table} {alph : BitVec 32} {maxBits : Nat} (hmax : maxBits ≤ 15) {u : State}
    (bytes : List Byte) (ended : Bool) (k : Nat) :
    ∀ s : State, s.walkLen.toNat + k = maxBits → walk t alph k s = .hold u →
      walk t alph (maxBits - u.walkLen.toNat) (u.present bytes ended) = walk t alph k (s.present bytes ended) := by
  induction k with
  | zero => exact fun s _ h => absurd h nofun
  | succ k ih =>
    intro s hcount h
    rw [walk] at h
    rcases readBit_cases s with ⟨b, s', hb, -, hf, -⟩ | ⟨-, -, -, hb⟩ | ⟨-, -, -, hb⟩ <;> rw [hb] at h
    · have hcount' : (pushWalkBit b s').walkLen.toNat + k = maxBits := by
        change (s'.walkLen + 1).toNat + k = maxBits
        rw [hf]
        change (s.walkLen + 1).toNat + k = maxBits
        bv_omega
      cases hv : t.inv (pushWalkBit b s').walkBits.toNat (pushWalkBit b s').walkLen.toNat with
      | some sym => simp only [hv] at h; cases h
      | none =>
        simp only [hv] at h
        rw [ih _ hcount' h, walk, readBit_present bytes ended hb]
        have hv' : t.inv (pushWalkBit b (s'.present bytes ended)).walkBits.toNat
            (pushWalkBit b (s'.present bytes ended)).walkLen.toNat = none := hv
        simp only [hv']
        rfl
    · cases h
      rw [← hcount, Nat.add_sub_cancel_left]
      exact walk_inReady t alph k (s.present bytes ended) true
    · cases h

theorem beginWalk_present (s : State) (bytes : List Byte) (ended : Bool) :
    beginWalk (s.present bytes ended) = (beginWalk s).present bytes ended := by
  rw [beginWalk, beginWalk, apply_ite (State.present · bytes ended)]
  rfl

/-- The bits of a codeword that are read before a hold stay in the walk register (R32, log 24). -/
theorem decodeSymbol_resumable {t : Table} {alph : BitVec 32} {maxBits : Nat} (hmax : maxBits ≤ 15) :
    Resumable (decodeSymbol t maxBits alph) := by
  intro s u bytes ended hhold
  unfold decodeSymbol at hhold ⊢
  have hready : u.inReady = true := by
    rcases walk_cases t alph (maxBits - (beginWalk s).walkLen.toNat) (beginWalk s) with
      ⟨sym, v, hv, -⟩ | ⟨v, hv, -, hready, -⟩ | ⟨v, hv, -⟩ | ⟨v, hv, -⟩ <;> rw [hv] at hhold <;> cases hhold
    exact hready
  have hheld : beginWalk (u.present bytes ended) = u.present bytes ended := if_pos hready
  have hle : (beginWalk s).walkLen.toNat ≤ maxBits := by
    by_contra hgt
    rw [Nat.sub_eq_zero_of_le (by omega)] at hhold
    cases hhold
  rw [hheld, beginWalk_present]
  exact walk_resumes hmax bytes ended _ _ (Nat.add_sub_cancel' hle) hhold

/-! ## The positions that read -/

/-- `u` stands where `s` stands: it is `s` but for what any read may change, and for `in_end`. -/
def SamePlace (s u : State) : Prop := onlyRead { s with inEnd := u.inEnd } u

theorem onlyRead.samePlace {s u : State} (h : onlyRead s u) : SamePlace s u := by
  have he : u.inEnd = s.inEnd := by rw [h]
  rw [SamePlace, he]
  exact h

theorem SamePlace.present {s u : State} (h : SamePlace s u) (bytes : List Byte) (ended : Bool) :
    SamePlace s (u.present bytes ended) := by
  rw [SamePlace, onlyRead] at h ⊢
  rw [h]
  rfl

/-- The position's fetch and the active tables look at nothing a read changes. -/
theorem SamePlace.fetch_tables {s u : State} (h : SamePlace s u) :
    fetch u = fetch s ∧ u.llTable = s.llTable ∧ u.dTable = s.dTable ∧ u.clTable = s.clTable := by
  rw [h]
  exact ⟨rfl, rfl, rfl, rfl⟩

/-- The step of a core that stands where `s` stands begins with one read of input, which can be held and resumed; a
step whose read is done does not leave the core held. -/
inductive ReadsFirst (s : State) : Prop
  | mk {α : Type} {P : α → Prop} {f : State → Flow α} {k : α → State → Result State} (hresume : Resumable f)
    (hends : ∀ u, ReadEnds u P (f u)) (hdone : ∀ a u t, k a u = .next t → t.inReady = true → u.inReady = true)
    (hstep : ∀ u, SamePlace s u → step u = (f u).finish k) : ReadsFirst s

/-- The read is followed by one update of the state. -/
theorem ReadsFirst.of_next {s : State} {α : Type} {P : α → Prop} {f : State → Flow α}
    {g : α → State → State} (hstep : ∀ u, SamePlace s u → step u = (f u).finish fun a u => .next (g a u))
    (hresume : Resumable f) (hends : ∀ u, ReadEnds u P (f u)) (hg : ∀ a u, (g a u).inReady = u.inReady) :
    ReadsFirst s :=
  .mk hresume hends (fun a u t ht hi => by cases ht; rwa [hg] at hi) hstep

/-- The update that follows a repeat's extra bits writes the run or raises (R196). -/
theorem repeatRun_readsFirst {s : State} {base n : Nat} {v : BitVec 4} (hn : n < 32)
    (hstep : ∀ u, SamePlace s u → step u = repeatRun base n v u) : ReadsFirst s := by
  refine .mk (readBits_resumable hn) (readBits_ends n) (fun x u t ht hi => ?_) hstep
  split at ht <;> cases ht
  · cases hi
  · exact hi

/-- An instruction with extra bits begins with their read. -/
theorem exec_readsFirst {s : State} {i : Instr} {n : Nat} (hx : extraBits s i n)
    (hstep : ∀ u, SamePlace s u → step u = exec i u) : ReadsFirst s := by
  rcases hx with ⟨v, h1, h2, hd, rfl⟩ | ⟨d, h1, h2, hd, rfl⟩ | ⟨rfl, rfl, hidx⟩ | ⟨rfl, rfl⟩ | ⟨rfl, rfl⟩
  · obtain ⟨base, hb⟩ := exec_lengthSymbol h1 h2 hd
    have hlt : lenExtra v < 32 := (lenExtra_le h2).trans_lt (by decide)
    exact .of_next (fun u hu => (hstep u hu).trans (congrFun hb u)) (readBits_resumable hlt) (readBits_ends _)
      fun _ _ => rfl
  · obtain ⟨base, hb⟩ := exec_distanceSymbol h1 h2 hd
    have hlt : distExtra d < 32 := (distExtra_le h2).trans_lt (by decide)
    exact .of_next (fun u hu => (hstep u hu).trans (congrFun hb u)) (readBits_resumable hlt) (readBits_ends _)
      fun _ _ => rfl
  · have hrun (u) (hu : SamePlace s u) : step u = repeatRun 3 2 (s.lens.getD (s.lenIdx.toNat - 1) 0) u := by
      rw [hstep u hu, hu]
      exact if_neg hidx
    exact repeatRun_readsFirst (by decide) hrun
  · exact repeatRun_readsFirst (n := 3) (by decide) hstep
  · exact repeatRun_readsFirst (n := 7) (by decide) hstep

/-- At every position that reads, a step without events begins with a read. -/
theorem readsFirst_of_reading {s : State} (hr : s.rst = false) (hs : s.start = false) (hpos : s.positionOk)
    (hread : s.reading = true) : ReadsFirst s := by
  have hrst {u : State} (hu : SamePlace s u) : u.rst = false := by rw [hu]; exact hr
  have hstart {u : State} (hu : SamePlace s u) : u.start = false := by rw [hu]; exact hs
  have hfsm {u : State} (hu : SamePlace s u) : u.fsm = s.fsm := by rw [hu]
  have hhdr {p : HdrPos} (hp : s.fsm = .blockHdr p) (hw : p ≠ .dispatch) (u) (hu : SamePlace s u) :
      step u = workBlockHdr p u := step_blockHdr (hrst hu) (hstart hu) ((hfsm hu).trans hp) hw
  have hdyn {p : DynPos} (hp : s.fsm = .dynHdr p) (hw : ∀ c, p ≠ .execCl c) (u) (hu : SamePlace s u) :
      step u = workDynHdr p u := step_dynHdr (hrst hu) (hstart hu) ((hfsm hu).trans hp) hw
  have hhuff {p : HuffPos} (hp : s.fsm = .huffSym p) (hw : p = .symbol ∨ p = .dist) (u) (hu : SamePlace s u) :
      step u = workHuffSym p u := step_huffSym (hrst hu) (hstart hu) ((hfsm hu).trans hp) hw
  have hstored {p : StoredPos} (hp : s.fsm = .stored p) (hw : ∀ w, p ≠ .op w) (u) (hu : SamePlace s u) :
      step u = workStored p u := step_stored (hrst hu) (hstart hu) ((hfsm hu).trans hp) hw
  rcases shortOfBits_or_atExtraBits (s := { s with bitcnt := 0, input := [] }) hpos hread (unread_nil rfl rfl) with
    (⟨hp, -⟩ | ⟨hp, -⟩ | ⟨hp, -⟩ | ⟨hp, -⟩ | ⟨hp, -⟩ | ⟨i, hp, hlt, -⟩ | ⟨hp, -⟩ | ⟨hp, -⟩ | ⟨hp, hlt, -⟩ | ⟨hp, -⟩) |
    ⟨f, w, i, n, hf, hd, hx, -⟩
  · exact .of_next (hhdr hp nofun) readBit_resumable readBit_ends fun _ _ => rfl
  · exact .of_next (hhdr hp nofun) (readBits_resumable (by decide)) (readBits_ends 2) fun _ _ => rfl
  · exact .of_next (hdyn hp nofun) (readBits_resumable (by decide)) (readBits_ends 5) fun _ _ => rfl
  · exact .of_next (hdyn hp nofun) (readBits_resumable (by decide)) (readBits_ends 5) fun _ _ => rfl
  · exact .of_next (hdyn hp nofun) (readBits_resumable (by decide)) (readBits_ends 4) fun _ _ => rfl
  · refine .of_next (g := setClLen i) (fun u hu => ?_) (readBits_resumable (by decide)) (readBits_ends 3) fun _ _ => rfl
    rw [hdyn hp nofun u hu, workDynHdr, if_pos (by rw [hu]; exact hlt)]
  · have hstep (u) (hu : SamePlace s u) : step u =
        (decodeSymbol s.llTable Config.maxBitsLL alphLitLen u).finish fun sym u =>
          .next { u with curSym := BitVec.ofNat 9 sym, fsm := .huffSym .execSym } := by
      obtain ⟨-, hll, -⟩ := hu.fetch_tables
      rw [hhuff hp (.inl rfl) u hu, workHuffSym, hll]
    exact .of_next hstep (decodeSymbol_resumable le_rfl) (decodeSymbol_ends _ _ _) fun _ _ => rfl
  · have hstep (u) (hu : SamePlace s u) : step u =
        (decodeSymbol s.dTable Config.maxBitsD alphDist u).finish fun d u =>
          .next { u with curDsym := BitVec.ofNat 5 d, fsm := .huffSym .execDist } := by
      obtain ⟨-, -, hdist, -⟩ := hu.fetch_tables
      rw [hhuff hp (.inr rfl) u hu, workHuffSym, hdist]
    exact .of_next hstep (decodeSymbol_resumable le_rfl) (decodeSymbol_ends _ _ _) fun _ _ => rfl
  · have hstep (u) (hu : SamePlace s u) : step u =
        (decodeSymbol s.clTable Config.maxBitsCL alphCodeLen u).finish fun c u =>
          .next { u with fsm := .dynHdr (.execCl (BitVec.ofNat 5 c)) } := by
      obtain ⟨-, -, -, hcl⟩ := hu.fetch_tables
      rw [hdyn hp nofun u hu, workDynHdr, if_pos (by rw [hu]; exact hlt), hcl]
    exact .of_next hstep (decodeSymbol_resumable (by decide)) (decodeSymbol_ends _ _ _) fun _ _ => rfl
  · rcases hp with hp | ⟨lo, hp⟩ | hp | ⟨lo, hp⟩ | ⟨hp, hrem⟩
    on_goal 5 =>
      have hstep (u) (hu : SamePlace s u) : step u =
          (readRawByte u).finish fun b u => .next { u with fsm := .stored (.op (opLiteralWord b)) } := by
        rw [hstored hp nofun u hu, workStored, if_neg (by rw [hu]; exact hrem)]
      exact .of_next hstep readRawByte_resumable readRawByte_ends fun _ _ => rfl
    all_goals exact .of_next (hstored hp nofun) readRawByte_resumable readRawByte_ends fun _ _ => rfl
  · exact exec_readsFirst hx fun u hu => step_of_decode (hrst hu) (hstart hu) (hu.fetch_tables.1.trans hf) hd

/-! ## A step -/

/-- A step that begins with a read and holds is taken on as if what the host presents had been there at once. -/
theorem ReadsFirst.resumes {s h : State} (hs : ReadsFirst s) (hhold : step s = .next h) (hheld : h.inReady = true)
    (bytes : List Byte) (ended : Bool) : step (h.present bytes ended) = step (s.present bytes ended) := by
  obtain @⟨α, P, f, k, hresume, hends, hdone, hstep⟩ := hs
  have hself : SamePlace s s := rfl
  have hend := hends s
  rw [hstep s hself] at hhold
  cases hf : f s with
  | done a u =>
    rw [hf] at hhold hend
    cases hend with
    | done _ _ hi => exact absurd (hi.symm.trans (hdone a u h hhold hheld)) nofun
  | hold u =>
    rw [hf] at hhold hend
    cases hhold
    cases hend with
    | hold hread =>
      calc step (h.present bytes ended)
        _ = (f (h.present bytes ended)).finish k := hstep _ (hread.samePlace.present bytes ended)
        _ = (f (s.present bytes ended)).finish k := by rw [hresume s h bytes ended hf]
        _ = step (s.present bytes ended) := (hstep _ (hself.present bytes ended)).symm
  | failed u =>
    rw [hf] at hhold hend
    cases hhold
    cases hend with
    | failed => cases hheld

/-- Settles O59: the step that holds begins with a read (R14), which goes on where it was held. -/
theorem inputHoldsChangeNothing : Obligations.InputHoldsChangeNothing := by
  intro s h bytes ended hinv _ hstep hheld
  obtain ⟨hr, hb, hrun⟩ := step_of_held hstep (.inl hheld)
  have hread := reading_of_run_held (dropStart_inv hinv) hrun hheld
  have hquiet : step (dropStart s) = .next h := (step_quiet (s := dropStart s) hr rfl).trans hrun
  have hfirst := readsFirst_of_reading (s := dropStart s) hr rfl hinv.position hread
  calc step (h.present bytes ended)
    _ = step ((dropStart s).present bytes ended) := hfirst.resumes hquiet hheld bytes ended
    _ = run (dropStart (s.present bytes ended)) := step_quiet (s := (dropStart s).present bytes ended) hr rfl
    _ = step (s.present bytes ended) := (step_of_no_event (s := s.present bytes ended) hr hb).symm

end Sys2Proof.Machine
end

section
/-! PROOF. A held PUT goes on as if the host had accepted at once: the PUT, each position that emits, and a step. -/

namespace Sys2Proof.Machine

/-! ## PUT -/

/-- A held PUT that runs again writes the same byte at the same index, and emits it once (R324, log 17). -/
theorem put_resumes (b : Byte) (k : State → State) (s : State) :
    put b k (holdEmit b (memWrite s.wp.toNat b s)).accept = put b k s.accept := by
  by_cases hw : s.wp.toNat < s.windowSize
  · have hwrite : memWrite s.wp.toNat b (memWrite s.wp.toNat b s) = memWrite s.wp.toNat b s := by
      rw [memWrite, memWrite, Memory.write_write]
    calc put b k (holdEmit b (memWrite s.wp.toNat b s)).accept
      _ = .next (k (advance (emit b (memWrite s.wp.toNat b (memWrite s.wp.toNat b s)).accept))) :=
        put_accepted b k hw rfl
      _ = .next (k (advance (emit b (memWrite s.wp.toNat b s).accept))) := by rw [hwrite]
      _ = put b k s.accept := (put_accepted (s := s.accept) b k hw rfl).symm
  · exact (if_neg hw).trans (if_neg hw).symm

/-- A byte the history holds is read again after it is written anywhere. -/
theorem Memory.read_write_of_read {m : Memory} {a a' : Nat} {v : Byte} (h : m.read a = some v) :
    (m.write a' v).read a = some v := by
  by_cases ha : a = a'
  · rw [ha]
    exact Memory.read_write_same m a' v
  · rw [Memory.read_write_other m a' v ha, h]

/-! ## The positions that emit -/

/-- `u` stands where `s` stands with the byte `b` to emit: it is `s` but for the output port, and `b` may stand in the
history at `wp` already. -/
def SameEmit (s : State) (b : Byte) (u : State) : Prop :=
  u = { s with hist := u.hist, outValid := u.outValid, outData := u.outData, outReady := u.outReady } ∧
    (u.hist = s.hist ∨ u.hist = s.hist.write s.wp.toNat b)

theorem holdEmit_sameEmit (s : State) (b : Byte) : SameEmit s b (holdEmit b (memWrite s.wp.toNat b s)).accept :=
  ⟨rfl, .inr rfl⟩

/-- Under the invariant a step without events of a core that stands where a byte is emitted is its PUT, held or not. -/
theorem step_eq_put_of_emitting {s : State} (hr : s.rst = false) (hs : s.start = false) (h : s.Inv)
    (he : s.emitting = true) : ∃ b k, ∀ u, SameEmit s b u → step u = put b k u := by
  have hrst {b u} (hu : SameEmit s b u) : u.rst = false := by rw [hu.1]; exact hr
  have hstart {b u} (hu : SameEmit s b u) : u.start = false := by rw [hu.1]; exact hs
  have hfsm {b u} (hu : SameEmit s b u) : u.fsm = s.fsm := by rw [hu.1]
  have hfetch {b u} (hu : SameEmit s b u) : fetch u = fetch s := by rw [hu.1]; rfl
  have hop {w : BitVec 25} (hp : fetch s = some (.windowOp, w)) (htag : w.extractLsb' 0 2 = 0) :
      ∃ b k, ∀ u, SameEmit s b u → step u = put b k u := by
    obtain ⟨i, hd⟩ := decode_windowOp_ok (w := w) (by rw [htag]; decide)
    rcases decode_windowOp_cases hd with ⟨-, b, rfl⟩ | ⟨h1, -⟩ | ⟨h2, -⟩
    · exact ⟨b, literalReturn, fun u hu => step_of_decode (hrst hu) (hstart hu) ((hfetch hu).trans hp) hd⟩
    · exact absurd (htag.symm.trans h1) (by decide)
    · exact absurd (htag.symm.trans h2) (by decide)
  rcases emitting_cases he with ⟨w, hp⟩ | hp | ⟨w, hp⟩ | hp <;> simp only [State.emitting, hp] at he
  · exact hop (by rw [fetch, hp]) (of_decide_eq_true he)
  · obtain ⟨i, hd⟩ := decode_fetch_ok h (f := .litLenSym) (w := s.curSym.setWidth 25) (by rw [fetch, hp])
    have hlit := of_decide_eq_true he
    rcases exec_litLenSym_cases hd with ⟨-, b, rfl⟩ | ⟨hn, -⟩ | ⟨hn, -⟩ | ⟨hn, -⟩ | ⟨hn, -⟩
    · refine ⟨b, _, fun u hu => Eq.trans ?_ (exec_lit b u)⟩
      exact step_of_decode (hrst hu) (hstart hu) ((hfetch hu).trans (by rw [fetch, hp])) hd
    all_goals omega
  · exact hop (by rw [fetch, hp]) (of_decide_eq_true he)
  · obtain ⟨b, hb, -⟩ := copy_byte h hp
    refine ⟨b, copyReturn, fun u hu => ?_⟩
    have hread : u.hist.read (s.histIndex s.curDist.toNat) = some b := by
      rcases hu.2 with hh | hh <;> rw [hh]
      · exact hb
      · exact Memory.read_write_of_read hb
    rw [step_copy (hrst hu) (hstart hu) ((hfsm hu).trans hp)]
    refine workCopy_of_read ?_ ?_
    · rw [hu.1]; exact of_decide_eq_true he
    · rw [hu.1]; exact hread

/-! ## A step -/

/-- Settles O60: the step that holds is a held PUT, and the later step runs it again. -/
theorem outputHoldsChangeNothing : Obligations.OutputHoldsChangeNothing := by
  intro s h hinv hready hstep hheld
  obtain ⟨hr, hb, hrun⟩ := step_of_held hstep (.inr hheld)
  have hemit := emitting_of_run_held (dropStart_inv hinv) hrun hheld
  obtain ⟨b, k, hput⟩ := step_eq_put_of_emitting (s := dropStart s) hr rfl (dropStart_inv hinv) hemit
  have hquiet : put b k (dropStart s) = .next h :=
    (hput _ ⟨rfl, .inl rfl⟩).symm.trans ((step_quiet (s := dropStart s) hr rfl).trans hrun)
  rw [put_held b k (s := dropStart s) hinv.window.1 hready] at hquiet
  cases hquiet
  calc step (holdEmit b (memWrite s.wp.toNat b (dropStart s))).accept
    _ = put b k (holdEmit b (memWrite s.wp.toNat b (dropStart s))).accept := hput _ (holdEmit_sameEmit (dropStart s) b)
    _ = put b k (dropStart s).accept := put_resumes b k (dropStart s)
    _ = step (dropStart s).accept := (hput (dropStart s).accept ⟨rfl, .inl rfl⟩).symm
    _ = run (dropStart s.accept) := step_quiet (s := (dropStart s).accept) hr rfl
    _ = step s.accept := (step_of_no_event (s := s.accept) hr hb).symm

end Sys2Proof.Machine
end
